-- ==== Sys2Proof/Word.lean ====
section
/-! DEFINITION. The word types of the FCU (00_scope.md R8): a byte is 8 bits, every register value 32 bits,
bit 0 the least significant. -/

namespace Sys2Proof

/-- A byte, an unsigned 8-bit number (00_scope.md R8). -/
abbrev Byte := BitVec 8

/-- A register value, an unsigned 32-bit number (00_scope.md R8). -/
abbrev Word := BitVec 32

end Sys2Proof
end

