-- ==== Sys2Proof/Config.lean ====
section
/-! DEFINITION. What is fixed for the machine: the parameters of 00_scope.md R6, and the one open parameter BASE. -/

namespace Sys2Proof.Config

/-- `SYNC`, the frame marker (00_scope.md R6). -/
def sync : Byte := 0xE7#8

/-- `MIN_FRAME`: the shortest frame, in bytes (00_scope.md R6). -/
def minFrame : Nat := 6

/-- `MAX_PAYLOAD`: the longest payload, in bytes (00_scope.md R6). -/
def maxPayload : Nat := 1028

/-- `MAX_DATA`: the longest data of a WriteRequest, in bytes (00_scope.md R6). -/
def maxData : Nat := 1024

/-- `MAX_FRAME`: the longest frame, which is also the size of each frame buffer (00_scope.md R6). -/
def maxFrame : Nat := 1034

/-- `LEN_MAX`: the largest legal length field (00_scope.md R6). -/
def lenMax : Nat := 1029

/-- `NOTE_LEN`: the length of the note string of a VersionResponse (00_scope.md R6). -/
def noteLen : Nat := 128

/-- Where `RX_CNT` saturates (00_scope.md R6). -/
def rxCntMax : Nat := 1035

/-- The register-space span: 16 KiB (00_scope.md R6, 20_memory.md R70). -/
def span : Nat := 0x4000

/-- The reflected CRC-32 polynomial (00_scope.md R6, 44_crc32.md R221). -/
def crcPoly : Word := 0xEDB88320#32

/-- The CRC-32 initial value (00_scope.md R6, 44_crc32.md R222). -/
def crcInit : Word := 0xFFFFFFFF#32

/-- The CRC-32 final XOR (00_scope.md R6, 44_crc32.md R226). -/
def crcXorOut : Word := 0xFFFFFFFF#32

/-- The constant of the ID register: major 1, minor 0, sync (10_state.md R21). -/
def idValue : Word := 0x010000E7#32

/-- The 16 KiB page the platform maps the FCU at: the open parameter of 00_scope.md R6 and R7. Nothing in Lean
can evaluate it, so a claim holds whatever it is (log 1). -/
opaque basePage : BitVec 18

/-- `BASE`, the FCU's base address on the host bus, 16 KiB aligned (20_memory.md R70).
DESIGN CHOICE (log 1): addresses of the host bus are 32 bits wide. -/
def base : BitVec 32 := basePage ++ 0#14

end Sys2Proof.Config
end

