-- ==== Sys2Proof/Machine/Bytes.lean ====
section
/-! DEFINITION. Byte order, the checksum function, the CRC step and the saturating increment: the primitives of
00_scope.md R9 that work on bytes and words. -/

namespace Sys2Proof.Machine

/-- `le16(b0, b1) = b0 + 256*b1` (00_scope.md R9). -/
def le16 (b0 b1 : Byte) : BitVec 16 := b1 ++ b0

/-- `le32(b0, b1, b2, b3)`, least significant byte first (00_scope.md R9, 20_memory.md R73). -/
def le32 (b0 b1 b2 b3 : Byte) : Word := b3 ++ b2 ++ b1 ++ b0

/-- `bytes_le32(v) = [v[7:0], v[15:8], v[23:16], v[31:24]]` (00_scope.md R9). -/
def bytesLe32 (v : Word) : List Byte :=
  [v.extractLsb' 0 8, v.extractLsb' 8 8, v.extractLsb' 16 8, v.extractLsb' 24 8]

/-- `sum8(s)`: the unsigned sum of the bytes modulo 256; 0 for the empty sequence (40_checksum.md R110). -/
def sum8 : List Byte → Byte
  | [] => 0#8
  | b :: s => b + sum8 s

/-- `min(v + 1, all ones)`: one more, saturating (42_deframer.md R164, R166). -/
def satInc {w : Nat} (v : BitVec w) : BitVec w :=
  if v = BitVec.allOnes w then v else v + 1

/-- One of the eight shifts of `crc_byte` (44_crc32.md R221). -/
def crcShift (c : Word) : Word :=
  if c.getLsbD 0 then (c >>> 1) ^^^ Config.crcPoly else c >>> 1

/-- `repeat n times` of 44_crc32.md R221. -/
def crcShifts : Nat → Word → Word
  | 0, c => c
  | n + 1, c => crcShifts n (crcShift c)

/-- `crc_byte(c, b)`: one byte into the reflected CRC-32 register (44_crc32.md R221). -/
def crcByte (c : Word) (b : Byte) : Word := crcShifts 8 (c ^^^ b.setWidth 32)

/-- `fold(crc_byte, c, s)`: the bytes of `s` in order (44_crc32.md R224, R226). -/
def crcBytes (c : Word) (s : List Byte) : Word := s.foldl crcByte c

/-- `CRC32(s)` (44_crc32.md R226). -/
def crc32 (s : List Byte) : Word := crcBytes Config.crcInit s ^^^ Config.crcXorOut

end Sys2Proof.Machine
end

