-- ==== Sys2Proof/Machine/Wire.lean ====
section
/-! DEFINITION. The wire frame: its layout (30_encoding.md R92), its op codes (R100) and the payload shapes of
41_messages.md R147. -/

namespace Sys2Proof.Machine

/-- A row of the wire op-code map: code, direction, and the payload lengths its shape admits
(30_encoding.md R100, 41_messages.md R147). -/
structure WireRow where
  op : Byte
  isRequest : Bool
  plenMin : Nat
  plenMax : Nat
  deriving DecidableEq, Repr

/-- The 13 wire op codes and their shapes (30_encoding.md R100, 41_messages.md R147). -/
def wireTable : List WireRow :=
  [⟨0x01#8, true, 0, 0⟩, ⟨0x02#8, false, 133, 133⟩, ⟨0x03#8, true, 4, 4⟩, ⟨0x04#8, false, 0, 0⟩,
   ⟨0x05#8, true, 4, 4⟩, ⟨0x06#8, false, 4, 4⟩, ⟨0x07#8, true, 4, 1028⟩, ⟨0x08#8, false, 0, 0⟩,
   ⟨0x09#8, true, 0, 0⟩, ⟨0x0A#8, false, 0, 0⟩, ⟨0x0B#8, true, 8, 8⟩, ⟨0x0C#8, false, 0, 1028⟩,
   ⟨0xFF#8, false, 1, 1⟩]

/-- `op` is one of the 13 defined op codes (30_encoding.md R100, R101). -/
def opDefined (op : Byte) : Bool := wireTable.any fun r => r.op == op

/-- `shape_ok(op, plen)`: the op code is in the table and the payload length within its bounds
(42_deframer.md R172, 41_messages.md R147). -/
def shapeOk (op : Byte) (plen : Nat) : Bool :=
  wireTable.any fun r => r.op == op && decide (r.plenMin ≤ plen) && decide (plen ≤ r.plenMax)

/-- The response code that answers a request: `2k - 1` is answered by `2k` (41_messages.md R131). The FCU does not
enforce it; the host puts it in RX_EXPECT. -/
def responseOp (request : Byte) : Option Byte :=
  if wireTable.any (fun r => r.op == request && r.isRequest) then some (request + 1) else none

/-- The length field `L = plen + 1` as its two bytes, least significant first (30_encoding.md R92, R93). -/
def lengthBytes (plen : Nat) : List Byte :=
  [BitVec.ofNat 8 (plen + 1), BitVec.ofNat 8 ((plen + 1) / 256)]

/-- Sync, op code and length: the four bytes the header checksum covers (40_checksum.md R111). -/
def headerBytes (op : Byte) (plen : Nat) : List Byte := Config.sync :: op :: lengthBytes plen

/-- Everything of a frame but its last byte: header, header checksum, payload (30_encoding.md R92). -/
def frameBody (op : Byte) (payload : List Byte) : List Byte :=
  headerBytes op payload.length ++ sum8 (headerBytes op payload.length) :: payload

/-- The complete frame with op code `op` and this payload (30_encoding.md R92). -/
def mkFrame (op : Byte) (payload : List Byte) : List Byte :=
  frameBody op payload ++ [sum8 (frameBody op payload)]

/-- The payload of a VersionResponse: five u8 fields, then the note (41_messages.md R133). -/
def versionPayload (apiMajor apiMinor bootMajor bootMinor bootBuild : Byte) (note : List Byte) : List Byte :=
  apiMajor :: apiMinor :: bootMajor :: bootMinor :: bootBuild :: note

end Sys2Proof.Machine
end

