-- ==== Sys2Proof/Syntax.lean ====
section
/-! DEFINITION. The instructions: one constructor for every row of spec/opcode_table.json, the 20 commands of the
CMD register (30_encoding.md R96) and the 13 wire messages (30_encoding.md R100). -/

namespace Sys2Proof

/-- An instruction. A command's argument is its byte operand B (30_encoding.md R91), where it takes one. A wire
message's arguments are its payload fields in the order of 41_messages.md R132 to R144. -/
inductive Instr where
  /-- NOP (45_control.md R240) -/
  | nop
  /-- CS_CLR (40_checksum.md R116) -/
  | csClr
  /-- CS_ADD B (40_checksum.md R117) -/
  | csAdd (b : Byte)
  /-- CS_ADDW (40_checksum.md R118) -/
  | csAddw
  /-- CS_CMP B (40_checksum.md R119) -/
  | csCmp (b : Byte)
  /-- RX_RST (42_deframer.md R173) -/
  | rxRst
  /-- RX_BYTE B (42_deframer.md R174) -/
  | rxByte (b : Byte)
  /-- RX_EOD (42_deframer.md R175) -/
  | rxEod
  /-- RX_ACK (42_deframer.md R176) -/
  | rxAck
  /-- RX_EXPECT B (42_deframer.md R177) -/
  | rxExpect (b : Byte)
  /-- TX_BEGIN B (43_framer.md R202) -/
  | txBegin (b : Byte)
  /-- TX_PUT B (43_framer.md R203) -/
  | txPut (b : Byte)
  /-- TX_PUTW (43_framer.md R204) -/
  | txPutw
  /-- TX_PUTCRC (43_framer.md R205) -/
  | txPutcrc
  /-- TX_END (43_framer.md R206) -/
  | txEnd
  /-- CRC_INIT (44_crc32.md R222) -/
  | crcInit
  /-- CRC_BYTE B (44_crc32.md R223) -/
  | crcByte (b : Byte)
  /-- CRC_WORD (44_crc32.md R224) -/
  | crcWord
  /-- CRC_CMP (44_crc32.md R225) -/
  | crcCmp
  /-- SOFT_RST (45_control.md R241) -/
  | softRst
  /-- VersionRequest (41_messages.md R132) -/
  | versionRequest
  /-- VersionResponse (41_messages.md R133) -/
  | versionResponse (apiMajor apiMinor bootMajor bootMinor bootBuild : Byte) (note : List Byte)
  /-- UpdateStartRequest (41_messages.md R134) -/
  | updateStartRequest (imageSize : Word)
  /-- UpdateStartResponse (41_messages.md R135) -/
  | updateStartResponse
  /-- UpdateStopRequest (41_messages.md R136) -/
  | updateStopRequest (crc : Word)
  /-- UpdateStopResponse (41_messages.md R137); the i32 is its 32-bit pattern (44_crc32.md R227) -/
  | updateStopResponse (crc : Word)
  /-- WriteRequest (41_messages.md R138) -/
  | writeRequest (data : List Byte) (dataCrc : Word)
  /-- WriteResponse (41_messages.md R139) -/
  | writeResponse
  /-- ResetRequest (41_messages.md R140) -/
  | resetRequest
  /-- ResetResponse (41_messages.md R141) -/
  | resetResponse
  /-- ReadAddressRequest (41_messages.md R142) -/
  | readAddressRequest (address length : Word)
  /-- ReadAddressResponse (41_messages.md R143) -/
  | readAddressResponse (data : List Byte)
  /-- ErrorResponse (41_messages.md R144) -/
  | errorResponse (code : Byte)
  deriving DecidableEq, Repr

end Sys2Proof
end

