-- ==== Sys2Proof/WellFormed.lean ====
section
/-! DEFINITION. Which instructions the encoding admits: the field lengths of 41_messages.md. Every command is
well formed (30_encoding.md R90: any byte is an operand). -/

namespace Sys2Proof

/-- The payload fields have the lengths their message's rule gives: a note of 128 bytes (R133), at most 1024 bytes
of write data (R138), at most 1028 bytes of read data (R143). -/
def Instr.wellFormed : Instr → Bool
  | .nop => true
  | .csClr => true
  | .csAdd _ => true
  | .csAddw => true
  | .csCmp _ => true
  | .rxRst => true
  | .rxByte _ => true
  | .rxEod => true
  | .rxAck => true
  | .rxExpect _ => true
  | .txBegin _ => true
  | .txPut _ => true
  | .txPutw => true
  | .txPutcrc => true
  | .txEnd => true
  | .crcInit => true
  | .crcByte _ => true
  | .crcWord => true
  | .crcCmp => true
  | .softRst => true
  | .versionRequest => true
  | .versionResponse _ _ _ _ _ note => note.length == Config.noteLen
  | .updateStartRequest _ => true
  | .updateStartResponse => true
  | .updateStopRequest _ => true
  | .updateStopResponse _ => true
  | .writeRequest data _ => decide (data.length ≤ Config.maxData)
  | .writeResponse => true
  | .resetRequest => true
  | .resetResponse => true
  | .readAddressRequest _ _ => true
  | .readAddressResponse data => decide (data.length ≤ Config.maxPayload)
  | .errorResponse _ => true

end Sys2Proof
end

