-- ==== Sys2Proof/Decode.lean ====
section
/-! DEFINITION. The decoders, total on any command word and on any byte sequence, and after them the encoder.
The FCU has two code spaces (30_encoding.md R96 and R100), so an image of an instruction is either a command word or
the bytes of a frame. -/

namespace Sys2Proof

open Machine

/-- An encoded instruction: a word for CMD (30_encoding.md R90) or the bytes of a wire frame (R92). -/
inductive Image where
  | command (w : Word)
  | frame (bytes : List Byte)
  deriving DecidableEq, Repr

/-- Why bits are not an instruction. -/
inductive DecodeError where
  /-- an OPC of 30_encoding.md R97 -/
  | illegalCommand
  /-- fewer than 6 bytes -/
  | short
  /-- more than 1034 bytes -/
  | oversize
  /-- byte 0 is not the frame marker -/
  | sync
  /-- the header checksum does not match -/
  | headerChecksum
  /-- the length field is not `n - 5` (90_conflicts.md C1) -/
  | lengthField
  /-- the frame checksum does not match -/
  | frameChecksum
  /-- an op code of 30_encoding.md R101 -/
  | undefinedOp
  /-- a defined op code with a payload of another length -/
  | shape
  deriving DecidableEq, Repr

/-- The OPC of a command word, `w[7:0]` (30_encoding.md R90). -/
def opcOf (w : Word) : Byte := w.extractLsb' 0 8

/-- The byte operand of a command word, `w[15:8]` (30_encoding.md R90, R91). -/
def operandB (w : Word) : Byte := w.extractLsb' 8 8

/-- The command a word written to CMD selects, by `w[7:0]` alone (30_encoding.md R96, R105; 45_control.md R243).
Bits `[31:16]`, and B where the command takes none, are ignored (30_encoding.md R98). -/
def decodeCommand (w : Word) : Except DecodeError Instr :=
  match opcOf w with
  | 0x00#8 => .ok .nop
  | 0x10#8 => .ok .csClr
  | 0x11#8 => .ok (.csAdd (operandB w))
  | 0x12#8 => .ok .csAddw
  | 0x13#8 => .ok (.csCmp (operandB w))
  | 0x20#8 => .ok .rxRst
  | 0x21#8 => .ok (.rxByte (operandB w))
  | 0x22#8 => .ok .rxEod
  | 0x23#8 => .ok .rxAck
  | 0x24#8 => .ok (.rxExpect (operandB w))
  | 0x30#8 => .ok (.txBegin (operandB w))
  | 0x31#8 => .ok (.txPut (operandB w))
  | 0x32#8 => .ok .txPutw
  | 0x33#8 => .ok .txPutcrc
  | 0x34#8 => .ok .txEnd
  | 0x40#8 => .ok .crcInit
  | 0x41#8 => .ok (.crcByte (operandB w))
  | 0x42#8 => .ok .crcWord
  | 0x43#8 => .ok .crcCmp
  | 0xF0#8 => .ok .softRst
  | _ => .error .illegalCommand

/-- A payload that is empty. -/
def payloadNone (i : Instr) : List Byte → Except DecodeError Instr
  | [] => .ok i
  | _ => .error .shape

/-- A payload that is one u32, little-endian (41_messages.md R130). -/
def payloadWord (f : Word → Instr) : List Byte → Except DecodeError Instr
  | [b0, b1, b2, b3] => .ok (f (le32 b0 b1 b2 b3))
  | _ => .error .shape

/-- A VersionResponse payload (41_messages.md R133). -/
def payloadVersion : List Byte → Except DecodeError Instr
  | b0 :: b1 :: b2 :: b3 :: b4 :: note =>
    if note.length = Config.noteLen then .ok (.versionResponse b0 b1 b2 b3 b4 note) else .error .shape
  | _ => .error .shape

/-- A WriteRequest payload: the data, then the last four bytes are data_crc (41_messages.md R138). -/
def payloadWrite (p : List Byte) : Except DecodeError Instr :=
  if Config.maxData < p.length - 4 then .error .shape
  else payloadWord (.writeRequest (p.take (p.length - 4))) (p.drop (p.length - 4))

/-- A ReadAddressRequest payload: address, then length (41_messages.md R142). -/
def payloadRead : List Byte → Except DecodeError Instr
  | [b0, b1, b2, b3, b4, b5, b6, b7] => .ok (.readAddressRequest (le32 b0 b1 b2 b3) (le32 b4 b5 b6 b7))
  | _ => .error .shape

/-- A ReadAddressResponse payload: raw bytes (41_messages.md R143). -/
def payloadData (p : List Byte) : Except DecodeError Instr :=
  if p.length ≤ Config.maxPayload then .ok (.readAddressResponse p) else .error .shape

/-- An ErrorResponse payload: one code byte, any value (41_messages.md R144, R145). -/
def payloadError : List Byte → Except DecodeError Instr
  | [b] => .ok (.errorResponse b)
  | _ => .error .shape

/-- The message with op code `op` and payload `p` (30_encoding.md R100, R101; 41_messages.md R132 to R146). -/
def decodePayload (op : Byte) (p : List Byte) : Except DecodeError Instr :=
  match op with
  | 0x01#8 => payloadNone .versionRequest p
  | 0x02#8 => payloadVersion p
  | 0x03#8 => payloadWord .updateStartRequest p
  | 0x04#8 => payloadNone .updateStartResponse p
  | 0x05#8 => payloadWord .updateStopRequest p
  | 0x06#8 => payloadWord .updateStopResponse p
  | 0x07#8 => payloadWrite p
  | 0x08#8 => payloadNone .writeResponse p
  | 0x09#8 => payloadNone .resetRequest p
  | 0x0A#8 => payloadNone .resetResponse p
  | 0x0B#8 => payloadRead p
  | 0x0C#8 => payloadData p
  | 0xFF#8 => payloadError p
  | _ => .error .undefinedOp

/-- The message a frame's bytes carry, with the checks in the order of 42_deframer.md R165 (the op-code expectation
is the deframer's state, not the frame's, and is not tested here). -/
def decodeFrame (d : List Byte) : Except DecodeError Instr :=
  if d.length < Config.minFrame then .error .short
  else if Config.maxFrame < d.length then .error .oversize
  else if d.getD 0 0#8 ≠ Config.sync then .error .sync
  else if d.getD 4 0#8 ≠ sum8 (d.take 4) then .error .headerChecksum
  else if (le16 (d.getD 2 0#8) (d.getD 3 0#8)).toNat ≠ d.length - 5 then .error .lengthField
  else if d.getD (d.length - 1) 0#8 ≠ sum8 (d.take (d.length - 1)) then .error .frameChecksum
  else decodePayload (d.getD 1 0#8) ((d.take (d.length - 1)).drop 5)

/-- The instruction an image encodes, or why there is none. -/
def decode : Image → Except DecodeError Instr
  | .command w => decodeCommand w
  | .frame d => decodeFrame d

/-- The command word with this OPC and byte operand, reserved bits 0 (30_encoding.md R90). -/
def commandWord (opc b : Byte) : Word := 0#16 ++ b ++ opc

/-- The encoding of an instruction (30_encoding.md R96 for commands, R92 with 41_messages.md for frames). -/
def encode : Instr → Image
  | .nop => .command (commandWord 0x00#8 0#8)
  | .csClr => .command (commandWord 0x10#8 0#8)
  | .csAdd b => .command (commandWord 0x11#8 b)
  | .csAddw => .command (commandWord 0x12#8 0#8)
  | .csCmp b => .command (commandWord 0x13#8 b)
  | .rxRst => .command (commandWord 0x20#8 0#8)
  | .rxByte b => .command (commandWord 0x21#8 b)
  | .rxEod => .command (commandWord 0x22#8 0#8)
  | .rxAck => .command (commandWord 0x23#8 0#8)
  | .rxExpect b => .command (commandWord 0x24#8 b)
  | .txBegin b => .command (commandWord 0x30#8 b)
  | .txPut b => .command (commandWord 0x31#8 b)
  | .txPutw => .command (commandWord 0x32#8 0#8)
  | .txPutcrc => .command (commandWord 0x33#8 0#8)
  | .txEnd => .command (commandWord 0x34#8 0#8)
  | .crcInit => .command (commandWord 0x40#8 0#8)
  | .crcByte b => .command (commandWord 0x41#8 b)
  | .crcWord => .command (commandWord 0x42#8 0#8)
  | .crcCmp => .command (commandWord 0x43#8 0#8)
  | .softRst => .command (commandWord 0xF0#8 0#8)
  | .versionRequest => .frame (mkFrame 0x01#8 [])
  | .versionResponse a b c d e note => .frame (mkFrame 0x02#8 (versionPayload a b c d e note))
  | .updateStartRequest v => .frame (mkFrame 0x03#8 (bytesLe32 v))
  | .updateStartResponse => .frame (mkFrame 0x04#8 [])
  | .updateStopRequest v => .frame (mkFrame 0x05#8 (bytesLe32 v))
  | .updateStopResponse v => .frame (mkFrame 0x06#8 (bytesLe32 v))
  | .writeRequest data v => .frame (mkFrame 0x07#8 (data ++ bytesLe32 v))
  | .writeResponse => .frame (mkFrame 0x08#8 [])
  | .resetRequest => .frame (mkFrame 0x09#8 [])
  | .resetResponse => .frame (mkFrame 0x0A#8 [])
  | .readAddressRequest a n => .frame (mkFrame 0x0B#8 (bytesLe32 a ++ bytesLe32 n))
  | .readAddressResponse data => .frame (mkFrame 0x0C#8 data)
  | .errorResponse code => .frame (mkFrame 0xFF#8 [code])

/-- The shortest payload of zeros with a legal shape for a defined op code (41_messages.md R147): the operands of a
table row of which only the op code is given. -/
def zeroPayload (op : Byte) : List Byte :=
  match wireTable.find? (fun r => r.op == op) with
  | some r => List.replicate r.plenMin 0#8
  | none => []

/-- The image of a row of spec/opcode_table.json whose given bits are `w`. Both kinds of row match bits `[7:0]`
against their code: of the command word for a command, of frame byte 1 for a message (30_encoding.md R105), whose
other bytes are then those of a frame with a payload of zeros. The two sets of codes are disjoint. -/
def tableImage (nbits w : Nat) : Image :=
  let v : Word := BitVec.ofNat 32 (w % 2 ^ nbits)
  if opDefined (opcOf v) then .frame (mkFrame (opcOf v) (zeroPayload (opcOf v)))
  else .command v

/-- The instruction the decoder reads from the table bits `w`. -/
def decodeTableWord (nbits w : Nat) : Option Instr := (decode (tableImage nbits w)).toOption

end Sys2Proof
end

