-- ==== Sys2Proof/Machine/Memory.lean ====
section
/-! DEFINITION. The memory of a frame buffer: 1034 bytes (10_state.md R20), held as a list of (address, byte) pairs
in one canonical form. -/

namespace Sys2Proof.Machine

/-- A frame buffer's bytes: the cells that differ from `Memory.unlisted`, addresses strictly rising. -/
abbrev Memory := List Host.Cell

/-- What an unlisted byte reads as. DESIGN CHOICE (log 2), safe: the spec leaves buffer contents at reset
unspecified and unobservable (10_state.md R45, R49). -/
def Memory.unlisted : Byte := 0#8

/-- The canonical form from address `lo` on: addresses strictly rising, inside the buffer, no cell equal to what an
unlisted address reads as. -/
def Memory.wfFrom : Nat → Memory → Bool
  | _, [] => true
  | lo, (a, b) :: m => decide (lo ≤ a) && decide (a < Config.maxFrame) && (b != Memory.unlisted) && Memory.wfFrom (a + 1) m

/-- The canonical form. -/
def Memory.wf (m : Memory) : Bool := Memory.wfFrom 0 m

/-- One byte of the buffer. -/
def Memory.read : Memory → Nat → Byte
  | [], _ => Memory.unlisted
  | (a, b) :: m, i => if i = a then b else Memory.read m i

/-- Put a byte in its place in the list, keeping the canonical form. -/
def Memory.put : Memory → Nat → Byte → Memory
  | [], i, v => if v = Memory.unlisted then [] else [(i, v)]
  | (a, b) :: m, i, v =>
    if i < a then (if v = Memory.unlisted then (a, b) :: m else (i, v) :: (a, b) :: m)
    else if i = a then (if v = Memory.unlisted then m else (i, v) :: m)
    else (a, b) :: Memory.put m i v

/-- `buf[i] <- v` (00_scope.md R9). The buffer has 1034 bytes; an index past them, which only states that no run
reaches compute, names no byte and writes nothing. -/
def Memory.write (m : Memory) (i : Nat) (v : Byte) : Memory :=
  if i < Config.maxFrame then m.put i v else m

/-- `buf[i + j] <- s[j]` for every `j`, in order. -/
def Memory.writeList (m : Memory) (i : Nat) : List Byte → Memory
  | [] => m
  | b :: s => Memory.writeList (m.write i b) (i + 1) s

/-- `buf[lo .. lo + n - 1]` as a byte sequence. -/
def Memory.slice (m : Memory) (lo n : Nat) : List Byte := (List.range n).map fun j => m.read (lo + j)

end Sys2Proof.Machine
end

