-- ==== Sys2Proof/Machine/State.lean ====
section
/-! DEFINITION. The state of the FCU (10_state.md R20), the events a run is made of and the observation it leaves
(70_reset_and_hazards.md R292), the reasons a step stops, and the state after reset (10_state.md R49). -/

namespace Sys2Proof.Machine

/-- The control bits (10_state.md R22). -/
structure Ctrl where
  dgram : Bool
  syncchk : Bool
  anyop : Bool
  ieRdy : Bool
  ieErr : Bool
  ieTx : Bool
  deriving DecidableEq, Repr

/-- The checksum unit: running sum and last comparison (40_checksum.md R115). -/
structure Cs where
  sum : Byte
  ok : Bool
  deriving DecidableEq, Repr

/-- The CRC unit: shift register, byte count, last comparison (44_crc32.md R220). -/
structure Crc where
  c : Word
  cnt : Word
  ok : Bool
  deriving DecidableEq, Repr

/-- The deframer's states (10_state.md R44). -/
inductive RxSt where
  | hunt
  | hdr
  | body
  | accum
  | ready
  deriving DecidableEq, Repr

/-- The reject codes, in check order (42_deframer.md R165). -/
inductive RejectCode where
  | none
  | short
  | oversize
  | sync
  | hcs
  | len
  | fcs
  | op
  | shape
  deriving DecidableEq, Repr

/-- The framer's error codes (43_framer.md R201). -/
inductive TxCode where
  | none
  | state
  | ovf
  deriving DecidableEq, Repr

/-- The deframer's state (10_state.md R20, 42_deframer.md R161). `cnt` is 0..1035, an invariant. -/
structure Rx where
  st : RxSt
  buf : Memory
  cnt : Nat
  expect : Byte
  err : Bool
  ovr : Bool
  code : RejectCode
  errcnt : BitVec 16
  disc : Word
  deriving DecidableEq, Repr

/-- The framer's state (43_framer.md R200). `plen` is 0..1028, an invariant. `isOpen` is the spec's `tx.open`. -/
structure Tx where
  op : Byte
  plen : Nat
  buf : Memory
  isOpen : Bool
  rdy : Bool
  err : Bool
  code : TxCode
  deriving DecidableEq, Repr

/-- What a register access does (20_memory.md R71). -/
inductive AccessKind where
  | read
  | write (v : Word)
  deriving DecidableEq, Repr

/-- A host access at byte address `BASE + off`, `bytes` bytes wide (20_memory.md R70, R71). An address below BASE is
an offset that wraps past the space. -/
structure Access where
  off : BitVec 32
  bytes : Nat
  kind : AccessKind
  deriving DecidableEq, Repr

/-- What reaches the FCU from outside, one event a step. -/
inductive Event where
  /-- one host access -/
  | access (a : Access)
  /-- a whole datagram the host forwards byte by byte: RX_DGRAM of 30_encoding.md R104 (log 4) -/
  | datagram (bytes : List Byte)
  /-- the hardware reset input asserted and released (70_reset_and_hazards.md R280; log 6) -/
  | hardReset
  deriving DecidableEq, Repr

/-- What one access shows: the value a read returned, and the IRQ level after it (70_reset_and_hazards.md R292). -/
structure Observation where
  value : Option Word
  irq : Bool
  deriving DecidableEq, Repr

/-- The whole state. `pending` (oldest first) and `observed` (newest first) are the model's own: the input and the
observation of a run (70_reset_and_hazards.md R292; log 3). -/
structure State where
  ctrl : Ctrl
  wdata : Word
  cs : Cs
  crc : Crc
  rx : Rx
  tx : Tx
  cmderr : Bool
  pending : List Event
  observed : List Observation
  deriving DecidableEq, Repr

/-- The faults: none. "The FCU never stops, hangs, refuses a command or changes control flow because of an error"
(60_exceptions.md R260; 93_implementation_defined.md: the treatments `fault` and `stuck` are not used). -/
inductive Fault where
  deriving DecidableEq, Repr

/-- The reasons a step is refused. -/
inductive Refusal where
  /-- Raised by an arm of `exec` whose instruction has no meaning yet. Safe. -/
  | notModelled (mnemonic : String)
  /-- Raised by an access that is not 32 bits wide (20_memory.md R71: "A model refuses these"). Safe. -/
  | accessWidth
  /-- Raised by a 32-bit access outside offsets 0x0000..0x3FFF (20_memory.md R71). Safe. -/
  | accessOutsideSpace
  /-- Raised by a 32-bit access inside the space at an offset that is not a multiple of 4 (20_memory.md R71). Safe. -/
  | accessMisaligned
  deriving DecidableEq, Repr

/-- `s` with other control bits. -/
def State.setCtrl (s : State) (c : Ctrl) : State := { s with ctrl := c }

/-- `s` with another operand register. -/
def State.setWdata (s : State) (v : Word) : State := { s with wdata := v }

/-- `s` with another checksum unit. -/
def State.setCs (s : State) (c : Cs) : State := { s with cs := c }

/-- `s` with another CRC unit. -/
def State.setCrc (s : State) (c : Crc) : State := { s with crc := c }

/-- `s` with another deframer. -/
def State.setRx (s : State) (r : Rx) : State := { s with rx := r }

/-- `s` with another framer. -/
def State.setTx (s : State) (t : Tx) : State := { s with tx := t }

/-- `s` with another CMDERR bit. -/
def State.setCmderr (s : State) (b : Bool) : State := { s with cmderr := b }

/-- `s` with other pending events. -/
def State.setPending (s : State) (l : List Event) : State := { s with pending := l }

/-- `s` with another log of observations. -/
def State.setObserved (s : State) (l : List Observation) : State := { s with observed := l }

/-- The state after a hardware reset (10_state.md R49, 70_reset_and_hazards.md R281). The buffers' contents are
unspecified and unobservable there; DESIGN CHOICE (log 2): nothing listed. No event is pending and nothing is
observed yet (log 3). -/
def State.reset : State where
  ctrl := { dgram := true, syncchk := true, anyop := false, ieRdy := false, ieErr := false, ieTx := false }
  wdata := 0x00000000#32
  cs := { sum := 0#8, ok := false }
  crc := { c := 0xFFFFFFFF#32, cnt := 0#32, ok := false }
  rx := { st := .accum, buf := [], cnt := 0, expect := 0x00#8, err := false, ovr := false, code := .none,
          errcnt := 0#16, disc := 0#32 }
  tx := { op := 0#8, plen := 0, buf := [], isOpen := false, rdy := false, err := false, code := .none }
  cmderr := false
  pending := []
  observed := []

end Sys2Proof.Machine
end

