-- ==== Sys2Proof/Machine/Operands.lean ====
section
/-! DEFINITION. The operand forms of 30_encoding.md R91. The byte operand B is the argument of the instruction
itself (`operandB` of the decoder). -/

namespace Sys2Proof.Machine

/-- WDATA compared or used whole, as it is when the command executes (30_encoding.md R91, CRC_CMP). -/
def operandWdata (s : State) : Word := s.wdata

/-- WDATA as its four bytes, least significant first (30_encoding.md R91: CS_ADDW, TX_PUTW, CRC_WORD). -/
def operandWdataBytes (s : State) : List Byte := bytesLe32 s.wdata

/-- CRC_RESULT: `crc.c XOR 0xFFFFFFFF` (10_state.md R30). -/
def crcResult (s : State) : Word := s.crc.c ^^^ Config.crcXorOut

/-- CRC_RESULT as its four bytes, least significant first (30_encoding.md R91: TX_PUTCRC; 43_framer.md R205). -/
def operandCrcBytes (s : State) : List Byte := bytesLe32 (crcResult s)

end Sys2Proof.Machine
end

