-- ==== Sys2Proof/Machine/Flags.lean ====
section
/-! DEFINITION. Every flag computation: the compare results, the encodings of the states and codes, the interrupt
line, and the words of CTRL and STATUS. -/

namespace Sys2Proof.Machine

/-- `cs.ok`: the running sum equals B (40_checksum.md R119). -/
def csMatches (b : Byte) (s : State) : Bool := s.cs.sum == b

/-- `crc.ok`: the finished CRC equals WDATA, as 32-bit patterns (44_crc32.md R225, R227). -/
def crcMatches (s : State) : Bool := crcResult s == operandWdata s

/-- STATUS.RXRDY: a frame is held (10_state.md R24). -/
def rxRdy (s : State) : Bool := s.rx.st == .ready

/-- The encoding of `rx.st` in STATUS.RXST (10_state.md R44). -/
def RxSt.bits : RxSt → BitVec 3
  | .hunt => 0#3
  | .hdr => 1#3
  | .body => 2#3
  | .accum => 3#3
  | .ready => 4#3

/-- The number of a reject code (42_deframer.md R165). -/
def RejectCode.bits : RejectCode → BitVec 4
  | .none => 0#4
  | .short => 1#4
  | .oversize => 2#4
  | .sync => 3#4
  | .hcs => 4#4
  | .len => 5#4
  | .fcs => 6#4
  | .op => 7#4
  | .shape => 8#4

/-- The number of a framer error code (43_framer.md R201, 10_state.md R40). -/
def TxCode.bits : TxCode → BitVec 2
  | .none => 0#2
  | .state => 1#2
  | .ovf => 2#2

/-- The interrupt output (10_state.md R47, 60_exceptions.md R263). -/
def irq (s : State) : Bool :=
  (s.ctrl.ieRdy && rxRdy s)
    || (s.ctrl.ieErr && (s.rx.err || s.rx.ovr || s.tx.err || s.cmderr))
    || (s.ctrl.ieTx && s.tx.rdy)

/-- The word CTRL reads (10_state.md R22). -/
def Ctrl.toWord (c : Ctrl) : Word :=
  0#26 ++ BitVec.ofBool c.ieTx ++ BitVec.ofBool c.ieErr ++ BitVec.ofBool c.ieRdy ++ BitVec.ofBool c.anyop
    ++ BitVec.ofBool c.syncchk ++ BitVec.ofBool c.dgram

/-- The control bits a write of `v` to CTRL stores; bits `[31:6]` are ignored (10_state.md R22, R23). -/
def Ctrl.ofWord (v : Word) : Ctrl where
  dgram := v.getLsbD 0
  syncchk := v.getLsbD 1
  anyop := v.getLsbD 2
  ieRdy := v.getLsbD 3
  ieErr := v.getLsbD 4
  ieTx := v.getLsbD 5

/-- The word STATUS reads, from bit 31 down (10_state.md R24). -/
def statusWord (s : State) : Word :=
  0#16 ++ BitVec.ofBool (irq s) ++ s.rx.st.bits ++ 0#3 ++ BitVec.ofBool s.tx.isOpen ++ BitVec.ofBool s.crc.ok
    ++ BitVec.ofBool s.cs.ok ++ BitVec.ofBool s.cmderr ++ BitVec.ofBool s.tx.err ++ BitVec.ofBool s.tx.rdy
    ++ BitVec.ofBool s.rx.ovr ++ BitVec.ofBool s.rx.err ++ BitVec.ofBool (rxRdy s)

end Sys2Proof.Machine
end

