-- ==== Sys2Proof/Machine/Ops.lean ====
section
/-! DEFINITION. The operations several commands share: recording an error, holding and releasing a frame, resetting,
appending payload bytes, observing.

The FCU has no trap entry and no trap return (60_exceptions.md R266, R267): what stands in their place is the
recording of an error in state, `reject`, `rxOverrun`, `txError` and `cmdError`, after which the FCU goes on
(60_exceptions.md R260). -/

namespace Sys2Proof.Machine

/-- The deframer's empty receiving state in the mode CTRL.DGRAM selects (42_deframer.md R166, R173, R176). -/
def rxIdle (s : State) : RxSt := if s.ctrl.dgram then .accum else .hunt

/-- `reject(code)` (42_deframer.md R166). -/
def reject (code : RejectCode) (s : State) : State :=
  s.setRx { s.rx with code := code, err := true, errcnt := satInc s.rx.errcnt, cnt := 0, st := rxIdle s }

/-- `accept()` (42_deframer.md R167). -/
def accept (s : State) : State := s.setRx { s.rx with st := .ready }

/-- What follows a verdict: `accept()` on NONE, else `reject` (42_deframer.md R163, R169). -/
def conclude (e : RejectCode) (s : State) : State :=
  if e = .none then accept s else reject e s

/-- A byte dropped because a frame is held (42_deframer.md R174, READY). -/
def rxOverrun (s : State) : State :=
  s.setRx { s.rx with ovr := true, disc := satInc s.rx.disc }

/-- The effect of RX_RST (42_deframer.md R173), shared with a write of CTRL that changes DGRAM (10_state.md R23). -/
def rxReset (s : State) : State :=
  s.setRx { s.rx with st := rxIdle s, cnt := 0, err := false, ovr := false, code := .none, errcnt := 0#16, disc := 0#32 }

/-- The effect of RX_ACK (42_deframer.md R176). -/
def rxRelease (s : State) : State :=
  if s.rx.st = .ready then s.setRx { s.rx with st := rxIdle s, cnt := 0 } else s

/-- `rx.buf[rx.cnt] <- b; rx.cnt <- rx.cnt + 1` (42_deframer.md R168, R169). -/
def rxStore (b : Byte) (s : State) : State :=
  s.setRx { s.rx with buf := s.rx.buf.write s.rx.cnt b, cnt := s.rx.cnt + 1 }

/-- `tx_error(code)` (43_framer.md R201). -/
def txError (code : TxCode) (s : State) : State :=
  s.setTx { s.tx with err := true, code := code }

/-- Append payload bytes to the open frame, all or none: STATE with no frame open, OVF past 1028 bytes
(43_framer.md R203, R204, R205). -/
def txAppend (bytes : List Byte) (s : State) : State :=
  if s.tx.isOpen = false then txError .state s
  else if Config.maxPayload < s.tx.plen + bytes.length then txError .ovf s
  else s.setTx { s.tx with buf := s.tx.buf.writeList (5 + s.tx.plen) bytes, plen := s.tx.plen + bytes.length }

/-- `cmd_error()` (45_control.md R242). -/
def cmdError (s : State) : State := s.setCmderr true

/-- Every state variable of 10_state.md R20 at its value of R49: what SOFT_RST and the hardware reset do
(45_control.md R241, 70_reset_and_hazards.md R280). The run's input and observation are not FCU state. -/
def resetAll (s : State) : State :=
  (State.reset.setPending s.pending).setObserved s.observed

/-- Record what an access showed: the value it read, if it is a read, and the level of IRQ after it
(70_reset_and_hazards.md R292). -/
def observe (value : Option Word) (s : State) : State :=
  s.setObserved ({ value := value, irq := irq s } :: s.observed)

/-- `buf[0]..`: the bytes of the held frame, none unless one is held (42_deframer.md R167, R180). -/
def rxFrame (s : State) : List Byte := if s.rx.st = .ready then s.rx.buf.slice 0 s.rx.cnt else []

/-- The transmit stream: TXBUF bytes 0..TX_FLEN-1, none unless a frame is built (20_memory.md R82, 10_state.md R43). -/
def txFrame (s : State) : List Byte := if s.tx.rdy then s.tx.buf.slice 0 (s.tx.plen + 6) else []

end Sys2Proof.Machine
end

