-- ==== Sys2Proof/Machine/Checksum.lean ====
section
/-! DEFINITION. The checksum family (40_checksum.md section 2). These commands cannot fail. -/

namespace Sys2Proof.Machine

/-- `cs.sum <- (cs.sum + the bytes) mod 256` (40_checksum.md R117, R118). -/
def csFeed (bytes : List Byte) (s : State) : State := s.setCs { s.cs with sum := s.cs.sum + sum8 bytes }

/-- CS_CLR (40_checksum.md R116). -/
def execCsClr (s : State) : Host.Outcome State Fault Refusal := .next (s.setCs { s.cs with sum := 0#8 })

/-- CS_ADD B (40_checksum.md R117). -/
def execCsAdd (b : Byte) (s : State) : Host.Outcome State Fault Refusal := .next (csFeed [b] s)

/-- CS_ADDW (40_checksum.md R118). -/
def execCsAddw (s : State) : Host.Outcome State Fault Refusal := .next (csFeed (operandWdataBytes s) s)

/-- CS_CMP B (40_checksum.md R119). -/
def execCsCmp (b : Byte) (s : State) : Host.Outcome State Fault Refusal := .next (s.setCs { s.cs with ok := csMatches b s })

end Sys2Proof.Machine
end

