-- ==== Sys2Proof/Machine/Control.lean ====
section
/-! DEFINITION. The control family (45_control.md). -/

namespace Sys2Proof.Machine

/-- NOP (45_control.md R240). -/
def execNop (s : State) : Host.Outcome State Fault Refusal := .next s

/-- SOFT_RST (45_control.md R241). -/
def execSoftRst (s : State) : Host.Outcome State Fault Refusal := .next (resetAll s)

end Sys2Proof.Machine
end

