-- ==== Sys2Proof/Machine/Crc.lean ====
section
/-! DEFINITION. The CRC-32 family (44_crc32.md). These commands cannot fail. -/

namespace Sys2Proof.Machine

/-- The bytes into the CRC register in order, counted modulo 2^32 (44_crc32.md R223, R224). -/
def crcFeed (bytes : List Byte) (s : State) : State :=
  s.setCrc { s.crc with c := crcBytes s.crc.c bytes, cnt := s.crc.cnt + BitVec.ofNat 32 bytes.length }

/-- CRC_INIT (44_crc32.md R222). -/
def execCrcInit (s : State) : Host.Outcome State Fault Refusal :=
  .next (s.setCrc { s.crc with c := Config.crcInit, cnt := 0#32 })

/-- CRC_BYTE B (44_crc32.md R223). -/
def execCrcByte (b : Byte) (s : State) : Host.Outcome State Fault Refusal := .next (crcFeed [b] s)

/-- CRC_WORD (44_crc32.md R224). -/
def execCrcWord (s : State) : Host.Outcome State Fault Refusal := .next (crcFeed (operandWdataBytes s) s)

/-- CRC_CMP (44_crc32.md R225). -/
def execCrcCmp (s : State) : Host.Outcome State Fault Refusal := .next (s.setCrc { s.crc with ok := crcMatches s })

end Sys2Proof.Machine
end

