-- ==== Sys2Proof/Machine/Framer.lean ====
section
/-! DEFINITION. The framer family (43_framer.md). -/

namespace Sys2Proof.Machine

/-- The buffer with the header, its checksum and the frame checksum written around the payload
(43_framer.md R206, the stores in their order). -/
def txClose (t : Tx) : Memory :=
  let m := t.buf.writeList 0 (headerBytes t.op t.plen)
  let m := m.write 4 (sum8 (m.slice 0 4))
  m.write (5 + t.plen) (sum8 (m.slice 0 (5 + t.plen)))

/-- TX_BEGIN B (43_framer.md R202). -/
def execTxBegin (b : Byte) (s : State) : Host.Outcome State Fault Refusal :=
  .next (s.setTx { s.tx with op := b, plen := 0, isOpen := true, rdy := false })

/-- TX_PUT B (43_framer.md R203). -/
def execTxPut (b : Byte) (s : State) : Host.Outcome State Fault Refusal := .next (txAppend [b] s)

/-- TX_PUTW (43_framer.md R204). -/
def execTxPutw (s : State) : Host.Outcome State Fault Refusal := .next (txAppend (operandWdataBytes s) s)

/-- TX_PUTCRC (43_framer.md R205). -/
def execTxPutcrc (s : State) : Host.Outcome State Fault Refusal := .next (txAppend (operandCrcBytes s) s)

/-- TX_END (43_framer.md R206). -/
def execTxEnd (s : State) : Host.Outcome State Fault Refusal :=
  if s.tx.isOpen = false then .next (txError .state s)
  else .next (s.setTx { s.tx with buf := txClose s.tx, isOpen := false, rdy := true })

end Sys2Proof.Machine
end

