-- ==== Sys2Proof/Machine/Verdict.lean ====
section
/-! DEFINITION. The checks of a candidate frame, in the order of 42_deframer.md R163 and R170. -/

namespace Sys2Proof.Machine

/-- The length field of the candidate in the receive buffer (42_deframer.md R168, R169). -/
def rxLength (s : State) : Nat := (le16 (s.rx.buf.read 2) (s.rx.buf.read 3)).toNat

/-- The header checksum of the candidate matches (40_checksum.md R111). -/
def headerOk (s : State) : Bool := s.rx.buf.read 4 == sum8 (s.rx.buf.slice 0 4)

/-- `op_ok(op)`: ANYOP, the expected code or ErrorResponse, as they stand when the check runs (42_deframer.md R171). -/
def opOk (op : Byte) (s : State) : Bool := s.ctrl.anyop || op == s.rx.expect || op == 0xFF#8

/-- `tail(n)`: the checks after the length check, shared by both modes (42_deframer.md R170). -/
def verdictTail (n : Nat) (s : State) : RejectCode :=
  if s.rx.buf.read (n - 1) ≠ sum8 (s.rx.buf.slice 0 (n - 1)) then .fcs
  else if opOk (s.rx.buf.read 1) s = false then .op
  else if shapeOk (s.rx.buf.read 1) (n - 6) = false then .shape
  else .none

/-- `verdict_dgram(n)`: the datagram verdict (42_deframer.md R163). -/
def verdictDgram (n : Nat) (s : State) : RejectCode :=
  if n < Config.minFrame then .short
  else if Config.maxFrame < n then .oversize
  else if s.ctrl.syncchk = true ∧ s.rx.buf.read 0 ≠ Config.sync then .sync
  else if headerOk s = false then .hcs
  else if rxLength s ≠ n - 5 then .len
  else verdictTail n s

end Sys2Proof.Machine
end

