-- ==== Sys2Proof/Machine/Deframer.lean ====
section
/-! DEFINITION. The deframer family (42_deframer.md). -/

namespace Sys2Proof.Machine

/-- A byte in ACCUM: stored while there is room, the count saturating at 1035 (42_deframer.md R162). -/
def rxByteAccum (b : Byte) (s : State) : State :=
  s.setRx { s.rx with
    buf := if s.rx.cnt < Config.maxFrame then s.rx.buf.write s.rx.cnt b else s.rx.buf
    cnt := min (s.rx.cnt + 1) Config.rxCntMax }

/-- A byte in HUNT: it starts a candidate, or is discarded and counted (42_deframer.md R164). -/
def rxByteHunt (b : Byte) (s : State) : State :=
  if b = Config.sync then s.setRx { s.rx with buf := s.rx.buf.write 0 b, cnt := 1, st := .hdr }
  else s.setRx { s.rx with disc := satInc s.rx.disc }

/-- The header check once the fifth byte is stored: checksum first, then the length's range (42_deframer.md R168). -/
def rxHeaderVerdict (s : State) : State :=
  if headerOk s = false then reject .hcs s
  else if rxLength s < 1 ∨ Config.lenMax < rxLength s then reject .len s
  else s.setRx { s.rx with st := .body }

/-- A byte in HDR (42_deframer.md R168). -/
def rxByteHdr (b : Byte) (s : State) : State :=
  let t := rxStore b s
  if t.rx.cnt = 5 then rxHeaderVerdict t else t

/-- A byte in BODY: the tail checks run when the frame is complete (42_deframer.md R169). -/
def rxByteBody (b : Byte) (s : State) : State :=
  let t := rxStore b s
  if t.rx.cnt = 5 + rxLength t then conclude (verdictTail t.rx.cnt t) t else t

/-- One received byte, by the deframer's state (42_deframer.md R161, R174). -/
def rxFeedByte (b : Byte) (s : State) : State :=
  match s.rx.st with
  | .hunt => rxByteHunt b s
  | .hdr => rxByteHdr b s
  | .body => rxByteBody b s
  | .accum => rxByteAccum b s
  | .ready => rxOverrun s

/-- The end of a datagram: the verdict in ACCUM, no effect in any other state (42_deframer.md R163, R175). -/
def rxEndDatagram (s : State) : State :=
  if s.rx.st = .accum then conclude (verdictDgram s.rx.cnt s) s else s

/-- RX_RST (42_deframer.md R173). -/
def execRxRst (s : State) : Host.Outcome State Fault Refusal := .next (rxReset s)

/-- RX_BYTE B (42_deframer.md R174). -/
def execRxByte (b : Byte) (s : State) : Host.Outcome State Fault Refusal := .next (rxFeedByte b s)

/-- RX_EOD (42_deframer.md R175). -/
def execRxEod (s : State) : Host.Outcome State Fault Refusal := .next (rxEndDatagram s)

/-- RX_ACK (42_deframer.md R176). -/
def execRxAck (s : State) : Host.Outcome State Fault Refusal := .next (rxRelease s)

/-- RX_EXPECT B (42_deframer.md R177). -/
def execRxExpect (b : Byte) (s : State) : Host.Outcome State Fault Refusal := .next (s.setRx { s.rx with expect := b })

end Sys2Proof.Machine
end

