-- ==== Sys2Proof/Machine/Messages.lean ====
section
/-! DEFINITION. The wire messages (41_messages.md): the arrival of a message's frame at the deframer, in either mode.
DESIGN CHOICE (log 4): the host's accesses that bring the frame in, RX_DGRAM of 30_encoding.md R104, are one step of
the model, with the observation of each of them but the last recorded here and the last one recorded by the step. -/

namespace Sys2Proof.Machine

/-- The accesses of RX_FEED: every byte by RX_BYTE, each access observed (30_encoding.md R104). -/
def rxFeed (bytes : List Byte) (s : State) : State := bytes.foldl (fun t b => observe none (rxFeedByte b t)) s

/-- The accesses of RX_DGRAM: RX_FEED, then RX_EOD (30_encoding.md R104). In stream mode RX_EOD has no effect
(42_deframer.md R175), so this brings a frame in in both modes. -/
def rxDatagram (bytes : List Byte) (s : State) : State := rxEndDatagram (rxFeed bytes s)

/-- VersionRequest arrives (41_messages.md R132). -/
def execVersionRequest (s : State) : Host.Outcome State Fault Refusal := .next (rxDatagram (mkFrame 0x01#8 []) s)

/-- VersionResponse arrives (41_messages.md R133). -/
def execVersionResponse (apiMajor apiMinor bootMajor bootMinor bootBuild : Byte) (note : List Byte) (s : State) :
    Host.Outcome State Fault Refusal :=
  .next (rxDatagram (mkFrame 0x02#8 (versionPayload apiMajor apiMinor bootMajor bootMinor bootBuild note)) s)

/-- UpdateStartRequest arrives (41_messages.md R134). -/
def execUpdateStartRequest (imageSize : Word) (s : State) : Host.Outcome State Fault Refusal :=
  .next (rxDatagram (mkFrame 0x03#8 (bytesLe32 imageSize)) s)

/-- UpdateStartResponse arrives (41_messages.md R135). -/
def execUpdateStartResponse (s : State) : Host.Outcome State Fault Refusal := .next (rxDatagram (mkFrame 0x04#8 []) s)

/-- UpdateStopRequest arrives (41_messages.md R136). -/
def execUpdateStopRequest (crc : Word) (s : State) : Host.Outcome State Fault Refusal :=
  .next (rxDatagram (mkFrame 0x05#8 (bytesLe32 crc)) s)

/-- UpdateStopResponse arrives (41_messages.md R137). -/
def execUpdateStopResponse (crc : Word) (s : State) : Host.Outcome State Fault Refusal :=
  .next (rxDatagram (mkFrame 0x06#8 (bytesLe32 crc)) s)

/-- WriteRequest arrives (41_messages.md R138). -/
def execWriteRequest (data : List Byte) (dataCrc : Word) (s : State) : Host.Outcome State Fault Refusal :=
  .next (rxDatagram (mkFrame 0x07#8 (data ++ bytesLe32 dataCrc)) s)

/-- WriteResponse arrives (41_messages.md R139). -/
def execWriteResponse (s : State) : Host.Outcome State Fault Refusal := .next (rxDatagram (mkFrame 0x08#8 []) s)

/-- ResetRequest arrives (41_messages.md R140). -/
def execResetRequest (s : State) : Host.Outcome State Fault Refusal := .next (rxDatagram (mkFrame 0x09#8 []) s)

/-- ResetResponse arrives (41_messages.md R141). -/
def execResetResponse (s : State) : Host.Outcome State Fault Refusal := .next (rxDatagram (mkFrame 0x0A#8 []) s)

/-- ReadAddressRequest arrives (41_messages.md R142). -/
def execReadAddressRequest (address length : Word) (s : State) : Host.Outcome State Fault Refusal :=
  .next (rxDatagram (mkFrame 0x0B#8 (bytesLe32 address ++ bytesLe32 length)) s)

/-- ReadAddressResponse arrives (41_messages.md R143). -/
def execReadAddressResponse (data : List Byte) (s : State) : Host.Outcome State Fault Refusal :=
  .next (rxDatagram (mkFrame 0x0C#8 data) s)

/-- ErrorResponse arrives (41_messages.md R144). -/
def execErrorResponse (code : Byte) (s : State) : Host.Outcome State Fault Refusal :=
  .next (rxDatagram (mkFrame 0xFF#8 [code]) s)

end Sys2Proof.Machine
end

