-- ==== Sys2Proof/Machine/Dispatch.lean ====
section
/-! DEFINITION. Dispatch: one arm per instruction (45_control.md R243 for the commands). -/

namespace Sys2Proof.Machine

/-- The effect of an instruction. -/
def exec (i : Instr) (s : State) : Host.Outcome State Fault Refusal :=
  match i with
  | .nop => Sys2Proof.Machine.execNop s
  | .csClr => Sys2Proof.Machine.execCsClr s
  | .csAdd b => Sys2Proof.Machine.execCsAdd b s
  | .csAddw => Sys2Proof.Machine.execCsAddw s
  | .csCmp b => Sys2Proof.Machine.execCsCmp b s
  | .rxRst => Sys2Proof.Machine.execRxRst s
  | .rxByte b => Sys2Proof.Machine.execRxByte b s
  | .rxEod => Sys2Proof.Machine.execRxEod s
  | .rxAck => Sys2Proof.Machine.execRxAck s
  | .rxExpect b => Sys2Proof.Machine.execRxExpect b s
  | .txBegin b => Sys2Proof.Machine.execTxBegin b s
  | .txPut b => Sys2Proof.Machine.execTxPut b s
  | .txPutw => Sys2Proof.Machine.execTxPutw s
  | .txPutcrc => Sys2Proof.Machine.execTxPutcrc s
  | .txEnd => Sys2Proof.Machine.execTxEnd s
  | .crcInit => Sys2Proof.Machine.execCrcInit s
  | .crcByte b => Sys2Proof.Machine.execCrcByte b s
  | .crcWord => Sys2Proof.Machine.execCrcWord s
  | .crcCmp => Sys2Proof.Machine.execCrcCmp s
  | .softRst => Sys2Proof.Machine.execSoftRst s
  | .versionRequest => Sys2Proof.Machine.execVersionRequest s
  | .versionResponse apiMajor apiMinor bootMajor bootMinor bootBuild note => Sys2Proof.Machine.execVersionResponse apiMajor apiMinor bootMajor bootMinor bootBuild note s
  | .updateStartRequest imageSize => Sys2Proof.Machine.execUpdateStartRequest imageSize s
  | .updateStartResponse => Sys2Proof.Machine.execUpdateStartResponse s
  | .updateStopRequest crc => Sys2Proof.Machine.execUpdateStopRequest crc s
  | .updateStopResponse crc => Sys2Proof.Machine.execUpdateStopResponse crc s
  | .writeRequest data dataCrc => Sys2Proof.Machine.execWriteRequest data dataCrc s
  | .writeResponse => Sys2Proof.Machine.execWriteResponse s
  | .resetRequest => Sys2Proof.Machine.execResetRequest s
  | .resetResponse => Sys2Proof.Machine.execResetResponse s
  | .readAddressRequest address length => Sys2Proof.Machine.execReadAddressRequest address length s
  | .readAddressResponse data => Sys2Proof.Machine.execReadAddressResponse data s
  | .errorResponse code => Sys2Proof.Machine.execErrorResponse code s

end Sys2Proof.Machine
end

