-- ==== Sys2Proof/Machine/Registers.lean ====
section
/-! DEFINITION. The register map (10_state.md section 2): which register an offset names, what it reads, and what a
write to a register other than CMD does. A write to CMD runs a command (Machine/Bus.lean). -/

namespace Sys2Proof.Machine

/-- The mapped registers: 19, and 259 words of each buffer window (20_memory.md R72). -/
inductive Reg where
  | id
  | ctrl
  | status
  | cmd
  | wdata
  | csSum
  | crcState
  | crcResult
  | crcCnt
  | rxExpect
  | rxHdr
  | rxCnt
  | rxErr
  | rxDisc
  | rxW0
  | rxW1
  | rxWt
  | txInfo
  | txFlen
  | rxbuf (k : Fin 259)
  | txbuf (k : Fin 259)
  deriving DecidableEq, Repr

/-- The offset of a register from BASE (10_state.md section 2). -/
def Reg.offset : Reg → Nat
  | .id => 0x000
  | .ctrl => 0x004
  | .status => 0x008
  | .cmd => 0x00C
  | .wdata => 0x010
  | .csSum => 0x014
  | .crcState => 0x018
  | .crcResult => 0x01C
  | .crcCnt => 0x020
  | .rxExpect => 0x024
  | .rxHdr => 0x028
  | .rxCnt => 0x02C
  | .rxErr => 0x030
  | .rxDisc => 0x034
  | .rxW0 => 0x038
  | .rxW1 => 0x03C
  | .rxWt => 0x040
  | .txInfo => 0x044
  | .txFlen => 0x048
  | .rxbuf k => 0x1000 + 4 * k.val
  | .txbuf k => 0x2000 + 4 * k.val

/-- The 19 registers below the windows, in the order of their offsets (10_state.md section 2). -/
def lowRegs : List Reg :=
  [.id, .ctrl, .status, .cmd, .wdata, .csSum, .crcState, .crcResult, .crcCnt, .rxExpect, .rxHdr, .rxCnt, .rxErr,
   .rxDisc, .rxW0, .rxW1, .rxWt, .txInfo, .txFlen]

/-- The register at an offset that is a multiple of 4, none where it is unmapped (20_memory.md R72). -/
def regAt (off : Nat) : Option Reg :=
  if off < 0x1000 then lowRegs[off / 4]?
  else if off < 0x2000 then
    if h : (off - 0x1000) / 4 < 259 then some (.rxbuf ⟨(off - 0x1000) / 4, h⟩) else none
  else if h : (off - 0x2000) / 4 < 259 then some (.txbuf ⟨(off - 0x2000) / 4, h⟩) else none

/-- `p(i)`: payload byte `i` of the held frame, 0 past the payload (10_state.md R37). -/
def rxPayload (s : State) (i : Nat) : Byte :=
  if s.rx.st = .ready ∧ i < s.rx.cnt - 6 then s.rx.buf.read (5 + i) else 0#8

/-- `rb(i)`: byte `i` of the held frame, 0 past it (10_state.md R42). -/
def rxByteAt (s : State) (i : Nat) : Byte :=
  if s.rx.st = .ready ∧ i < s.rx.cnt then s.rx.buf.read i else 0#8

/-- `tb(i)`: byte `i` of the built frame, 0 past it (10_state.md R43). -/
def txByteAt (s : State) (i : Nat) : Byte :=
  if s.tx.rdy ∧ i < s.tx.plen + 6 then s.tx.buf.read i else 0#8

/-- RX_HDR: sync byte, op code and length field of the held frame (10_state.md R33). -/
def rxHdrWord (s : State) : Word :=
  if s.rx.st = .ready then le32 (s.rx.buf.read 0) (s.rx.buf.read 1) (s.rx.buf.read 2) (s.rx.buf.read 3) else 0#32

/-- RX_WT: the last four payload bytes of the held frame (10_state.md R39). -/
def rxTailWord (s : State) : Word :=
  let plen := s.rx.cnt - 6
  if s.rx.st = .ready ∧ 4 ≤ plen then
    le32 (rxPayload s (plen - 4)) (rxPayload s (plen - 3)) (rxPayload s (plen - 2)) (rxPayload s (plen - 1))
  else 0#32

/-- What a register reads: a function of the state that changes nothing (10_state.md R21 to R43, 20_memory.md R76). -/
def readReg : Reg → State → Word
  | .id, _ => Config.idValue
  | .ctrl, s => s.ctrl.toWord
  | .status, s => statusWord s
  | .cmd, _ => 0#32
  | .wdata, s => s.wdata
  | .csSum, s => s.cs.sum.setWidth 32
  | .crcState, s => s.crc.c
  | .crcResult, s => Machine.crcResult s
  | .crcCnt, s => s.crc.cnt
  | .rxExpect, s => s.rx.expect.setWidth 32
  | .rxHdr, s => rxHdrWord s
  | .rxCnt, s => BitVec.ofNat 32 s.rx.cnt
  | .rxErr, s => s.rx.errcnt ++ 0#12 ++ s.rx.code.bits
  | .rxDisc, s => s.rx.disc
  | .rxW0, s => le32 (rxPayload s 0) (rxPayload s 1) (rxPayload s 2) (rxPayload s 3)
  | .rxW1, s => le32 (rxPayload s 4) (rxPayload s 5) (rxPayload s 6) (rxPayload s 7)
  | .rxWt, s => rxTailWord s
  | .txInfo, s => 0#5 ++ BitVec.ofNat 11 s.tx.plen ++ 0#6 ++ s.tx.code.bits ++ s.tx.op
  | .txFlen, s => if s.tx.rdy then BitVec.ofNat 32 (s.tx.plen + 6) else 0#32
  | .rxbuf k, s =>
    le32 (rxByteAt s (4 * k.val)) (rxByteAt s (4 * k.val + 1)) (rxByteAt s (4 * k.val + 2)) (rxByteAt s (4 * k.val + 3))
  | .txbuf k, s =>
    le32 (txByteAt s (4 * k.val)) (txByteAt s (4 * k.val + 1)) (txByteAt s (4 * k.val + 2)) (txByteAt s (4 * k.val + 3))

/-- What the word at an aligned offset reads: 0 where unmapped (20_memory.md R72). -/
def readOffset (off : Nat) (s : State) : Word :=
  match regAt off with
  | some r => readReg r s
  | none => 0#32

/-- A write of `v` to CTRL (10_state.md R23): a change of DGRAM performs RX_RST in the new mode. -/
def writeCtrl (v : Word) (s : State) : State :=
  let t := s.setCtrl (Ctrl.ofWord v)
  if v.getLsbD 0 = s.ctrl.dgram then t else rxReset t

/-- A write of `v` to STATUS (10_state.md R25): each W1C bit set in `v` is cleared. -/
def writeStatus (v : Word) (s : State) : State :=
  ((s.setRx { s.rx with err := s.rx.err && !v.getLsbD 1, ovr := s.rx.ovr && !v.getLsbD 2 }).setTx
    { s.tx with err := s.tx.err && !v.getLsbD 4 }).setCmderr (s.cmderr && !v.getLsbD 5)

/-- A write of `v` to WDATA (10_state.md R27). -/
def writeWdata (v : Word) (s : State) : State := s.setWdata v

end Sys2Proof.Machine
end

