-- ==== Sys2Proof/Machine/Bus.lean ====
section
/-! DEFINITION. What one event does: a host access (20_memory.md), a datagram the host forwards, the hardware reset. -/

namespace Sys2Proof.Machine

/-- The byte address an access names (20_memory.md R70). -/
def Access.addr (a : Access) : BitVec 32 := Config.base + a.off

/-- Why an access is not a defined one, none if it is (20_memory.md R71). -/
def Access.refusal (a : Access) : Option Refusal :=
  if a.bytes ≠ 4 then some .accessWidth
  else if Config.span ≤ a.off.toNat then some .accessOutsideSpace
  else if a.off.toNat % 4 ≠ 0 then some .accessMisaligned
  else none

/-- An aligned 32-bit write of `v` to a register. -/
def busWrite (r : Reg) (v : Word) : Access := ⟨BitVec.ofNat 32 r.offset, 4, .write v⟩

/-- An aligned 32-bit read of a register. -/
def busRead (r : Reg) : Access := ⟨BitVec.ofNat 32 r.offset, 4, .read⟩

/-- Change the state an outcome answers. -/
def mapNext (f : State → State) : Host.Outcome State Fault Refusal → Host.Outcome State Fault Refusal
  | .next s => .next (f s)
  | .fault r => .fault r
  | .refused r => .refused r

/-- `execute(w)`: the command `w` selects, or `cmd_error()` (45_control.md R243). -/
def runCommand (w : Word) (s : State) : Host.Outcome State Fault Refusal :=
  match decodeCommand w with
  | .ok i => exec i s
  | .error _ => .next (cmdError s)

/-- The bytes of a datagram: the message they carry, or, when they carry none, the same accesses with those bytes. -/
def runDatagram (d : List Byte) (s : State) : Host.Outcome State Fault Refusal :=
  match decodeFrame d with
  | .ok i => exec i s
  | .error _ => .next (rxDatagram d s)

/-- A write of `v` to a register: only CTRL, STATUS, CMD and WDATA have an effect (20_memory.md R76, 10_state.md R50). -/
def writeReg (r : Reg) (v : Word) (s : State) : Host.Outcome State Fault Refusal :=
  match r with
  | .ctrl => .next (writeCtrl v s)
  | .status => .next (writeStatus v s)
  | .cmd => runCommand v s
  | .wdata => .next (writeWdata v s)
  | _ => .next s

/-- A write of `v` at an aligned offset; ignored where unmapped (20_memory.md R72). -/
def writeOffset (off : Nat) (v : Word) (s : State) : Host.Outcome State Fault Refusal :=
  match regAt off with
  | some r => writeReg r v s
  | none => .next s

/-- One defined host access, then what it shows (20_memory.md R76, R77; 70_reset_and_hazards.md R292). -/
def runAccess (a : Access) (s : State) : Host.Outcome State Fault Refusal :=
  match a.refusal with
  | some r => .refused r
  | none =>
    match a.kind with
    | .read => .next (observe (some (readOffset a.off.toNat s)) s)
    | .write v => mapNext (observe none) (writeOffset a.off.toNat v s)

/-- One event. The hardware reset is no access and shows nothing (70_reset_and_hazards.md R280). -/
def runEvent (e : Event) (s : State) : Host.Outcome State Fault Refusal :=
  match e with
  | .access a => runAccess a s
  | .datagram d => mapNext (observe none) (runDatagram d s)
  | .hardReset => .next (resetAll s)

/-- Serve the oldest pending event. DESIGN CHOICE (log 5): with none pending the state stays as it is; the FCU never
steps on its own (00_scope.md R5). -/
def serveNext (s : State) : Host.Outcome State Fault Refusal :=
  match s.pending with
  | [] => .next s
  | e :: rest => runEvent e (s.setPending rest)

/-- The event that brings an encoded instruction to the FCU: a write of CMD, or the frame's arrival. -/
def imageEvent : Image → Event
  | .command w => .access (busWrite .cmd w)
  | .frame d => .datagram d

end Sys2Proof.Machine
end

