-- ==== Sys2Proof/Machine/Step.lean ====
section
/-! DEFINITION. One step of the machine: one event of the host (00_scope.md R5). -/

namespace Sys2Proof.Machine

/-- One step. -/
def step (s : State) : Host.Outcome State Fault Refusal := serveNext s

/-- `s` with the instruction of the table bits `w` as the next event. The FCU fetches nothing (20_memory.md R81):
a program is the host's access sequence, and comes from outside the machine (log 3). -/
def State.withFetchWord (s : State) (nbits w : Nat) : State :=
  s.setPending (imageEvent (tableImage nbits w) :: s.pending)

end Sys2Proof.Machine
end

