-- ==== Sys2Proof/Machine/Assembler.lean ====
section
/-! DEFINITION. The assembler lines and pseudo-instructions of 30_encoding.md R103 and R104, as the host accesses they
stand for. -/

namespace Sys2Proof.Machine

/-- A line of an FCU program (30_encoding.md R103, R104). -/
inductive Line where
  /-- `WR <reg>, <imm32>` -/
  | wr (r : Reg) (v : Word)
  /-- `RD <reg>` -/
  | rd (r : Reg)
  /-- `<MNEMONIC>` or `<MNEMONIC> <imm8>`: the write of the command's word to CMD -/
  | command (i : Instr)
  | rxFeed (bytes : List Byte)
  | rxDgram (bytes : List Byte)
  | csFeed (bytes : List Byte)
  | crcFeed (bytes : List Byte)
  | txPuts (bytes : List Byte)
  | txPut32 (v : Word)
  | crcCheck (v : Word)
  | clrErrs
  deriving DecidableEq, Repr

/-- The write of a command's word to CMD (30_encoding.md R103). -/
def commandEvent (i : Instr) : Event := imageEvent (encode i)

/-- The exact expansion of a line (30_encoding.md R103, R104). -/
def Line.expand : Line → List Event
  | .wr r v => [.access (busWrite r v)]
  | .rd r => [.access (busRead r)]
  | .command i => [commandEvent i]
  | .rxFeed bytes => bytes.map fun b => commandEvent (.rxByte b)
  | .rxDgram bytes => (bytes.map fun b => commandEvent (.rxByte b)) ++ [commandEvent .rxEod]
  | .csFeed bytes => bytes.map fun b => commandEvent (.csAdd b)
  | .crcFeed bytes => bytes.map fun b => commandEvent (.crcByte b)
  | .txPuts bytes => bytes.map fun b => commandEvent (.txPut b)
  | .txPut32 v => [.access (busWrite .wdata v), commandEvent .txPutw]
  | .crcCheck v => [.access (busWrite .wdata v), commandEvent .crcCmp]
  | .clrErrs => [.access (busWrite .status 0x00000036#32)]

/-- A program is its lines' accesses in order (30_encoding.md R103). -/
def assemble (lines : List Line) : List Event := lines.flatMap Line.expand

end Sys2Proof.Machine
end

