-- ==== Sys2Proof/Safety.lean ====
section
/-! DEFINITION. The terms claims are written in: the invariant of the machine's states, the verdict on a byte sequence
written without the machine, what a reject records, and what an observation may depend on. -/

namespace Sys2Proof.Machine

/-- The instructions in order, each complete before the next (20_memory.md R77). -/
def execAll : List Instr → State → Host.Outcome State Fault Refusal
  | [], s => .next s
  | i :: is, s =>
    match exec i s with
    | .next t => execAll is t
    | .fault r => .fault r
    | .refused r => .refused r

/-- An event the spec gives a step: any but an access that 20_memory.md R71 refuses (70_reset_and_hazards.md R292). -/
def Event.admitted : Event → Bool
  | .access a => a.refusal.isNone
  | .datagram _ => true
  | .hardReset => true

/-- The instruction is one of the 20 commands (30_encoding.md R96), not a wire message. -/
def isCommand (i : Instr) : Bool :=
  match encode i with
  | .command _ => true
  | .frame _ => false

/-! ### The verdict on a byte sequence, without the machine -/

/-- The checks after the length check, on the bytes of a frame (42_deframer.md R170). -/
def tailVerdict (anyop : Bool) (expect : Byte) (d : List Byte) : RejectCode :=
  if d.getD (d.length - 1) 0#8 ≠ sum8 (d.take (d.length - 1)) then .fcs
  else if ¬(anyop = true ∨ d.getD 1 0#8 = expect ∨ d.getD 1 0#8 = 0xFF#8) then .op
  else if shapeOk (d.getD 1 0#8) (d.length - 6) = false then .shape
  else .none

/-- The verdict on a whole datagram: the source's `decode(expect, d)` when `syncchk` and `anyop` are false
(42_deframer.md R163, R165, R181). -/
def frameVerdict (syncchk anyop : Bool) (expect : Byte) (d : List Byte) : RejectCode :=
  if d.length < 6 then .short
  else if 1034 < d.length then .oversize
  else if syncchk = true ∧ d.getD 0 0#8 ≠ 0xE7#8 then .sync
  else if d.getD 4 0#8 ≠ sum8 (d.take 4) then .hcs
  else if (le16 (d.getD 2 0#8) (d.getD 3 0#8)).toNat ≠ d.length - 5 then .len
  else tailVerdict anyop expect d

/-! ### What changes and what does not -/

/-- Only the deframer may differ. -/
def SameButRx (s t : State) : Prop := t = s.setRx t.rx

/-- Only the framer may differ. -/
def SameButTx (s t : State) : Prop := t = s.setTx t.tx

/-- `t` is `s` with a reject of `code` recorded and the candidate dropped (42_deframer.md R166): every other unit, the
expected op code, the overrun bit, the discard count and every buffer byte from `stored` on are as before. -/
structure Rejected (code : RejectCode) (stored : Nat) (s t : State) : Prop where
  code_eq : t.rx.code = code
  err : t.rx.err = true
  errcnt : t.rx.errcnt.toNat = min (s.rx.errcnt.toNat + 1) 0xFFFF
  cnt : t.rx.cnt = 0
  st : t.rx.st = if s.ctrl.dgram then .accum else .hunt
  expect : t.rx.expect = s.rx.expect
  ovr : t.rx.ovr = s.rx.ovr
  disc : t.rx.disc = s.rx.disc
  buf : ∀ a, stored ≤ a → t.rx.buf.read a = s.rx.buf.read a

/-- `t` is `s` with the frame `d` held (42_deframer.md R167): the error record, the expected op code and every buffer
byte past the frame are as before. -/
structure HoldsFrame (d : List Byte) (s t : State) : Prop where
  st : t.rx.st = .ready
  frame : rxFrame t = d
  expect : t.rx.expect = s.rx.expect
  err : t.rx.err = s.rx.err
  ovr : t.rx.ovr = s.rx.ovr
  code : t.rx.code = s.rx.code
  errcnt : t.rx.errcnt = s.rx.errcnt
  disc : t.rx.disc = s.rx.disc
  buf : ∀ a, d.length ≤ a → t.rx.buf.read a = s.rx.buf.read a

/-- The units other than the deframer, and the pending events, are as before; `n` accesses were observed. -/
structure OnlyReceived (n : Nat) (s t : State) : Prop where
  ctrl : t.ctrl = s.ctrl
  wdata : t.wdata = s.wdata
  cs : t.cs = s.cs
  crc : t.crc = s.crc
  tx : t.tx = s.tx
  cmderr : t.cmderr = s.cmderr
  pending : t.pending = s.pending
  observed : ∃ l : List Observation, l.length = n ∧ (∀ o ∈ l, o.value = none) ∧ t.observed = l ++ s.observed

/-- The deframer is empty and receiving, in either mode. -/
def RxEmpty (s : State) : Prop := (s.rx.st = .accum ∨ s.rx.st = .hunt) ∧ s.rx.cnt = 0

/-! ### The invariant -/

/-- The `n` bytes at the start of a receive buffer are a well-formed frame of a legal shape
(40_checksum.md R111, R112; 30_encoding.md R93; 42_deframer.md R172). -/
structure FrameWf (m : Memory) (n : Nat) : Prop where
  min : 6 ≤ n
  max : n ≤ 1034
  hcs : m.read 4 = sum8 (m.slice 0 4)
  len : (le16 (m.read 2) (m.read 3)).toNat = n - 5
  fcs : m.read (n - 1) = sum8 (m.slice 0 (n - 1))
  shape : shapeOk (m.read 1) (n - 6) = true

/-- The deframer's invariant, by state (10_state.md R44; 42_deframer.md R168, R169). -/
def RxStInv (dgram : Bool) (r : Rx) : Prop :=
  match r.st with
  | .hunt => dgram = false ∧ r.cnt = 0
  | .hdr => dgram = false ∧ 1 ≤ r.cnt ∧ r.cnt ≤ 4 ∧ r.buf.read 0 = 0xE7#8
  | .body =>
    dgram = false ∧ 5 ≤ r.cnt ∧ r.cnt < 5 + (le16 (r.buf.read 2) (r.buf.read 3)).toNat
      ∧ (le16 (r.buf.read 2) (r.buf.read 3)).toNat ≤ 1029 ∧ r.buf.read 0 = 0xE7#8
      ∧ r.buf.read 4 = sum8 (r.buf.slice 0 4)
  | .accum => dgram = true ∧ r.cnt ≤ 1035
  | .ready => FrameWf r.buf r.cnt ∧ (dgram = false → r.buf.read 0 = 0xE7#8)

/-- The deframer's record: its buffer in canonical form, and the error record consistent
(10_state.md R35; 60_exceptions.md R262). -/
structure RxRecInv (r : Rx) : Prop where
  wf : r.buf.wf = true
  err_code : r.err = true → r.code ≠ .none
  code_count : r.code = .none ↔ r.errcnt = 0#16
  ovr_disc : r.ovr = true → r.disc ≠ 0#32

/-- The deframer's invariant. -/
structure RxInv (dgram : Bool) (r : Rx) : Prop where
  record : RxRecInv r
  st : RxStInv dgram r

/-- The framer's invariant (10_state.md R46). -/
structure TxInv (t : Tx) : Prop where
  wf : t.buf.wf = true
  plen : t.plen ≤ 1028
  phase : ¬(t.isOpen = true ∧ t.rdy = true)
  built : t.rdy = true → t.buf.slice 0 (t.plen + 6) = mkFrame t.op (t.buf.slice 5 t.plen)
  err_code : t.err = true → t.code ≠ .none

/-- The invariant of the machine's states. -/
structure Inv (s : State) : Prop where
  rx : RxInv s.ctrl.dgram s.rx
  tx : TxInv s.tx

/-! ### What an observation may depend on -/

/-- Two receive buffers agree on the bytes of the current candidate or held frame (10_state.md R45). -/
def RxAgree (r q : Rx) : Prop :=
  q = { r with buf := q.buf } ∧ ∀ a, a < min r.cnt 1034 → q.buf.read a = r.buf.read a

/-- Two transmit buffers agree on the payload of an open frame and on the whole of a built one (10_state.md R43, R46). -/
def TxAgree (t u : Tx) : Prop :=
  u = { t with buf := u.buf }
    ∧ (t.isOpen = true → ∀ a, 5 ≤ a → a < 5 + t.plen → u.buf.read a = t.buf.read a)
    ∧ (t.rdy = true → ∀ a, a < t.plen + 6 → u.buf.read a = t.buf.read a)

/-- Two states that differ at most in stale buffer bytes (10_state.md R45; 93_implementation_defined.md I11). -/
def SameButStale (s t : State) : Prop :=
  t = (s.setRx t.rx).setTx t.tx ∧ RxAgree s.rx t.rx ∧ TxAgree s.tx t.tx

end Sys2Proof.Machine
end

