-- ==== Sys2Proof/Certificates/Slice0/Obligations.lean ====
section
/-! DEFINITION. The statements for the provers. Each docstring names the rules of spec/ it formalises. -/

open Sys2Proof Sys2Proof.Machine

/-! ### Reset -/

/-- 70_reset_and_hazards.md R281: what the reset state is; and the reset value of every register, as 10_state.md R21 to
R43 give it register by register. -/
def Obligations.ResetStateIsEmptyDatagramReceiver : Prop :=
  State.reset.ctrl.dgram = true ∧ State.reset.rx.st = .accum ∧ State.reset.rx.cnt = 0
    ∧ readReg .rxExpect State.reset = 0x00#32 ∧ State.reset.ctrl.syncchk = true ∧ State.reset.ctrl.anyop = false
    ∧ State.reset.tx.isOpen = false ∧ State.reset.tx.rdy = false
    ∧ readReg .crcState State.reset = 0xFFFFFFFF#32 ∧ readReg .crcResult State.reset = 0#32
    ∧ readReg .csSum State.reset = 0#32
    ∧ State.reset.rx.err = false ∧ State.reset.rx.ovr = false ∧ State.reset.tx.err = false ∧ State.reset.cmderr = false
    ∧ State.reset.ctrl.ieRdy = false ∧ State.reset.ctrl.ieErr = false ∧ State.reset.ctrl.ieTx = false
    ∧ irq State.reset = false
    ∧ ∀ r : Reg, readReg r State.reset =
        match r with
        | .id => 0x010000E7#32
        | .ctrl => 0x00000003#32
        | .status => 0x00003000#32
        | .crcState => 0xFFFFFFFF#32
        | _ => 0x00000000#32

/-- The reset state satisfies the invariant (10_state.md R44, R46, R49). -/
def Obligations.ResetSatisfiesInvariant : Prop := Inv State.reset

/-- 45_control.md R241, 70_reset_and_hazards.md R280: SOFT_RST and the hardware reset put every state variable to its
reset value, from any state; the run's own input and observation are no FCU state. The buffers' contents after it are
the model's choice (log 2) and are not part of the claim. -/
def Obligations.SoftResetAndHardwareResetRestoreEveryVariable : Prop :=
  ∀ s : State,
    ∃ t, exec .softRst s = .next t ∧ runEvent .hardReset s = .next t
      ∧ t.ctrl = State.reset.ctrl ∧ t.wdata = State.reset.wdata ∧ t.cs = State.reset.cs ∧ t.crc = State.reset.crc
      ∧ (∃ m, t.rx = { State.reset.rx with buf := m }) ∧ (∃ m, t.tx = { State.reset.tx with buf := m })
      ∧ t.cmderr = State.reset.cmderr ∧ t.pending = s.pending ∧ t.observed = s.observed
      ∧ (∀ r : Reg, readReg r t = readReg r State.reset) ∧ irq t = false ∧ readReg .ctrl t = 0x00000003#32

/-! ### Encoding -/

/-- 30_encoding.md R92, R96, R100: decoding the encoding of a well-formed instruction gives it back, every operand at
every value. -/
def Obligations.DecodeReadsBackEveryEncoding : Prop :=
  ∀ i : Instr, i.wellFormed = true → decode (encode i) = .ok i

/-- A frame that decodes is exactly the encoding of its message, and the message is well formed: no bit of a frame is
ignored (30_encoding.md R92, R93, R105). -/
def Obligations.DecodedFramesReencodeExactly : Prop :=
  ∀ (d : List Byte) (i : Instr), decodeFrame d = .ok i → i.wellFormed = true ∧ encode i = .frame d

/-- 30_encoding.md R98: bits [31:16] of every command are ignored, and so is B for a command without a byte operand;
0xABCD0010 is CS_CLR. -/
def Obligations.ReservedCommandBitsAreIgnored : Prop :=
  (∀ w v : Word, w.extractLsb' 0 16 = v.extractLsb' 0 16 → decodeCommand w = decodeCommand v)
    ∧ (∀ w v : Word, w.extractLsb' 0 8 = v.extractLsb' 0 8 →
        w.extractLsb' 0 8 ∉ ([0x11#8, 0x13#8, 0x21#8, 0x24#8, 0x30#8, 0x31#8, 0x41#8] : List Byte) →
        decodeCommand w = decodeCommand v)
    ∧ decodeCommand 0xABCD0010#32 = .ok .csClr

/-- 30_encoding.md R97: the OPCs outside the table of R96 are illegal, 236 of the 256 values; writing one sets CMDERR
and has no other effect (45_control.md R242): the access is observed and nothing else changes. -/
def Obligations.IllegalCommandsOnlySetCmderr : Prop :=
  (∀ w : Word, decodeCommand w = .error .illegalCommand ↔
      opcOf w ∉ ([0x00#8, 0x10#8, 0x11#8, 0x12#8, 0x13#8, 0x20#8, 0x21#8, 0x22#8, 0x23#8, 0x24#8, 0x30#8, 0x31#8,
        0x32#8, 0x33#8, 0x34#8, 0x40#8, 0x41#8, 0x42#8, 0x43#8, 0xF0#8] : List Byte))
    ∧ (∀ (s : State) (w : Word) (rest : List Event), decodeCommand w = .error .illegalCommand →
        ∃ t, step (s.setPending (.access (busWrite .cmd w) :: rest)) = .next t
          ∧ t = { s with cmderr := true, pending := rest, observed := t.observed }
          ∧ t.observed = ⟨none, irq { s with cmderr := true }⟩ :: s.observed
          ∧ (readReg .status t).getLsbD 5 = true)
    ∧ decodeCommand 0x00000050#32 = .error .illegalCommand

/-- Words and frames written out from 30_encoding.md R96 and 41_messages.md decode to what they stand for. -/
def Obligations.WrittenOutImagesDecode : Prop :=
  decodeCommand 0x0000E711#32 = .ok (.csAdd 0xE7#8) ∧ decodeCommand 0x00000424#32 = .ok (.rxExpect 0x04#8)
    ∧ decodeCommand 0x00000330#32 = .ok (.txBegin 0x03#8) ∧ decodeCommand 0x00004141#32 = .ok (.crcByte 0x41#8)
    ∧ decodeCommand 0x000000F0#32 = .ok .softRst
    ∧ decodeFrame [0xE7#8, 0x03#8, 0x05#8, 0x00#8, 0xEF#8, 0x00#8, 0x02#8, 0x00#8, 0x00#8, 0xE0#8] =
        .ok (.updateStartRequest 0x00000200#32)
    ∧ decodeFrame [0xE7#8, 0xFF#8, 0x02#8, 0x00#8, 0xE8#8, 0x01#8, 0xD1#8] = .ok (.errorResponse 0x01#8)

/-- 30_encoding.md R92, R93: the layout of every message's frame, byte by byte. 40_checksum.md R113: a frame's checksum is
twice its header checksum plus the sum of its payload, with the example of VersionRequest. -/
def Obligations.EncodedFramesHaveTheWireLayout : Prop :=
  (∀ (i : Instr) (d : List Byte), i.wellFormed = true → encode i = .frame d →
      6 ≤ d.length ∧ d.length ≤ 1034 ∧ d.getD 0 0#8 = 0xE7#8 ∧ opDefined (d.getD 1 0#8) = true
        ∧ (le16 (d.getD 2 0#8) (d.getD 3 0#8)).toNat = d.length - 5
        ∧ shapeOk (d.getD 1 0#8) (d.length - 6) = true
        ∧ d.getD 4 0#8 = sum8 (d.take 4) ∧ d.getD (d.length - 1) 0#8 = sum8 (d.take (d.length - 1)))
    ∧ (∀ d : List Byte, 6 ≤ d.length → d.getD 4 0#8 = sum8 (d.take 4) →
      sum8 (d.take (d.length - 1)) = 2#8 * d.getD 4 0#8 + sum8 ((d.take (d.length - 1)).drop 5))
    ∧ sum8 [0xE7#8, 0x01#8, 0x01#8, 0x00#8] = 0xE9#8 ∧ 2#8 * 0xE9#8 = 0xD2#8

/-! ### Steps and register accesses -/

/-- 10_state.md R26, 45_control.md R243; for a frame, log 4: when the oldest event is the write of a word to CMD, or a
datagram, that decodes to an instruction, the step is that instruction's effect on the state with the event taken off,
and then the observation of the (last) access. -/
def Obligations.StepRunsTheDecodedInstruction : Prop :=
  ∀ (s : State) (i : Instr) (rest : List Event),
    (∀ w : Word, s.pending = .access (busWrite .cmd w) :: rest → decodeCommand w = .ok i →
        step s = mapNext (observe none) (exec i (s.setPending rest)))
      ∧ (∀ d : List Byte, s.pending = .datagram d :: rest → decodeFrame d = .ok i →
        step s = mapNext (observe none) (exec i (s.setPending rest)))

/-- 20_memory.md R71: exactly the aligned 32-bit accesses at offsets 0x0000 to 0x3FFF get a step; every other one is
refused, with none of its effects. -/
def Obligations.OnlyAlignedWordAccessesGetAStep : Prop :=
  ∀ (s : State) (a : Access) (rest : List Event),
    ((∃ t, step (s.setPending (.access a :: rest)) = .next t) ↔
        a.bytes = 4 ∧ a.off.toNat % 4 = 0 ∧ a.off.toNat < 0x4000)
      ∧ (¬(a.bytes = 4 ∧ a.off.toNat % 4 = 0 ∧ a.off.toNat < 0x4000) →
        ∃ r, step (s.setPending (.access a :: rest)) = .refused r)

/-- 20_memory.md R72: the mapped offsets are exactly 0x000..0x048, 0x1000..0x1408 and 0x2000..0x2408 in steps of 4; an
aligned read of another offset returns 0, an aligned write to one is ignored, and neither has a side effect. -/
def Obligations.UnmappedOffsetsReadZeroAndIgnoreWrites : Prop :=
  ∀ (s : State) (off : Nat) (v : Word) (rest : List Event), off < 0x4000 → off % 4 = 0 →
    ((∃ r : Reg, r.offset = off) ↔ off ≤ 0x048 ∨ (0x1000 ≤ off ∧ off ≤ 0x1408) ∨ (0x2000 ≤ off ∧ off ≤ 0x2408))
      ∧ ((¬∃ r : Reg, r.offset = off) →
          step (s.setPending (.access ⟨BitVec.ofNat 32 off, 4, .read⟩ :: rest)) =
              .next ((s.setPending rest).setObserved (⟨some 0x00000000#32, irq s⟩ :: s.observed))
            ∧ step (s.setPending (.access ⟨BitVec.ofNat 32 off, 4, .write v⟩ :: rest)) =
              .next ((s.setPending rest).setObserved (⟨none, irq s⟩ :: s.observed)))

/-- 20_memory.md R76, R77: a read of any register returns its value in the state and changes nothing; the only trace is
the run's observation (70_reset_and_hazards.md R292). R70: BASE is 16 KiB aligned and every register stands at BASE plus
its offset; that addresses are 32 bits wide is the model's choice (log 1). The map of 10_state.md section 2: which register
stands at which offset. -/
def Obligations.ReadsReturnTheRegisterAndChangeNothing : Prop :=
  (∀ (s : State) (r : Reg) (rest : List Event),
      step (s.setPending (.access (busRead r) :: rest)) =
        .next ((s.setPending rest).setObserved (⟨some (readReg r s), irq s⟩ :: s.observed)))
    ∧ Config.base.toNat % 0x4000 = 0
    ∧ (∀ (r : Reg) (v : Word), (busRead r).addr.toNat = Config.base.toNat + r.offset
        ∧ (busWrite r v).addr.toNat = Config.base.toNat + r.offset)
    ∧ ∀ r : Reg, r.offset =
        match r with
        | .id => 0x000 | .ctrl => 0x004 | .status => 0x008 | .cmd => 0x00C | .wdata => 0x010
        | .csSum => 0x014 | .crcState => 0x018 | .crcResult => 0x01C | .crcCnt => 0x020
        | .rxExpect => 0x024 | .rxHdr => 0x028 | .rxCnt => 0x02C | .rxErr => 0x030 | .rxDisc => 0x034
        | .rxW0 => 0x038 | .rxW1 => 0x03C | .rxWt => 0x040
        | .txInfo => 0x044 | .txFlen => 0x048
        | .rxbuf k => 0x1000 + 4 * k.val
        | .txbuf k => 0x2000 + 4 * k.val

/-- 10_state.md R50: writes to read-only registers are ignored without side effect; reserved bits read 0 and ignore
writes; every writable field accepts every value. 20_memory.md R76, 10_state.md R23, R25, R26, R27: the step of a write to
any register is that register's write, on the state with the event taken off, and then the observation. -/
def Obligations.ReadOnlyRegistersAndReservedBitsIgnoreWrites : Prop :=
  (∀ (s : State) (r : Reg) (v : Word) (rest : List Event), r ≠ .ctrl → r ≠ .status → r ≠ .cmd → r ≠ .wdata →
      step (s.setPending (.access (busWrite r v) :: rest)) =
        .next ((s.setPending rest).setObserved (⟨none, irq s⟩ :: s.observed)))
    ∧ (∀ s : State, readReg .ctrl s &&& 0xFFFFFFC0#32 = 0#32 ∧ readReg .status s &&& 0xFFFF0E00#32 = 0#32
        ∧ readReg .id s &&& 0x0000FF00#32 = 0#32 ∧ readReg .csSum s &&& 0xFFFFFF00#32 = 0#32
        ∧ readReg .rxExpect s &&& 0xFFFFFF00#32 = 0#32 ∧ readReg .rxErr s &&& 0x0000FFF0#32 = 0#32
        ∧ readReg .txInfo s &&& 0xF800FC00#32 = 0#32 ∧ (Inv s → readReg .rxCnt s &&& 0xFFFFF800#32 = 0#32))
    ∧ (∀ (s : State) (v : Word), writeReg .ctrl v s = writeReg .ctrl (v &&& 0x0000003F#32) s
        ∧ writeReg .status v s = writeReg .status (v &&& 0x00000036#32) s)
    ∧ (∀ (s : State) (v : Word), ∃ t u, writeReg .ctrl v s = .next t ∧ readReg .ctrl t = v &&& 0x0000003F#32
        ∧ writeReg .wdata v s = .next u ∧ readReg .wdata u = v)
    ∧ ∀ (s : State) (r : Reg) (v : Word) (rest : List Event),
        step (s.setPending (.access (busWrite r v) :: rest)) = mapNext (observe none) (writeReg r v (s.setPending rest))

/-- 10_state.md R23: a write of CTRL stores the six bits; a change of DGRAM performs RX_RST in the new mode, and a write
that leaves DGRAM as it is has no effect on the deframer. -/
def Obligations.CtrlWriteStoresBitsAndModeChangeResetsDeframer : Prop :=
  ∀ (s : State) (v : Word),
    ∃ t, writeReg .ctrl v s = .next t
      ∧ t = { s with ctrl := t.ctrl, rx := t.rx }
      ∧ t.ctrl = ⟨v.getLsbD 0, v.getLsbD 1, v.getLsbD 2, v.getLsbD 3, v.getLsbD 4, v.getLsbD 5⟩
      ∧ (v.getLsbD 0 = s.ctrl.dgram → t.rx = s.rx)
      ∧ (v.getLsbD 0 ≠ s.ctrl.dgram →
          t.rx = { s.rx with st := if v.getLsbD 0 then .accum else .hunt, cnt := 0, err := false, ovr := false,
                             code := .none, errcnt := 0#16, disc := 0#32 })

/-- 10_state.md R25: a write of STATUS clears each W1C bit set in it, sets none, ignores the other bits, and leaves the
codes and the count as they are. -/
def Obligations.StatusWriteClearsExactlyTheNamedBits : Prop :=
  ∀ (s : State) (v : Word),
    ∃ t, writeReg .status v s = .next t
      ∧ t.rx = { s.rx with err := if v.getLsbD 1 then false else s.rx.err, ovr := if v.getLsbD 2 then false else s.rx.ovr }
      ∧ t.tx = { s.tx with err := if v.getLsbD 4 then false else s.tx.err }
      ∧ t.cmderr = (if v.getLsbD 5 then false else s.cmderr)
      ∧ t = { s with rx := t.rx, tx := t.tx, cmderr := t.cmderr }

/-- 10_state.md R27, R32: a write of WDATA stores the value, a read returns it, and no command but SOFT_RST writes it (no
message does either); CTRL is likewise written by no other instruction, and the expected op code by RX_EXPECT and
SOFT_RST alone. -/
def Obligations.OnlyNamedInstructionsWriteWdataCtrlAndExpect : Prop :=
  (∀ (s : State) (v : Word), ∃ t, writeReg .wdata v s = .next t ∧ t = { s with wdata := v } ∧ readReg .wdata t = v)
    ∧ (∀ (i : Instr) (s t : State), exec i s = .next t → i ≠ .softRst →
        t.wdata = s.wdata ∧ t.ctrl = s.ctrl ∧ ((∀ b, i ≠ .rxExpect b) → t.rx.expect = s.rx.expect))
    ∧ (∀ s t : State, exec .softRst s = .next t → readReg .wdata t = 0x00000000#32 ∧ readReg .rxExpect t = 0#32)

/-- 10_state.md R24, R47; 60_exceptions.md R263: the fields of STATUS, and IRQ as the OR of the enabled sources. -/
def Obligations.StatusShowsTheStateAndIrqIsTheEnabledSources : Prop :=
  ∀ s : State,
    (readReg .status s).getLsbD 0 = (s.rx.st == .ready) ∧ (readReg .status s).getLsbD 1 = s.rx.err
      ∧ (readReg .status s).getLsbD 2 = s.rx.ovr ∧ (readReg .status s).getLsbD 3 = s.tx.rdy
      ∧ (readReg .status s).getLsbD 4 = s.tx.err ∧ (readReg .status s).getLsbD 5 = s.cmderr
      ∧ (readReg .status s).getLsbD 6 = s.cs.ok ∧ (readReg .status s).getLsbD 7 = s.crc.ok
      ∧ (readReg .status s).getLsbD 8 = s.tx.isOpen
      ∧ (readReg .status s).extractLsb' 12 3 =
          (match s.rx.st with
          | .hunt => 0#3
          | .hdr => 1#3
          | .body => 2#3
          | .accum => 3#3
          | .ready => 4#3)
      ∧ (irq s = true ↔
          (s.ctrl.ieRdy = true ∧ s.rx.st = .ready)
            ∨ (s.ctrl.ieErr = true ∧ (s.rx.err = true ∨ s.rx.ovr = true ∨ s.tx.err = true ∨ s.cmderr = true))
            ∨ (s.ctrl.ieTx = true ∧ s.tx.rdy = true))
      ∧ (readReg .status s).getLsbD 15 = irq s

/-- 10_state.md R21, R26, R28 to R32, R34 to R36, R40, R41: what the registers that show a state variable read, field by
field; CMD reads 0. -/
def Obligations.RegistersShowTheirVariables : Prop :=
  ∀ s : State,
    readReg .id s = 0x010000E7#32 ∧ readReg .cmd s = 0#32 ∧ readReg .csSum s = s.cs.sum.setWidth 32
      ∧ readReg .crcState s = s.crc.c ∧ readReg .crcResult s = s.crc.c ^^^ 0xFFFFFFFF#32 ∧ readReg .crcCnt s = s.crc.cnt
      ∧ readReg .rxExpect s = s.rx.expect.setWidth 32 ∧ (Inv s → (readReg .rxCnt s).toNat = s.rx.cnt)
      ∧ (readReg .rxErr s).extractLsb' 16 16 = s.rx.errcnt ∧ readReg .rxDisc s = s.rx.disc
      ∧ (readReg .rxErr s).extractLsb' 0 4 =
          (match s.rx.code with
          | .none => 0#4 | .short => 1#4 | .oversize => 2#4 | .sync => 3#4 | .hcs => 4#4 | .len => 5#4 | .fcs => 6#4
          | .op => 7#4 | .shape => 8#4)
      ∧ (readReg .txInfo s).extractLsb' 0 8 = s.tx.op
      ∧ (readReg .txInfo s).extractLsb' 8 2 = (match s.tx.code with | .none => 0#2 | .state => 1#2 | .ovf => 2#2)
      ∧ (Inv s → ((readReg .txInfo s).extractLsb' 16 11).toNat = s.tx.plen)
      ∧ (s.tx.rdy = true → readReg .txFlen s = BitVec.ofNat 32 (s.tx.plen + 6))
      ∧ (s.tx.rdy = false → readReg .txFlen s = 0#32)

/-! ### Control and checksum commands -/

/-- 45_control.md R240: NOP changes nothing, and the word 0 is NOP. -/
def Obligations.NopChangesNothing : Prop :=
  (∀ s : State, exec .nop s = .next s) ∧ decodeCommand 0x00000000#32 = .ok .nop

/-- 40_checksum.md R116: CS_CLR clears the sum and nothing else. -/
def Obligations.CsClrClearsOnlyTheSum : Prop :=
  ∀ s : State, ∃ t, exec .csClr s = .next t ∧ t = { s with cs := { sum := 0#8, ok := s.cs.ok } }
    ∧ readReg .csSum t = 0x00000000#32 ∧ (s.cs.sum = 0#8 → t = s)

/-- 40_checksum.md R110, R117, R118: CS_ADD adds its byte and CS_ADDW the four bytes of WDATA, modulo 256, changing the
sum alone; CS_ADDW equals four CS_ADD commands in any order of the bytes; a byte sequence fed after CS_CLR leaves its
sum8. -/
def Obligations.ChecksumCommandsAddModulo256 : Prop :=
  (∀ (s : State) (b : Byte), ∃ t, exec (.csAdd b) s = .next t ∧ t = { s with cs := { s.cs with sum := t.cs.sum } }
      ∧ t.cs.sum.toNat = (s.cs.sum.toNat + b.toNat) % 256)
    ∧ (∀ s : State, ∃ t, exec .csAddw s = .next t ∧ t = { s with cs := { s.cs with sum := t.cs.sum } }
        ∧ t.cs.sum.toNat =
            (s.cs.sum.toNat + s.wdata.toNat % 256 + s.wdata.toNat / 256 % 256 + s.wdata.toNat / 65536 % 256
              + s.wdata.toNat / 16777216) % 256)
    ∧ (∀ (s : State) (l : List Byte), l.Perm (bytesLe32 s.wdata) → execAll (l.map .csAdd) s = exec .csAddw s)
    ∧ (∀ (s : State) (l : List Byte), ∃ t, execAll (.csClr :: l.map .csAdd) s = .next t
        ∧ t = { s with cs := { s.cs with sum := sum8 l } })

/-- 40_checksum.md R119: CS_CMP compares the sum with its byte; a mismatch is no error; the result stays until the next
CS_CMP or SOFT_RST; validating a header by hand. -/
def Obligations.CsCmpComparesAndKeepsItsResult : Prop :=
  (∀ (s : State) (b : Byte), ∃ t, exec (.csCmp b) s = .next t
      ∧ t = { s with cs := { sum := s.cs.sum, ok := decide (s.cs.sum = b) } })
    ∧ (∀ (i : Instr) (s t : State), exec i s = .next t → i ≠ .softRst → (∀ b, i ≠ .csCmp b) → t.cs.ok = s.cs.ok)
    ∧ (∀ (s : State) (l : List Byte) (b : Byte), ∃ t,
        execAll (.csClr :: l.map .csAdd ++ [.csCmp b]) s = .next t ∧ (t.cs.ok = true ↔ b = sum8 l))

/-! ### CRC commands -/

/-- 44_crc32.md R222: CRC_INIT starts a new CRC and leaves CRCOK. -/
def Obligations.CrcInitStartsANewCrc : Prop :=
  ∀ s : State, ∃ t, exec .crcInit s = .next t
    ∧ t = { s with crc := { c := 0xFFFFFFFF#32, cnt := 0#32, ok := s.crc.ok } }
    ∧ readReg .crcState t = 0xFFFFFFFF#32 ∧ readReg .crcResult t = 0x00000000#32 ∧ readReg .crcCnt t = 0#32

/-- 44_crc32.md R223, R224: CRC_BYTE feeds its byte and CRC_WORD the four bytes of WDATA, least significant first, each
counted modulo 2^32; nothing else changes; CRC_WORD equals four CRC_BYTE commands. -/
def Obligations.CrcCommandsFeedBytesInOrder : Prop :=
  (∀ (s : State) (b : Byte), ∃ t, exec (.crcByte b) s = .next t
      ∧ t = { s with crc := { c := crcByte s.crc.c b, cnt := t.crc.cnt, ok := s.crc.ok } }
      ∧ t.crc.cnt.toNat = (s.crc.cnt.toNat + 1) % 2 ^ 32)
    ∧ (∀ s : State, ∃ t, exec .crcWord s = .next t
        ∧ t = { s with crc := { c := t.crc.c, cnt := t.crc.cnt, ok := s.crc.ok } }
        ∧ t.crc.c = crcByte (crcByte (crcByte (crcByte s.crc.c (s.wdata.extractLsb' 0 8)) (s.wdata.extractLsb' 8 8))
            (s.wdata.extractLsb' 16 8)) (s.wdata.extractLsb' 24 8)
        ∧ t.crc.cnt.toNat = (s.crc.cnt.toNat + 4) % 2 ^ 32)
    ∧ (∀ s : State, execAll ((bytesLe32 s.wdata).map .crcByte) s = exec .crcWord s)

/-- 44_crc32.md R226: after CRC_INIT and the bytes of `l` fed in order, CRC_RESULT reads the fold with the final XOR, and
CRC_CNT counts them; the short rows of R229's check values. -/
def Obligations.CrcResultIsTheFoldOfTheBytesFed : Prop :=
  (∀ (s : State) (l : List Byte), ∃ t, execAll (.crcInit :: l.map .crcByte) s = .next t
      ∧ readReg .crcResult t = l.foldl crcByte 0xFFFFFFFF#32 ^^^ 0xFFFFFFFF#32
      ∧ (readReg .crcCnt t).toNat = l.length % 2 ^ 32 ∧ t = { s with crc := { t.crc with ok := s.crc.ok } })
    ∧ crc32 [0x31#8, 0x32#8, 0x33#8, 0x34#8, 0x35#8, 0x36#8, 0x37#8, 0x38#8, 0x39#8] = 0xCBF43926#32
    ∧ crc32 [] = 0x00000000#32 ∧ crc32 [0x00#8] = 0xD202EF8D#32 ∧ crc32 [0x61#8] = 0xE8B7BE43#32
    ∧ crc32 [0x41#8, 0x42#8, 0x43#8, 0x44#8] = 0xDB1720A5#32
    ∧ crc32 [0xFF#8, 0xFF#8, 0xFF#8, 0xFF#8] = 0xFFFFFFFF#32

/-- 44_crc32.md R225, R227: CRC_CMP sets CRCOK exactly when the finished CRC is WDATA as a 32-bit pattern, which is when
the i32 `v` and the u32 `u` satisfy `u = v mod 2^32`; nothing else changes, and no other instruction but SOFT_RST changes CRCOK. -/
def Obligations.CrcCmpComparesPatterns : Prop :=
  ∀ s : State, ∃ t, exec .crcCmp s = .next t ∧ t = { s with crc := { s.crc with ok := t.crc.ok } }
    ∧ (t.crc.ok = true ↔ readReg .crcResult s = s.wdata)
    ∧ (t.crc.ok = true ↔ ((readReg .crcResult s).toNat : Int) = s.wdata.toInt % 2 ^ 32)
    ∧ ∀ (i : Instr) (u : State), exec i s = .next u → i ≠ .softRst → i ≠ .crcCmp → u.crc.ok = s.crc.ok

/-! ### Deframer commands -/

/-- 42_deframer.md R173: RX_RST in any state empties the deframer and clears its record, keeping RX_EXPECT and CTRL; the
buffer keeps its content. -/
def Obligations.RxRstEmptiesTheDeframer : Prop :=
  ∀ s : State, ∃ t, exec .rxRst s = .next t ∧ SameButRx s t
    ∧ t.rx = { s.rx with st := if s.ctrl.dgram then .accum else .hunt, cnt := 0, err := false, ovr := false,
                         code := .none, errcnt := 0#16, disc := 0#32 }
    ∧ (readReg .status t).extractLsb' 0 3 = 0#3 ∧ readReg .rxErr t = 0#32

/-- 42_deframer.md R177: RX_EXPECT sets the expected op code and nothing else; the verdict's op-code check takes it as it
is then (R171); a frame whose op code is an undefined one that is expected fails SHAPE, not OP. -/
def Obligations.RxExpectSetsTheExpectedOpcode : Prop :=
  ∀ (s : State) (b : Byte), ∃ t, exec (.rxExpect b) s = .next t ∧ t = { s with rx := { s.rx with expect := b } }
    ∧ readReg .rxExpect t = b.setWidth 32 ∧ (∀ r : Reg, r ≠ .rxExpect → readReg r t = readReg r s)
    ∧ (∀ op, opOk op t = true ↔ s.ctrl.anyop = true ∨ op = b ∨ op = 0xFF#8)
    ∧ (∀ n, 2 ≤ n → t.rx.buf.read 1 = b → opDefined b = false →
        t.rx.buf.read (n - 1) = sum8 (t.rx.buf.slice 0 (n - 1)) → verdictTail n t = .shape)

/-- 42_deframer.md R176: RX_ACK releases a held frame, after which every view and RXBUF read 0; outside READY it has no
effect and sets no error. -/
def Obligations.RxAckReleasesAHeldFrame : Prop :=
  ∀ s : State, ∃ t, exec .rxAck s = .next t
    ∧ (s.rx.st = .ready →
        t = { s with rx := { s.rx with st := if s.ctrl.dgram then .accum else .hunt, cnt := 0 } })
    ∧ (s.rx.st ≠ .ready → t = s)
    ∧ (readReg .status t).getLsbD 0 = false
    ∧ readReg .rxHdr t = 0#32 ∧ readReg .rxW0 t = 0#32 ∧ readReg .rxW1 t = 0#32 ∧ readReg .rxWt t = 0#32
    ∧ ∀ k, readReg (.rxbuf k) t = 0#32

/-- 42_deframer.md R164: in HUNT the sync byte starts a candidate and any other byte is discarded and counted; SYNCCHK has
no effect on a received byte, nor on RX_EOD in stream mode. -/
def Obligations.RxByteHuntsForTheSyncByte : Prop :=
  (∀ (s : State) (b : Byte), Inv s → s.rx.st = .hunt → ∃ t, exec (.rxByte b) s = .next t ∧ SameButRx s t
      ∧ (b = 0xE7#8 → t.rx = { s.rx with st := .hdr, cnt := 1, buf := t.rx.buf } ∧ t.rx.buf.read 0 = 0xE7#8
          ∧ ∀ a, a ≠ 0 → t.rx.buf.read a = s.rx.buf.read a)
      ∧ (b ≠ 0xE7#8 → t.rx = { s.rx with disc := t.rx.disc }
          ∧ t.rx.disc.toNat = min (s.rx.disc.toNat + 1) 0xFFFFFFFF))
    ∧ ∀ (s : State) (b : Byte) (c : Bool), Inv s → s.ctrl.dgram = false → ∀ i ∈ [Instr.rxByte b, Instr.rxEod],
        exec i (s.setCtrl { s.ctrl with syncchk := c }) =
          mapNext (fun t => t.setCtrl { s.ctrl with syncchk := c }) (exec i s)

/-- 42_deframer.md R162: in ACCUM a byte is stored while there is room, and the count saturates at 1035. -/
def Obligations.RxByteAccumulatesADatagram : Prop :=
  ∀ (s : State) (b : Byte), Inv s → s.rx.st = .accum → ∃ t, exec (.rxByte b) s = .next t ∧ SameButRx s t
    ∧ t.rx = { s.rx with cnt := min (s.rx.cnt + 1) 1035, buf := t.rx.buf }
    ∧ (s.rx.cnt < 1034 → t.rx.buf.read s.rx.cnt = b)
    ∧ ∀ a, (s.rx.cnt < 1034 → a ≠ s.rx.cnt) → t.rx.buf.read a = s.rx.buf.read a

/-- 42_deframer.md R168: in HDR a byte is stored; at the fifth the header checksum is tested, then the length. -/
def Obligations.RxByteChecksTheHeaderAtItsFifthByte : Prop :=
  ∀ (s : State) (b : Byte), Inv s → s.rx.st = .hdr → ∃ t, exec (.rxByte b) s = .next t ∧ SameButRx s t
    ∧ t.rx.buf.read s.rx.cnt = b ∧ (∀ a, a ≠ s.rx.cnt → t.rx.buf.read a = s.rx.buf.read a)
    ∧ (s.rx.cnt < 4 → t.rx = { s.rx with cnt := s.rx.cnt + 1, buf := t.rx.buf })
    ∧ (s.rx.cnt = 4 → b ≠ sum8 (s.rx.buf.slice 0 4) → Rejected .hcs 5 s t)
    ∧ (s.rx.cnt = 4 → b = sum8 (s.rx.buf.slice 0 4) →
        ((le16 (s.rx.buf.read 2) (s.rx.buf.read 3)).toNat < 1 ∨ 1029 < (le16 (s.rx.buf.read 2) (s.rx.buf.read 3)).toNat) →
        Rejected .len 5 s t)
    ∧ (s.rx.cnt = 4 → b = sum8 (s.rx.buf.slice 0 4) →
        1 ≤ (le16 (s.rx.buf.read 2) (s.rx.buf.read 3)).toNat → (le16 (s.rx.buf.read 2) (s.rx.buf.read 3)).toNat ≤ 1029 →
        t.rx = { s.rx with st := .body, cnt := 5, buf := t.rx.buf })

/-- 42_deframer.md R169, R170: in BODY a byte is stored; the tail checks run when the frame is complete, in the order
FCS, OP, SHAPE; the count never exceeds 1034. -/
def Obligations.RxByteRunsTheTailChecksOnTheLastByte : Prop :=
  ∀ (s : State) (b : Byte), Inv s → s.rx.st = .body → ∃ t, exec (.rxByte b) s = .next t ∧ SameButRx s t
    ∧ t.rx.buf.read s.rx.cnt = b ∧ (∀ a, a ≠ s.rx.cnt → t.rx.buf.read a = s.rx.buf.read a) ∧ t.rx.cnt ≤ 1034
    ∧ (s.rx.cnt + 1 ≠ 5 + (le16 (s.rx.buf.read 2) (s.rx.buf.read 3)).toNat →
        t.rx = { s.rx with cnt := s.rx.cnt + 1, buf := t.rx.buf })
    ∧ (s.rx.cnt + 1 = 5 + (le16 (s.rx.buf.read 2) (s.rx.buf.read 3)).toNat →
        (tailVerdict s.ctrl.anyop s.rx.expect (s.rx.buf.slice 0 s.rx.cnt ++ [b]) = .none →
          HoldsFrame (s.rx.buf.slice 0 s.rx.cnt ++ [b]) s t)
        ∧ (tailVerdict s.ctrl.anyop s.rx.expect (s.rx.buf.slice 0 s.rx.cnt ++ [b]) ≠ .none →
          Rejected (tailVerdict s.ctrl.anyop s.rx.expect (s.rx.buf.slice 0 s.rx.cnt ++ [b])) (s.rx.cnt + 1) s t))

/-- 42_deframer.md R174, 70_reset_and_hazards.md R285: while a frame is held a byte is dropped, RXOVR set and RX_DISC
counted; a whole datagram that arrives then is lost and the held frame stays. -/
def Obligations.BytesAreDroppedWhileAFrameIsHeld : Prop :=
  (∀ (s : State) (b : Byte), s.rx.st = .ready → ∃ t, exec (.rxByte b) s = .next t
      ∧ t = { s with rx := { s.rx with ovr := true, disc := t.rx.disc } }
      ∧ t.rx.disc.toNat = min (s.rx.disc.toNat + 1) 0xFFFFFFFF)
    ∧ (∀ (s : State) (d : List Byte) (rest : List Event), s.rx.st = .ready → d ≠ [] →
        ∃ t, step (s.setPending (.datagram d :: rest)) = .next t
          ∧ t.rx = { s.rx with ovr := true, disc := t.rx.disc }
          ∧ t.rx.disc.toNat = min (s.rx.disc.toNat + d.length) 0xFFFFFFFF
          ∧ rxFrame t = rxFrame s)

/-- 42_deframer.md R163, R175: RX_EOD in ACCUM takes the verdict on the bytes received, the first failing check in the
order SHORT, OVERSIZE, SYNC, HCS, LEN, FCS, OP, SHAPE; in any other state it has no effect. It stores nothing. -/
def Obligations.RxEodTakesTheDatagramVerdict : Prop :=
  ∀ s : State, Inv s → ∃ t, exec .rxEod s = .next t ∧ SameButRx s t ∧ t.rx.buf = s.rx.buf
    ∧ (s.rx.st ≠ .accum → t = s)
    ∧ (s.rx.st = .accum → s.rx.cnt = 1035 → Rejected .oversize 0 s t)
    ∧ (s.rx.st = .accum → s.rx.cnt ≤ 1034 →
        (frameVerdict s.ctrl.syncchk s.ctrl.anyop s.rx.expect (s.rx.buf.slice 0 s.rx.cnt) = .none →
          HoldsFrame (s.rx.buf.slice 0 s.rx.cnt) s t)
        ∧ (frameVerdict s.ctrl.syncchk s.ctrl.anyop s.rx.expect (s.rx.buf.slice 0 s.rx.cnt) ≠ .none →
          Rejected (frameVerdict s.ctrl.syncchk s.ctrl.anyop s.rx.expect (s.rx.buf.slice 0 s.rx.cnt)) 0 s t))

/-- 42_deframer.md R178: whenever no frame is held, the parsed views and every RXBUF word read 0. -/
def Obligations.ViewsReadZeroUnlessAFrameIsHeld : Prop :=
  ∀ s : State, s.rx.st ≠ .ready →
    readReg .rxHdr s = 0#32 ∧ readReg .rxW0 s = 0#32 ∧ readReg .rxW1 s = 0#32 ∧ readReg .rxWt s = 0#32
      ∧ ∀ k, readReg (.rxbuf k) s = 0#32

/-- 10_state.md R33, R34, R42; 42_deframer.md R180: a held frame of n bytes is what RXBUF, RX_HDR and RX_CNT show: byte i
is byte i mod 4 of word i div 4, and every byte past the frame reads 0. -/
def Obligations.RxbufShowsTheHeldFrame : Prop :=
  ∀ s : State, Inv s → s.rx.st = .ready →
    readReg .rxCnt s = BitVec.ofNat 32 (rxFrame s).length ∧ 6 ≤ (rxFrame s).length ∧ (rxFrame s).length ≤ 1034
      ∧ (readReg .rxHdr s).extractLsb' 0 8 = (rxFrame s).getD 0 0#8
      ∧ (readReg .rxHdr s).extractLsb' 8 8 = (rxFrame s).getD 1 0#8
      ∧ ((readReg .rxHdr s).extractLsb' 16 16).toNat = (rxFrame s).length - 5
      ∧ ∀ (k : Fin 259) (j : Nat), j < 4 →
          (readReg (.rxbuf k) s).extractLsb' (8 * j) 8 = (rxFrame s).getD (4 * k.val + j) 0#8

/-! ### Framer commands -/

/-- 43_framer.md R202: TX_BEGIN opens a new frame from any phase; TXERR and TXCODE are unchanged and TXBUF reads 0. -/
def Obligations.TxBeginOpensANewFrame : Prop :=
  ∀ (s : State) (b : Byte), ∃ t, exec (.txBegin b) s = .next t
    ∧ t = { s with tx := { s.tx with op := b, plen := 0, isOpen := true, rdy := false } }
    ∧ readReg .txFlen t = 0#32 ∧ (readReg .status t).getLsbD 3 = false ∧ (readReg .status t).getLsbD 8 = true
    ∧ ∀ k, readReg (.txbuf k) t = 0#32

/-- 43_framer.md R201, R203, R204, R205: TX_PUT, TX_PUTW and TX_PUTCRC append their bytes, all or none: STATE with no
frame open, OVF past 1028 bytes, each leaving everything but the error record; else the bytes stand at 5 + tx.plen on
and every other byte of the buffer is unchanged. -/
def Obligations.TxAppendsAreAllOrNothing : Prop :=
  ∀ (s : State) (i : Instr) (l : List Byte), Inv s →
    ((∃ b, i = .txPut b ∧ l = [b]) ∨ (i = .txPutw ∧ l = bytesLe32 s.wdata)
      ∨ (i = .txPutcrc ∧ l = bytesLe32 (s.crc.c ^^^ 0xFFFFFFFF#32))) →
    ∃ t, exec i s = .next t ∧ SameButTx s t
      ∧ (s.tx.isOpen = false → t.tx = { s.tx with err := true, code := .state })
      ∧ (s.tx.isOpen = true → 1028 < s.tx.plen + l.length → t.tx = { s.tx with err := true, code := .ovf })
      ∧ (s.tx.isOpen = true → s.tx.plen + l.length ≤ 1028 →
          t.tx = { s.tx with plen := s.tx.plen + l.length, buf := t.tx.buf }
            ∧ (∀ j, j < l.length → t.tx.buf.read (5 + s.tx.plen + j) = l.getD j 0#8)
            ∧ ∀ a, (a < 5 + s.tx.plen ∨ 5 + s.tx.plen + l.length ≤ a) → t.tx.buf.read a = s.tx.buf.read a)

/-- 43_framer.md R206: TX_END completes an open frame: header, checksums, TXRDY, TX_FLEN; the payload bytes and every byte
past the frame are unchanged; with no frame open only the error STATE is recorded. 10_state.md R43, R46: in every state
TXBUF shows the built frame, the encoding of its payload, 0 past it, and reads 0 whenever no frame is built. -/
def Obligations.TxEndCompletesTheFrame : Prop :=
  (∀ s : State, Inv s → ∃ t, exec .txEnd s = .next t ∧ SameButTx s t
      ∧ (s.tx.isOpen = false → t.tx = { s.tx with err := true, code := .state })
      ∧ (s.tx.isOpen = true →
          t.tx = { s.tx with isOpen := false, rdy := true, buf := t.tx.buf }
            ∧ readReg .txFlen t = BitVec.ofNat 32 (s.tx.plen + 6)
            ∧ t.tx.buf.read 0 = 0xE7#8 ∧ t.tx.buf.read 1 = s.tx.op
            ∧ (le16 (t.tx.buf.read 2) (t.tx.buf.read 3)).toNat = s.tx.plen + 1
            ∧ t.tx.buf.read 4 = sum8 (t.tx.buf.slice 0 4)
            ∧ t.tx.buf.read (5 + s.tx.plen) = sum8 (t.tx.buf.slice 0 (5 + s.tx.plen))
            ∧ ∀ a, 5 ≤ a → a ≠ 5 + s.tx.plen → t.tx.buf.read a = s.tx.buf.read a))
    ∧ (∀ s : State, s.tx.rdy = false → txFrame s = [] ∧ ∀ k, readReg (.txbuf k) s = 0#32)
    ∧ (∀ s : State, s.tx.rdy = true → (txFrame s).length = s.tx.plen + 6
        ∧ ∀ (k : Fin 259) (j : Nat), j < 4 →
            (readReg (.txbuf k) s).extractLsb' (8 * j) 8 = (txFrame s).getD (4 * k.val + j) 0#8)
    ∧ ∀ s : State, Inv s → (s.tx.isOpen = true → ∀ k, readReg (.txbuf k) s = 0#32)
        ∧ (s.tx.rdy = true → txFrame s = mkFrame s.tx.op (s.tx.buf.slice 5 s.tx.plen))

/-- 43_framer.md R207, R208: from any state of the invariant, TX_BEGIN, any payload of up to 1028 bytes and TX_END build
exactly the frame of 30_encoding.md R92, which depends on nothing but the op code and the bytes; no error is raised
whatever the op code, and TXBUF shows the frame. -/
def Obligations.BuiltFrameIsTheEncodingOfItsPayload : Prop :=
  ∀ (s : State) (op : Byte) (p : List Byte), Inv s → p.length ≤ 1028 →
    ∃ t, execAll (.txBegin op :: p.map .txPut ++ [.txEnd]) s = .next t ∧ SameButTx s t
      ∧ t.tx.rdy = true ∧ t.tx.err = s.tx.err ∧ txFrame t = mkFrame op p
      ∧ readReg .txFlen t = BitVec.ofNat 32 (p.length + 6)
      ∧ ∀ (k : Fin 259) (j : Nat), j < 4 →
          (readReg (.txbuf k) t).extractLsb' (8 * j) 8 = (mkFrame op p).getD (4 * k.val + j) 0#8

/-! ### The wire messages arrive -/

/-- 41_messages.md R132, R135, R139, R140, R141 (layout, shape and views): a message without payload arrives at an empty
deframer that takes its op code, in either mode. -/
def Obligations.MessagesWithoutPayloadAreReceived : Prop :=
  ∀ (s : State) (i : Instr) (op : Byte), Inv s → RxEmpty s → opOk op s = true →
    (i, op) ∈ ([(.versionRequest, 0x01#8), (.updateStartResponse, 0x04#8), (.writeResponse, 0x08#8),
      (.resetRequest, 0x09#8), (.resetResponse, 0x0A#8)] : List (Instr × Byte)) →
    ∃ t, exec i s = .next t
      ∧ HoldsFrame [0xE7#8, op, 0x01#8, 0x00#8, 0xE8#8 + op, 2#8 * (0xE8#8 + op)] s t ∧ OnlyReceived 6 s t
      ∧ readReg .rxW0 t = 0#32 ∧ readReg .rxW1 t = 0#32 ∧ readReg .rxWt t = 0#32

/-- 41_messages.md R134, R136, R137 (layout, shape and views): a message of one 32-bit field. -/
def Obligations.MessagesOfOneWordAreReceived : Prop :=
  ∀ (s : State) (v : Word) (i : Instr) (op : Byte), Inv s → RxEmpty s → opOk op s = true →
    (i, op) ∈ ([(.updateStartRequest v, 0x03#8), (.updateStopRequest v, 0x05#8), (.updateStopResponse v, 0x06#8)] :
      List (Instr × Byte)) →
    ∃ t, exec i s = .next t ∧ HoldsFrame (mkFrame op (bytesLe32 v)) s t ∧ OnlyReceived 10 s t
      ∧ readReg .rxW0 t = v ∧ readReg .rxW1 t = 0#32 ∧ readReg .rxWt t = v

/-- 41_messages.md R133 (layout, shape and views): a VersionResponse, its note any 128 bytes. -/
def Obligations.VersionResponseIsReceived : Prop :=
  ∀ (s : State) (a b c d e : Byte) (note : List Byte), Inv s → RxEmpty s → opOk 0x02#8 s = true → note.length = 128 →
    ∃ t, exec (.versionResponse a b c d e note) s = .next t
      ∧ HoldsFrame (mkFrame 0x02#8 ([a, b, c, d, e] ++ note)) s t ∧ OnlyReceived 139 s t
      ∧ readReg .rxW0 t = le32 a b c d
      ∧ readReg .rxW1 t = le32 e (note.getD 0 0#8) (note.getD 1 0#8) (note.getD 2 0#8)
      ∧ readReg .rxWt t = le32 (note.getD 124 0#8) (note.getD 125 0#8) (note.getD 126 0#8) (note.getD 127 0#8)

/-- 41_messages.md R138 (layout, shape and views): a WriteRequest of 0 to 1024 data bytes; data_crc is shown and not
checked. -/
def Obligations.WriteRequestIsReceived : Prop :=
  ∀ (s : State) (data : List Byte) (crc : Word), Inv s → RxEmpty s → opOk 0x07#8 s = true → data.length ≤ 1024 →
    ∃ t, exec (.writeRequest data crc) s = .next t
      ∧ HoldsFrame (mkFrame 0x07#8 (data ++ bytesLe32 crc)) s t ∧ OnlyReceived (data.length + 10) s t
      ∧ readReg .rxW0 t =
          le32 ((data ++ bytesLe32 crc).getD 0 0#8) ((data ++ bytesLe32 crc).getD 1 0#8)
            ((data ++ bytesLe32 crc).getD 2 0#8) ((data ++ bytesLe32 crc).getD 3 0#8)
      ∧ readReg .rxW1 t =
          le32 ((data ++ bytesLe32 crc).getD 4 0#8) ((data ++ bytesLe32 crc).getD 5 0#8)
            ((data ++ bytesLe32 crc).getD 6 0#8) ((data ++ bytesLe32 crc).getD 7 0#8)
      ∧ readReg .rxWt t = crc

/-- 41_messages.md R142 (layout, shape and views): a ReadAddressRequest. -/
def Obligations.ReadAddressRequestIsReceived : Prop :=
  ∀ (s : State) (a n : Word), Inv s → RxEmpty s → opOk 0x0B#8 s = true →
    ∃ t, exec (.readAddressRequest a n) s = .next t
      ∧ HoldsFrame (mkFrame 0x0B#8 (bytesLe32 a ++ bytesLe32 n)) s t ∧ OnlyReceived 14 s t
      ∧ readReg .rxW0 t = a ∧ readReg .rxW1 t = n ∧ readReg .rxWt t = n

/-- 41_messages.md R143 (layout, shape and views): a ReadAddressResponse of 0 to 1028 bytes. -/
def Obligations.ReadAddressResponseIsReceived : Prop :=
  ∀ (s : State) (data : List Byte), Inv s → RxEmpty s → opOk 0x0C#8 s = true → data.length ≤ 1028 →
    ∃ t, exec (.readAddressResponse data) s = .next t
      ∧ HoldsFrame (mkFrame 0x0C#8 data) s t ∧ OnlyReceived (data.length + 6) s t
      ∧ readReg .rxW0 t = le32 (data.getD 0 0#8) (data.getD 1 0#8) (data.getD 2 0#8) (data.getD 3 0#8)
      ∧ readReg .rxW1 t = le32 (data.getD 4 0#8) (data.getD 5 0#8) (data.getD 6 0#8) (data.getD 7 0#8)
      ∧ (data.length < 4 → readReg .rxWt t = 0#32)
      ∧ (4 ≤ data.length → readReg .rxWt t =
          le32 (data.getD (data.length - 4) 0#8) (data.getD (data.length - 3) 0#8) (data.getD (data.length - 2) 0#8)
            (data.getD (data.length - 1) 0#8))

/-- 41_messages.md R144, R145 (layout, shape and views): an ErrorResponse with any code byte is received whatever
RX_EXPECT holds. -/
def Obligations.ErrorResponseIsReceivedWhateverIsExpected : Prop :=
  ∀ (s : State) (code : Byte), Inv s → RxEmpty s →
    ∃ t, exec (.errorResponse code) s = .next t
      ∧ HoldsFrame [0xE7#8, 0xFF#8, 0x02#8, 0x00#8, 0xE8#8, code, 0xD0#8 + code] s t ∧ OnlyReceived 7 s t
      ∧ readReg .rxW0 t = code.setWidth 32 ∧ readReg .rxW1 t = 0#32 ∧ readReg .rxWt t = 0#32

/-- 42_deframer.md R166, R171: a message whose op code is neither expected nor ErrorResponse's is rejected with OP, in
either mode. -/
def Obligations.MessagesWithUnexpectedOpcodeAreRejected : Prop :=
  ∀ (s : State) (i : Instr) (d : List Byte), Inv s → RxEmpty s → i.wellFormed = true → encode i = .frame d →
    opOk (d.getD 1 0#8) s = false →
    ∃ t, exec i s = .next t ∧ Rejected .op d.length s t ∧ OnlyReceived d.length s t

/-- Log 4: the arrival of a datagram in one step of the model is the host's accesses RX_DGRAM of 30_encoding.md R104
served one by one: the same state, observations included. -/
def Obligations.DatagramStepIsItsAccessesOneByOne : Prop :=
  ∀ (s : State) (d : List Byte) (rest : List Event),
    Host.Core.run Sys2Proof.core (d.length + 1) (s.setPending (Line.expand (.rxDgram d) ++ rest)) =
      step (s.setPending (.datagram d :: rest))

/-! ### Headline results -/

/-- Every step keeps the invariant (10_state.md R44, R46; 42_deframer.md R163 to R172; 60_exceptions.md R262). -/
def Obligations.EveryStepKeepsInvariant : Prop :=
  ∀ s t : State, Inv s → step s = .next t → Inv t

/-- 42_deframer.md R181: a datagram fed to an empty deframer in datagram mode is accepted exactly when the source's decode
succeeds on it, and on failure the code names the first check that fails; with SYNCCHK the sync byte is tested too. The
decoder of messages agrees: it reads a message exactly from the datagrams that are accepted under some expected op code
and start with the sync byte. That a datagram arrives in one step is the model's choice (log 4). -/
def Obligations.DatagramVerdictAgreesWithTheSourceDecode : Prop :=
  (∀ (s : State) (d : List Byte) (rest : List Event), Inv s → s.rx.st = .accum → s.rx.cnt = 0 →
      ∃ t, step (s.setPending (.datagram d :: rest)) = .next t
        ∧ (frameVerdict s.ctrl.syncchk s.ctrl.anyop s.rx.expect d = .none → HoldsFrame d s t)
        ∧ (frameVerdict s.ctrl.syncchk s.ctrl.anyop s.rx.expect d ≠ .none →
            Rejected (frameVerdict s.ctrl.syncchk s.ctrl.anyop s.rx.expect d) d.length s t))
    ∧ (∀ d : List Byte, (∃ i, decodeFrame d = .ok i) ↔ frameVerdict true true 0x00#8 d = .none)
    ∧ (∀ (syncchk : Bool) (e : Byte) (d : List Byte),
        frameVerdict syncchk false e d = .none ↔
          frameVerdict syncchk true e d = .none ∧ (d.getD 1 0#8 = e ∨ d.getD 1 0#8 = 0xFF#8))

/-- 42_deframer.md R182: a frame built by the framer and fed to the deframer, in datagram or stream mode, with its op code
expected, is accepted, and RXBUF then equals TXBUF. -/
def Obligations.BuiltFramesAreReceivedUnchanged : Prop :=
  ∀ (s : State) (op : Byte) (p : List Byte), Inv s → RxEmpty s → shapeOk op p.length = true →
    ∃ t u, execAll (.rxExpect op :: .txBegin op :: p.map .txPut ++ [.txEnd]) s = .next t
      ∧ execAll ((txFrame t).map .rxByte ++ [.rxEod]) t = .next u
      ∧ u.rx.st = .ready ∧ rxFrame u = txFrame u ∧ txFrame u = mkFrame op p
      ∧ (∀ k : Fin 259, readReg (.rxbuf k) u = readReg (.txbuf k) u)
      ∧ u.rx.errcnt = s.rx.errcnt ∧ u.rx.disc = s.rx.disc

/-- 40_checksum.md R114: a frame with both checksums right and one bit flipped is never accepted. Datagram mode: SYNC for
a flip in byte 0 under SYNCCHK, else HCS for a flip in bytes 0..4, FCS for any other. Stream mode: a flip in byte 0 is
no candidate and is discarded; in bytes 1..4 HCS at the fifth byte; in any later byte FCS at the last. -/
def Obligations.NoSingleBitFlipIsAccepted : Prop :=
  ∀ (s : State) (d : List Byte) (k j : Nat) (f : List Byte), Inv s → RxEmpty s →
    6 ≤ d.length → d.length ≤ 1034 → d.getD 0 0#8 = 0xE7#8 → d.getD 4 0#8 = sum8 (d.take 4) →
    (le16 (d.getD 2 0#8) (d.getD 3 0#8)).toNat = d.length - 5 →
    d.getD (d.length - 1) 0#8 = sum8 (d.take (d.length - 1)) →
    k < d.length → j < 8 → f = d.set k (d.getD k 0#8 ^^^ (1#8 <<< j)) →
    (s.rx.st = .accum → ∃ t, execAll (f.map .rxByte ++ [.rxEod]) s = .next t
        ∧ Rejected (if k = 0 ∧ s.ctrl.syncchk = true then .sync else if k ≤ 4 then .hcs else .fcs) d.length s t)
      ∧ (s.rx.st = .hunt → k = 0 → ∃ t, exec (.rxByte (f.getD 0 0#8)) s = .next t
        ∧ t.rx = { s.rx with disc := t.rx.disc } ∧ t.rx.disc.toNat = min (s.rx.disc.toNat + 1) 0xFFFFFFFF)
      ∧ (s.rx.st = .hunt → 1 ≤ k → k ≤ 4 → ∃ t, execAll ((f.take 5).map .rxByte) s = .next t ∧ Rejected .hcs 5 s t)
      ∧ (s.rx.st = .hunt → 5 ≤ k → ∃ t, execAll (f.map .rxByte) s = .next t ∧ Rejected .fcs d.length s t)

/-- 42_deframer.md R179: after a reject in stream mode the deframer hunts from the byte after the one that caused it, and
the rejected candidate's bytes are not scanned again: the example E7 E7 01 01 00 E9 D2 loses the frame at byte 1. -/
def Obligations.StreamResyncDoesNotRescanTheCandidate : Prop :=
  (∀ (s : State) (b1 b2 b3 b4 : Byte), Inv s → s.rx.st = .hunt → b4 ≠ sum8 [0xE7#8, b1, b2, b3] →
      ∃ t, execAll (([0xE7#8, b1, b2, b3, b4] : List Byte).map .rxByte) s = .next t ∧ Rejected .hcs 5 s t
        ∧ t.rx.st = .hunt)
    ∧ (∀ s : State, Inv s → s.rx.st = .hunt → s.rx.disc.toNat + 2 ≤ 0xFFFFFFFF →
        ∃ t, execAll (([0xE7#8, 0xE7#8, 0x01#8, 0x01#8, 0x00#8, 0xE9#8, 0xD2#8] : List Byte).map .rxByte) s = .next t
          ∧ t.rx.st = .hunt ∧ t.rx.code = .hcs ∧ t.rx.disc.toNat = s.rx.disc.toNat + 2 ∧ t.rx.ovr = s.rx.ovr)

/-- 10_state.md R45; 93_implementation_defined.md I11: no observation depends on a stale buffer byte. Two states of the
invariant that differ at most there read the same in every register and step to two such states, with the same
observations recorded. -/
def Obligations.NoObservationDependsOnStaleBufferBytes : Prop :=
  ∀ s u : State, Inv s → Inv u → SameButStale s u →
    (∀ r : Reg, readReg r u = readReg r s) ∧ irq u = irq s
      ∧ (∀ t, step s = .next t → ∃ w, step u = .next w ∧ SameButStale t w)
      ∧ (∀ r, step s = .refused r → step u = .refused r)

/-- 40_checksum.md R115, 43_framer.md R209: the four units are independent: what a command of one does is the same
whatever the others hold (but for the CRC result that TX_PUTCRC takes), and it leaves them as they are. -/
def Obligations.UnitsAreIndependent : Prop :=
  ∀ (s : State) (b : Byte) (cs : Cs) (crc : Crc) (rx : Rx) (tx : Tx),
    (∀ i, i ∈ [Instr.csClr, .csAdd b, .csAddw, .csCmp b] →
        exec i (((s.setRx rx).setTx tx).setCrc crc) =
          mapNext (fun t => ((t.setRx rx).setTx tx).setCrc crc) (exec i s))
      ∧ (∀ i, i ∈ [Instr.crcInit, .crcByte b, .crcWord, .crcCmp] →
        exec i (((s.setRx rx).setTx tx).setCs cs) =
          mapNext (fun t => ((t.setRx rx).setTx tx).setCs cs) (exec i s))
      ∧ (∀ i, i ∈ [Instr.rxRst, .rxByte b, .rxEod, .rxAck, .rxExpect b] →
        exec i (((s.setTx tx).setCs cs).setCrc crc) =
          mapNext (fun t => ((t.setTx tx).setCs cs).setCrc crc) (exec i s))
      ∧ (∀ i, i ∈ [Instr.txBegin b, .txPut b, .txPutw, .txPutcrc, .txEnd] →
        exec i ((s.setRx rx).setCs cs) = mapNext (fun t => (t.setRx rx).setCs cs) (exec i s))
      ∧ (∀ i, i ∈ [Instr.txBegin b, .txPut b, .txPutw, .txEnd] →
        exec i (s.setCrc crc) = mapNext (fun t => t.setCrc crc) (exec i s))

/-- 60_exceptions.md R260: the FCU never stops: any number of steps over any admitted events, from any state, ends in a
state. What a step does once nothing is pending, and that a datagram and a hardware reset are one event each, are the
model's choices (logs 5, 4 and 6; the list of events itself is log 3). -/
def Obligations.AdmittedRunsNeverStop : Prop :=
  ∀ (n : Nat) (s : State), (∀ e ∈ s.pending, e.admitted = true) → ∃ t, Host.Core.run Sys2Proof.core n s = .next t

/-- 60_exceptions.md R262: error bits are sticky under every instruction but RX_RST (the RX bits) and SOFT_RST, and the
two event counts never go back or wrap. -/
def Obligations.RecordedErrorsAreSticky : Prop :=
  ∀ (i : Instr) (s t : State), exec i s = .next t → i ≠ .softRst →
    (s.tx.err = true → t.tx.err = true) ∧ (s.cmderr = true → t.cmderr = true)
      ∧ (i ≠ .rxRst → (s.rx.err = true → t.rx.err = true) ∧ (s.rx.ovr = true → t.rx.ovr = true)
          ∧ s.rx.errcnt.toNat ≤ t.rx.errcnt.toNat ∧ s.rx.disc.toNat ≤ t.rx.disc.toNat)
end

