-- ==== Sys2Proof/Laws/Bytes.lean ====
section
/-! SUPPORT. Byte order, the checksum, the CRC fold and the saturating increment. -/

namespace Sys2Proof.Machine

@[simp] theorem sum8_nil : sum8 [] = 0#8 := rfl

@[simp] theorem sum8_cons (b : Byte) (s : List Byte) : sum8 (b :: s) = b + sum8 s := rfl

@[simp] theorem sum8_append (s t : List Byte) : sum8 (s ++ t) = sum8 s + sum8 t := by
  induction s with
  | nil => simp
  | cons b s ih => simp [ih, BitVec.add_assoc]

@[simp] theorem bytesLe32_length (v : Word) : (bytesLe32 v).length = 4 := rfl

/-- A word is its four bytes (00_scope.md R9). -/
theorem le32_bytes (v : Word) :
    le32 (v.extractLsb' 0 8) (v.extractLsb' 8 8) (v.extractLsb' 16 8) (v.extractLsb' 24 8) = v := by
  unfold le32
  ext i hi
  simp only [BitVec.getElem_append, BitVec.getElem_extractLsb']
  split_ifs <;> rw [← BitVec.getLsbD_eq_getElem hi] <;> congr 1 <;> omega

/-- The bytes of a word are those it was made of. -/
theorem bytesLe32_le32 (b0 b1 b2 b3 : Byte) : bytesLe32 (le32 b0 b1 b2 b3) = [b0, b1, b2, b3] := by
  simp only [bytesLe32, le32, List.cons.injEq, and_true]
  refine ⟨?_, ?_, ?_, ?_⟩ <;> ext i hi <;>
    simp only [BitVec.getElem_extractLsb', BitVec.getLsbD_append] <;> split_ifs <;>
    first | omega | (rw [← BitVec.getLsbD_eq_getElem hi]; congr 1; omega)

theorem le16_toNat (b0 b1 : Byte) : (le16 b0 b1).toNat = b0.toNat + 256 * b1.toNat := by
  have h := b0.isLt
  simp only [le16, BitVec.toNat_append]
  rw [← Nat.shiftLeft_add_eq_or_of_lt h, Nat.shiftLeft_eq]
  omega

/-- The length field spells `plen + 1` (30_encoding.md R93). -/
theorem le16_lengthBytes (n : Nat) (h : n < 65535) :
    (le16 (BitVec.ofNat 8 (n + 1)) (BitVec.ofNat 8 ((n + 1) / 256))).toNat = n + 1 := by
  rw [le16_toNat]
  simp only [BitVec.toNat_ofNat]
  omega

/-- The saturating increment counts up and stops at all ones. -/
theorem satInc_toNat {w : Nat} (v : BitVec w) : (satInc v).toNat = min (v.toNat + 1) (2 ^ w - 1) := by
  have hv := v.isLt
  unfold satInc
  split
  · next h => subst h; simp
  · next h =>
    have hne : v.toNat ≠ 2 ^ w - 1 := fun e => h (BitVec.eq_of_toNat_eq (by simpa using e))
    have : 0 < 2 ^ w := Nat.two_pow_pos w
    rcases Nat.eq_zero_or_pos w with rfl | hw
    · simp at hne; omega
    · have h1 : (1 : BitVec w).toNat = 1 := by
        simp only [BitVec.ofNat_eq_ofNat, BitVec.toNat_ofNat]
        exact Nat.mod_eq_of_lt (Nat.one_lt_two_pow (by omega))
      rw [BitVec.toNat_add, h1, Nat.mod_eq_of_lt (by omega)]
      omega

/-- A saturating count is never back at zero. -/
theorem satInc_ne_zero {w : Nat} (hw : 0 < w) (v : BitVec w) : satInc v ≠ 0#w := by
  intro h
  have := congrArg BitVec.toNat h
  rw [satInc_toNat] at this
  have h2 : 1 < 2 ^ w := Nat.one_lt_two_pow (by omega)
  simp at this
  omega

@[simp] theorem crcBytes_nil (c : Word) : crcBytes c [] = c := rfl

@[simp] theorem crcBytes_cons (c : Word) (b : Byte) (s : List Byte) : crcBytes c (b :: s) = crcBytes (crcByte c b) s := rfl

@[simp] theorem crcBytes_append (c : Word) (s t : List Byte) : crcBytes c (s ++ t) = crcBytes (crcBytes c s) t := by
  simp [crcBytes]

end Sys2Proof.Machine
end

