-- ==== Sys2Proof/Laws/Wire.lean ====
section
/-! SUPPORT. The frame `mkFrame op p`, field by field, and the verdict on it. -/

namespace Sys2Proof.Machine

@[simp] theorem headerBytes_length (op : Byte) (n : Nat) : (headerBytes op n).length = 4 := rfl

@[simp] theorem frameBody_length (op : Byte) (p : List Byte) : (frameBody op p).length = p.length + 5 := by
  simp [frameBody]; omega

@[simp] theorem mkFrame_length (op : Byte) (p : List Byte) : (mkFrame op p).length = p.length + 6 := by
  simp [mkFrame]

/-- The frame is its body and the checksum of the body (40_checksum.md R112). -/
theorem mkFrame_take_body (op : Byte) (p : List Byte) : (mkFrame op p).take (p.length + 5) = frameBody op p := by
  simp [mkFrame]

@[simp] theorem mkFrame_last (op : Byte) (p : List Byte) :
    (mkFrame op p).getD (p.length + 5) 0#8 = sum8 (frameBody op p) := by
  simp [mkFrame, List.getD]

theorem mkFrame_header (op : Byte) (p : List Byte) : (mkFrame op p).take 4 = headerBytes op p.length := by
  rw [mkFrame, frameBody, List.append_assoc]
  exact List.take_left' rfl

@[simp] theorem mkFrame_sync (op : Byte) (p : List Byte) : (mkFrame op p).getD 0 0#8 = 0xE7#8 := rfl

@[simp] theorem mkFrame_op (op : Byte) (p : List Byte) : (mkFrame op p).getD 1 0#8 = op := rfl

@[simp] theorem mkFrame_hcs (op : Byte) (p : List Byte) :
    (mkFrame op p).getD 4 0#8 = sum8 (headerBytes op p.length) := rfl

theorem mkFrame_lengthField (op : Byte) (p : List Byte) (h : p.length ≤ 1028) :
    (le16 ((mkFrame op p).getD 2 0#8) ((mkFrame op p).getD 3 0#8)).toNat = p.length + 1 :=
  le16_lengthBytes p.length (by omega)

theorem mkFrame_payload (op : Byte) (p : List Byte) : ((mkFrame op p).take (p.length + 5)).drop 5 = p := by
  rw [mkFrame_take_body]; simp [frameBody, headerBytes, lengthBytes]

/-- A frame whose payload has a legal length passes every check up to the op code (42_deframer.md R163). -/
theorem frameVerdict_mkFrame (syncchk anyop : Bool) (e op : Byte) (p : List Byte) (h : p.length ≤ 1028) :
    frameVerdict syncchk anyop e (mkFrame op p) =
      if ¬(anyop = true ∨ op = e ∨ op = 0xFF#8) then .op
      else if shapeOk op p.length = false then .shape else .none := by
  have hl := mkFrame_lengthField op p h
  simp only [frameVerdict, tailVerdict, mkFrame_length, mkFrame_sync, mkFrame_op, mkFrame_hcs, mkFrame_header, hl,
    show p.length + 6 - 1 = p.length + 5 by omega, mkFrame_last, mkFrame_take_body,
    show p.length + 6 - 6 = p.length by omega, show p.length + 6 - 5 = p.length + 1 by omega,
    if_neg (show ¬ p.length + 6 < 6 by omega), if_neg (show ¬ 1034 < p.length + 6 by omega)]
  simp

end Sys2Proof.Machine
end

