-- ==== Sys2Proof/Laws/Decode.lean ====
section
/-! SUPPORT. The decoders and the encoder: a command word's fields, a sequence that passes the checks of a frame is the
frame of its op code and payload, and what decodes, encodes and has a legal shape is the same. -/

namespace Sys2Proof

open Machine

/-- The OPC of a command word (30_encoding.md R90). -/
theorem opcOf_commandWord (opc b : Byte) : opcOf (commandWord opc b) = opc := by
  unfold opcOf commandWord
  ext i hi
  simp only [BitVec.getElem_extractLsb', BitVec.getLsbD_append]
  rw [if_pos (by omega), ← BitVec.getLsbD_eq_getElem hi]
  congr 1; omega

/-- The byte operand of a command word (30_encoding.md R90). -/
theorem operandB_commandWord (opc b : Byte) : operandB (commandWord opc b) = b := by
  unfold operandB commandWord
  ext i hi
  simp only [BitVec.getElem_extractLsb', BitVec.getLsbD_append]
  rw [if_neg (by omega), if_pos (by omega), ← BitVec.getLsbD_eq_getElem hi]
  congr 1; omega

/-- A frame passes every check, and its payload decides (30_encoding.md R92). -/
theorem decodeFrame_mkFrame (op : Byte) (p : List Byte) (h : p.length ≤ 1028) :
    decodeFrame (mkFrame op p) = decodePayload op p := by
  have hl := mkFrame_lengthField op p h
  unfold decodeFrame Config.minFrame Config.maxFrame Config.sync
  rw [if_neg (by simp), if_neg (by simp; omega), if_neg (by rw [mkFrame_sync]; simp),
    if_neg (by rw [mkFrame_hcs, mkFrame_header]; simp),
    if_neg (by rw [hl]; simp)]
  rw [mkFrame_length, show p.length + 6 - 1 = p.length + 5 by omega, mkFrame_last, mkFrame_take_body,
    if_neg (by simp), mkFrame_op, ← mkFrame_take_body, mkFrame_payload]

/-- A sequence that passes the checks of a frame is the frame of its op code and payload. -/
theorem eq_mkFrame {d : List Byte} (h6 : 6 ≤ d.length) (hn : d.length ≤ 1034) (h0 : d.getD 0 0#8 = 0xE7#8)
    (hh : d.getD 4 0#8 = sum8 (d.take 4)) (hL : (le16 (d.getD 2 0#8) (d.getD 3 0#8)).toNat = d.length - 5)
    (hf : d.getD (d.length - 1) 0#8 = sum8 (d.take (d.length - 1))) :
    d = mkFrame (d.getD 1 0#8) ((d.take (d.length - 1)).drop 5) := by
  match d, h6 with
  | b0 :: b1 :: b2 :: b3 :: b4 :: b5 :: rest, _ =>
  obtain ⟨p, last, hp⟩ : ∃ (p : List Byte) (last : Byte), b5 :: rest = p ++ [last] :=
    ⟨(b5 :: rest).dropLast, (b5 :: rest).getLast (by simp), (List.dropLast_append_getLast _).symm⟩
  have hpl : p.length = rest.length := by
    have := congrArg List.length hp
    simp at this; omega
  rw [hp] at hf ⊢
  simp only [List.getD_cons_zero, List.getD_cons_succ, List.length_cons] at h0 hh hL hn
  have hlen : (b0 :: b1 :: b2 :: b3 :: b4 :: (p ++ [last])).length = p.length + 6 := by simp
  have ht : (b0 :: b1 :: b2 :: b3 :: b4 :: (p ++ [last])).take (p.length + 5) = b0 :: b1 :: b2 :: b3 :: b4 :: p := by
    simp
  rw [hlen, show p.length + 6 - 1 = p.length + 5 by omega, ht] at hf ⊢
  have hlast : (b0 :: b1 :: b2 :: b3 :: b4 :: (p ++ [last])).getD (p.length + 5) 0#8 = last := by
    simp [List.getD]
  rw [hlast] at hf
  simp only [List.getD_cons_zero, List.getD_cons_succ, List.drop_succ_cons, List.drop_zero]
  have hb : [b2, b3] = lengthBytes p.length := by
    rw [le16_toNat] at hL
    have := b2.isLt
    have := b3.isLt
    unfold lengthBytes
    simp only [List.cons.injEq, and_true]
    constructor <;> apply BitVec.eq_of_toNat_eq <;> simp only [BitVec.toNat_ofNat] <;> omega
  have hhead : headerBytes b1 p.length = [b0, b1, b2, b3] := by
    rw [headerBytes, ← hb, h0]; rfl
  have hbody : frameBody b1 p = b0 :: b1 :: b2 :: b3 :: b4 :: p := by
    rw [frameBody, hhead]
    simp only [List.cons_append, List.nil_append, List.cons.injEq, true_and, and_true]
    exact hh.symm
  rw [mkFrame, hbody, hf]
  rfl

/-- What a byte sequence that decodes looks like. -/
theorem decodeFrame_ok {d : List Byte} {i : Instr} (h : decodeFrame d = .ok i) :
    ∃ op p, p.length ≤ 1028 ∧ d = mkFrame op p ∧ decodePayload op p = .ok i := by
  unfold decodeFrame Config.minFrame Config.maxFrame Config.sync at h
  split_ifs at h with h1 h2 h3 h4 h5 h6
  refine ⟨_, _, ?_, eq_mkFrame (by omega) (by omega) (by simpa using h3) (by simpa using h4) (by simpa using h5)
    (by simpa using h6), h⟩
  simp; omega


/-- What a payload that decodes encodes to; its shape is legal (41_messages.md R147). -/
theorem decodePayload_ok {op : Byte} {p : List Byte} {i : Instr} (hp : p.length ≤ 1028) (h : decodePayload op p = .ok i) :
    i.wellFormed = true ∧ encode i = .frame (mkFrame op p) ∧ shapeOk op p.length = true := by
  unfold decodePayload at h
  have hnone : ∀ j : Instr, payloadNone j p = .ok i → i = j ∧ p = [] := by
    intro j hj
    unfold payloadNone at hj
    split at hj
    · exact ⟨(Except.ok.inj hj).symm, rfl⟩
    · cases hj
  have hword : ∀ (q : List Byte) (f : Word → Instr), payloadWord f q = .ok i → ∃ v, i = f v ∧ q = bytesLe32 v := by
    intro q f hj
    unfold payloadWord at hj
    split at hj
    · exact ⟨_, (Except.ok.inj hj).symm, (bytesLe32_le32 _ _ _ _).symm⟩
    · cases hj
  split at h
  · obtain ⟨rfl, rfl⟩ := hnone _ h; exact ⟨rfl, rfl, rfl⟩
  · unfold payloadVersion at h
    split at h
    · split_ifs at h with hn
      cases h
      refine ⟨by simp [Instr.wellFormed, hn], rfl, ?_⟩
      simp [hn, Config.noteLen]; decide
    · cases h
  · obtain ⟨v, rfl, rfl⟩ := hword _ _ h; exact ⟨rfl, rfl, rfl⟩
  · obtain ⟨rfl, rfl⟩ := hnone _ h; exact ⟨rfl, rfl, rfl⟩
  · obtain ⟨v, rfl, rfl⟩ := hword _ _ h; exact ⟨rfl, rfl, rfl⟩
  · obtain ⟨v, rfl, rfl⟩ := hword _ _ h; exact ⟨rfl, rfl, rfl⟩
  · unfold payloadWrite at h
    split_ifs at h with hm
    obtain ⟨v, rfl, hq⟩ := hword _ _ h
    have hl := congrArg List.length hq
    have heq : p.take (p.length - 4) ++ bytesLe32 v = p := by rw [← hq, List.take_append_drop]
    simp only [List.length_drop, bytesLe32_length] at hl
    refine ⟨?_, ?_, ?_⟩
    · simp only [Instr.wellFormed, List.length_take, decide_eq_true_eq]; omega
    · simp only [encode, heq]
    · simp [shapeOk, wireTable]; omega
  · obtain ⟨rfl, rfl⟩ := hnone _ h; exact ⟨rfl, rfl, rfl⟩
  · obtain ⟨rfl, rfl⟩ := hnone _ h; exact ⟨rfl, rfl, rfl⟩
  · obtain ⟨rfl, rfl⟩ := hnone _ h; exact ⟨rfl, rfl, rfl⟩
  · unfold payloadRead at h
    split at h
    · cases h
      refine ⟨rfl, ?_, rfl⟩
      simp only [encode, bytesLe32_le32]; rfl
    · cases h
  · unfold payloadData at h
    split_ifs at h with hm
    cases h
    refine ⟨by simp [Instr.wellFormed, hm], rfl, ?_⟩
    simp [shapeOk, wireTable, hp]
  · unfold payloadError at h
    split at h
    · cases h; exact ⟨rfl, rfl, rfl⟩
    · cases h
  · cases h

/-- What decodes is what a legal shape allows. -/
theorem decodePayload_isOk {op : Byte} {p : List Byte} (h : shapeOk op p.length = true) :
    ∃ i, decodePayload op p = .ok i := by
  unfold shapeOk at h
  simp only [wireTable, List.any_cons, List.any_nil, Bool.or_eq_true, Bool.and_eq_true, beq_iff_eq, decide_eq_true_eq,
    Bool.or_false] at h
  have hz : p.length ≤ 0 → p = [] := fun h => List.length_eq_zero_iff.1 (by omega)
  have h4 : ∀ q : List Byte, q.length = 4 → ∃ a b c d, q = [a, b, c, d] := by
    intro q hq
    match q, hq with
    | [a, b, c, d], _ => exact ⟨a, b, c, d, rfl⟩
  rcases h with h | h | h | h | h | h | h | h | h | h | h | h | h <;> obtain ⟨⟨rfl, h1⟩, h2⟩ := h
  · rw [hz h2]; exact ⟨_, rfl⟩
  · match p, h1, h2 with
    | b0 :: b1 :: b2 :: b3 :: b4 :: note, h1, h2 =>
      refine ⟨.versionResponse b0 b1 b2 b3 b4 note, ?_⟩
      simp only [List.length_cons] at h1 h2
      simp only [decodePayload, payloadVersion]
      have hn : note.length = Config.noteLen := by unfold Config.noteLen; omega
      rw [if_pos hn]
  · obtain ⟨a, b, c, d, rfl⟩ := h4 p (by omega); exact ⟨_, rfl⟩
  · rw [hz h2]; exact ⟨_, rfl⟩
  · obtain ⟨a, b, c, d, rfl⟩ := h4 p (by omega); exact ⟨_, rfl⟩
  · obtain ⟨a, b, c, d, rfl⟩ := h4 p (by omega); exact ⟨_, rfl⟩
  · obtain ⟨a, b, c, d, hq⟩ := h4 (p.drop (p.length - 4)) (by simp; omega)
    refine ⟨.writeRequest (p.take (p.length - 4)) (le32 a b c d), ?_⟩
    simp only [decodePayload, payloadWrite]
    rw [if_neg (by unfold Config.maxData; omega), hq]; rfl
  · rw [hz h2]; exact ⟨_, rfl⟩
  · rw [hz h2]; exact ⟨_, rfl⟩
  · rw [hz h2]; exact ⟨_, rfl⟩
  · match p, h1, h2 with
    | [b0, b1, b2, b3, b4, b5, b6, b7], _, _ => exact ⟨_, rfl⟩
  · refine ⟨.readAddressResponse p, ?_⟩
    simp only [decodePayload, payloadData]
    rw [if_pos (show p.length ≤ Config.maxPayload from h2)]
  · match p, h1, h2 with
    | [b], _, _ => exact ⟨_, rfl⟩

/-- The frame of a well-formed message. -/
theorem encode_frame {i : Instr} {d : List Byte} (hw : i.wellFormed = true) (h : encode i = .frame d) :
    ∃ op p, p.length ≤ 1028 ∧ d = mkFrame op p ∧ shapeOk op p.length = true ∧ decodePayload op p = .ok i := by
  have hword : ∀ (v : Word) (f : Word → Instr), payloadWord f (bytesLe32 v) = .ok (f v) := by
    intro v f
    simp only [bytesLe32, payloadWord, le32_bytes]
  cases i <;> simp only [encode, reduceCtorEq] at h <;> cases h
  case versionResponse a b c d e note =>
    have hn : note.length = Config.noteLen := by simpa [Instr.wellFormed] using hw
    have hl : (versionPayload a b c d e note).length = 133 := by simp [versionPayload, hn, Config.noteLen]
    refine ⟨_, _, by omega, rfl, by rw [hl]; rfl, ?_⟩
    simp only [decodePayload, payloadVersion, versionPayload]
    rw [if_pos hn]
  case writeRequest data crc =>
    have hd : data.length ≤ Config.maxData := by simpa [Instr.wellFormed] using hw
    have hd' : data.length ≤ 1024 := hd
    refine ⟨_, _, by simp; omega, rfl, by simp [shapeOk, wireTable]; omega, ?_⟩
    simp only [decodePayload, payloadWrite, List.length_append, bytesLe32_length, Nat.add_sub_cancel]
    rw [if_neg (by omega), List.take_left' rfl, List.drop_left' rfl, hword]
  case readAddressResponse data =>
    have hd : data.length ≤ Config.maxPayload := by simpa [Instr.wellFormed] using hw
    have hd' : data.length ≤ 1028 := hd
    refine ⟨_, _, hd', rfl, by simp [shapeOk, wireTable]; omega, ?_⟩
    simp only [decodePayload, payloadData]
    rw [if_pos hd]
  case updateStartRequest v => exact ⟨_, _, by simp, rfl, rfl, hword v _⟩
  case updateStopRequest v => exact ⟨_, _, by simp, rfl, rfl, hword v _⟩
  case updateStopResponse v => exact ⟨_, _, by simp, rfl, rfl, hword v _⟩
  case readAddressRequest a n =>
    refine ⟨_, _, by simp, rfl, rfl, ?_⟩
    simp only [decodePayload, bytesLe32, List.cons_append, List.nil_append, payloadRead, le32_bytes]
  all_goals exact ⟨_, _, by simp, rfl, rfl, rfl⟩

end Sys2Proof
end

