-- ==== Sys2Proof/Laws/Memory.lean ====
section
/-! SUPPORT. The laws of a frame buffer: every write keeps the canonical form, a read after a write, and a byte
sequence read back. -/

namespace Sys2Proof.Machine

theorem Memory.wfFrom_cons {lo a : Nat} {b : Byte} {m : Memory} :
    Memory.wfFrom lo ((a, b) :: m) = true ↔
      lo ≤ a ∧ a < Config.maxFrame ∧ b ≠ Memory.unlisted ∧ Memory.wfFrom (a + 1) m = true := by
  simp [Memory.wfFrom, and_assoc]

theorem Memory.wfFrom_mono {lo lo' : Nat} {m : Memory} (h : Memory.wfFrom lo m = true) (hl : lo' ≤ lo) :
    Memory.wfFrom lo' m = true := by
  cases m with
  | nil => rfl
  | cons c m =>
    obtain ⟨a, b⟩ := c
    rw [Memory.wfFrom_cons] at h ⊢
    exact ⟨by omega, h.2⟩

/-- Below the first listed address a buffer in canonical form reads the unlisted byte. -/
theorem Memory.read_below {lo i : Nat} {m : Memory} (h : Memory.wfFrom lo m = true) (hi : i < lo) :
    m.read i = Memory.unlisted := by
  induction m generalizing lo with
  | nil => rfl
  | cons c m ih =>
    obtain ⟨a, b⟩ := c
    obtain ⟨ha, -, -, hm⟩ := Memory.wfFrom_cons.1 h
    have : i ≠ a := by omega
    simp [Memory.read, this, ih hm (by omega)]

theorem Memory.put_wfFrom {lo i : Nat} {m : Memory} (v : Byte) (h : Memory.wfFrom lo m = true) (hi : lo ≤ i)
    (hb : i < Config.maxFrame) : Memory.wfFrom lo (m.put i v) = true := by
  induction m generalizing lo with
  | nil =>
    unfold Memory.put
    split
    · rfl
    · next hv => exact Memory.wfFrom_cons.2 ⟨hi, hb, hv, rfl⟩
  | cons c m ih =>
    obtain ⟨a, b⟩ := c
    obtain ⟨ha, hab, hbv, hm⟩ := Memory.wfFrom_cons.1 h
    unfold Memory.put
    split_ifs with h1 h2 h3 h4
    · exact h
    · exact Memory.wfFrom_cons.2 ⟨hi, hb, h2, Memory.wfFrom_cons.2 ⟨by omega, hab, hbv, hm⟩⟩
    · exact Memory.wfFrom_mono hm (by omega)
    · exact Memory.wfFrom_cons.2 ⟨hi, hb, h4, h3 ▸ hm⟩
    · exact Memory.wfFrom_cons.2 ⟨ha, hab, hbv, ih hm (by omega)⟩

theorem Memory.read_put {lo i : Nat} {m : Memory} (v : Byte) (h : Memory.wfFrom lo m = true) (hi : lo ≤ i) (j : Nat) :
    (m.put i v).read j = if j = i then v else m.read j := by
  induction m generalizing lo with
  | nil =>
    unfold Memory.put
    split_ifs with hv hj hj <;> simp_all [Memory.read]
  | cons c m ih =>
    obtain ⟨a, b⟩ := c
    obtain ⟨ha, hab, hbv, hm⟩ := Memory.wfFrom_cons.1 h
    have hlow : ∀ k, k < a + 1 → Memory.read m k = Memory.unlisted := fun k hk => Memory.read_below hm hk
    unfold Memory.put
    by_cases h1 : i < a
    · rw [if_pos h1]
      by_cases hv : v = Memory.unlisted
      · rw [if_pos hv]
        by_cases hj : j = i
        · have : j ≠ a := by omega
          rw [if_pos hj, Memory.read, if_neg this, hlow j (by omega), hv]
        · rw [if_neg hj]
      · rw [if_neg hv]; simp [Memory.read]
    · rw [if_neg h1]
      by_cases h2 : i = a
      · rw [if_pos h2]
        by_cases hv : v = Memory.unlisted
        · rw [if_pos hv]
          by_cases hj : j = i
          · rw [if_pos hj, hlow j (by omega), hv]
          · rw [if_neg hj, Memory.read, if_neg (by omega)]
        · rw [if_neg hv]
          by_cases hj : j = i
          · simp [Memory.read, hj]
          · have : j ≠ a := by omega
            simp [Memory.read, hj, this]
      · rw [if_neg h2]
        by_cases hj : j = a
        · have : ¬ j = i := by omega
          simp [Memory.read, hj]
          intro e
          omega
        · simp only [Memory.read, if_neg hj]
          exact ih hm (by omega)

/-- Every write keeps the canonical form. -/
theorem Memory.write_wf {m : Memory} (i : Nat) (v : Byte) (h : m.wf = true) : (m.write i v).wf = true := by
  unfold Memory.write
  split
  · next hb => exact Memory.put_wfFrom v h (by omega) hb
  · exact h

/-- A read after a write, in a buffer of canonical form. -/
theorem Memory.read_write {m : Memory} (i : Nat) (v : Byte) (h : m.wf = true) (j : Nat) :
    (m.write i v).read j = if j = i ∧ i < Config.maxFrame then v else m.read j := by
  unfold Memory.write
  by_cases hb : i < Config.maxFrame
  · rw [if_pos hb, Memory.read_put v h (by omega)]; simp [hb]
  · simp [hb]

theorem Memory.read_write_same {m : Memory} {i : Nat} (v : Byte) (h : m.wf = true) (hb : i < Config.maxFrame) :
    (m.write i v).read i = v := by
  simp [Memory.read_write i v h, hb]

theorem Memory.read_write_ne {m : Memory} {i j : Nat} (v : Byte) (h : m.wf = true) (hj : j ≠ i) :
    (m.write i v).read j = m.read j := by
  simp [Memory.read_write i v h, hj]

/-- Writing a sequence keeps the canonical form. -/
theorem Memory.writeList_wf {m : Memory} (i : Nat) (s : List Byte) (h : m.wf = true) : (m.writeList i s).wf = true := by
  induction s generalizing m i with
  | nil => exact h
  | cons b s ih => exact ih _ (Memory.write_wf i b h)

/-- A read after a sequence is written inside the buffer. -/
theorem Memory.read_writeList {m : Memory} (i : Nat) (s : List Byte) (h : m.wf = true)
    (hb : i + s.length ≤ Config.maxFrame) (j : Nat) :
    (m.writeList i s).read j = if i ≤ j ∧ j < i + s.length then s.getD (j - i) 0#8 else m.read j := by
  induction s generalizing m i with
  | nil => simp [Memory.writeList]
  | cons b s ih =>
    simp only [List.length_cons] at hb ⊢
    rw [Memory.writeList, ih (i + 1) (Memory.write_wf i b h) (by omega), Memory.read_write i b h]
    by_cases hj : j = i
    · subst hj
      have : j < Config.maxFrame := by omega
      simp [this]
    · by_cases hl : i + 1 ≤ j ∧ j < i + 1 + s.length
      · rw [if_pos hl, if_pos (by omega)]
        obtain ⟨k, rfl⟩ : ∃ k, j = i + 1 + k := ⟨j - (i + 1), by omega⟩
        rw [show i + 1 + k - (i + 1) = k by omega, show i + 1 + k - i = k + 1 by omega]
        simp
      · rw [if_neg hl, if_neg (by simp [hj]), if_neg (by omega)]

@[simp] theorem Memory.slice_length (m : Memory) (lo n : Nat) : (m.slice lo n).length = n := by
  simp [Memory.slice]

theorem Memory.getD_slice (m : Memory) (lo n i : Nat) (h : i < n) : (m.slice lo n).getD i 0#8 = m.read (lo + i) := by
  simp [Memory.slice, List.getD, h]

theorem Memory.slice_succ (m : Memory) (lo n : Nat) : m.slice lo (n + 1) = m.slice lo n ++ [m.read (lo + n)] := by
  simp [Memory.slice, List.range_succ]

theorem Memory.slice_congr {m m' : Memory} {lo n : Nat} (h : ∀ i, i < n → m.read (lo + i) = m'.read (lo + i)) :
    m.slice lo n = m'.slice lo n := by
  simp only [Memory.slice]
  apply List.map_congr_left
  intro i hi
  exact h i (List.mem_range.1 hi)

/-- A slice is the list whose bytes it reads. -/
theorem Memory.slice_eq {m : Memory} {lo : Nat} {s : List Byte} (h : ∀ i, i < s.length → m.read (lo + i) = s.getD i 0#8) :
    m.slice lo s.length = s := by
  apply List.ext_getElem
  · simp
  · intro i h1 h2
    have := h i h2
    simp [Memory.slice, this, List.getD, h2]

theorem Memory.slice_take (m : Memory) (lo : Nat) {n k : Nat} (h : k ≤ n) : (m.slice lo n).take k = m.slice lo k := by
  simp [Memory.slice, ← List.map_take, List.take_range, Nat.min_eq_left h]

/-- A slice from 0 is the slice of the first bytes, then the rest. -/
theorem Memory.slice_add (m : Memory) (lo n k : Nat) : m.slice lo (n + k) = m.slice lo n ++ m.slice (lo + n) k := by
  induction k with
  | zero => simp [Memory.slice]
  | succ k ih => rw [← Nat.add_assoc, Memory.slice_succ, Memory.slice_succ, ih, List.append_assoc, Nat.add_assoc]

/-- What was just written reads back as the sequence. -/
theorem Memory.slice_writeList {m : Memory} (i : Nat) (s : List Byte) (h : m.wf = true)
    (hb : i + s.length ≤ Config.maxFrame) : (m.writeList i s).slice i s.length = s := by
  apply Memory.slice_eq
  intro j hj
  rw [Memory.read_writeList i s h hb, if_pos (by omega)]
  congr 1; omega

end Sys2Proof.Machine
end

