-- ==== Sys2Proof/Laws/Registers.lean ====
section
/-! SUPPORT. The register map and the bits of CTRL and STATUS, one lemma each, so that no proof unfolds a register's word. -/

namespace Sys2Proof.Machine

/-- Every bit of STATUS (10_state.md R24); the bits not named are reserved and read 0. -/
theorem statusWord_bit (s : State) (i : Nat) :
    (statusWord s).getLsbD i =
      match i with
      | 0 => rxRdy s
      | 1 => s.rx.err
      | 2 => s.rx.ovr
      | 3 => s.tx.rdy
      | 4 => s.tx.err
      | 5 => s.cmderr
      | 6 => s.cs.ok
      | 7 => s.crc.ok
      | 8 => s.tx.isOpen
      | 12 => s.rx.st.bits.getLsbD 0
      | 13 => s.rx.st.bits.getLsbD 1
      | 14 => s.rx.st.bits.getLsbD 2
      | 15 => irq s
      | _ => false := by
  unfold statusWord
  simp only [BitVec.getLsbD_append, BitVec.getLsbD_ofBool]
  match i with
  | 0 | 1 | 2 | 3 | 4 | 5 | 6 | 7 | 8 | 9 | 10 | 11 | 12 | 13 | 14 | 15 => simp
  | n + 16 =>
    simp
/-- STATUS.RXST (10_state.md R44). -/
theorem statusWord_rxst (s : State) : (statusWord s).extractLsb' 12 3 = s.rx.st.bits := by
  ext i hi
  rw [BitVec.getElem_extractLsb', statusWord_bit, ← BitVec.getLsbD_eq_getElem hi]
  interval_cases i <;> rfl

/-- Byte `j` of a little-endian word (20_memory.md R73). -/
theorem le32_byte (a b c d : Byte) {j : Nat} (h : j < 4) :
    (le32 a b c d).extractLsb' (8 * j) 8 = ([a, b, c, d] : List Byte).getD j 0#8 := by
  have := bytesLe32_le32 a b c d
  simp only [bytesLe32, List.cons.injEq, and_true] at this
  obtain ⟨h0, h1, h2, h3⟩ := this
  interval_cases j
  · exact h0
  · exact h1
  · exact h2
  · exact h3

/-- Every register is in the space (20_memory.md R70). -/
theorem Reg.offset_lt (r : Reg) : r.offset < 0x4000 := by
  cases r <;> simp only [Reg.offset] <;> omega

/-- Every register is aligned. -/
theorem Reg.offset_aligned (r : Reg) : r.offset % 4 = 0 := by
  cases r <;> simp only [Reg.offset] <;> omega

/-- The register at a register's offset is that register. -/
@[simp] theorem regAt_offset (r : Reg) : regAt r.offset = some r := by
  cases r
  case rxbuf k =>
    have := k.isLt
    unfold regAt Reg.offset
    simp only
    rw [if_neg (by omega), if_pos (by omega), dif_pos (by omega)]
    congr 2; ext; simp
  case txbuf k =>
    have := k.isLt
    unfold regAt Reg.offset
    simp only
    rw [if_neg (by omega), if_neg (by omega), dif_pos (by omega)]
    congr 2; ext; simp
  all_goals rfl

/-- An offset names at most one register. -/
theorem regAt_some {off : Nat} {r : Reg} (h4 : off % 4 = 0) (h : regAt off = some r) : r.offset = off := by
  unfold regAt at h
  split_ifs at h with h1 h2 h3 h3
  · obtain ⟨k, rfl⟩ : ∃ k, off = 4 * k := ⟨off / 4, by omega⟩
    rw [Nat.mul_div_cancel_left k (by decide)] at h
    have hk : k < 19 := by
      by_contra hc
      rw [List.getElem?_eq_none (by simp [lowRegs]; omega)] at h
      cases h
    interval_cases k <;> (simp [lowRegs] at h; subst h; rfl)
  · cases h
    simp only [Reg.offset]; omega
  · cases h
    simp only [Reg.offset]; omega

/-- The mapped offsets (20_memory.md R72). -/
theorem regAt_isSome {off : Nat} (h4 : off % 4 = 0) :
    (regAt off).isSome = true ↔ off ≤ 0x048 ∨ (0x1000 ≤ off ∧ off ≤ 0x1408) ∨ (0x2000 ≤ off ∧ off ≤ 0x2408) := by
  unfold regAt
  split_ifs with h1 h2 h3 h3
  · simp [lowRegs]; omega
  all_goals simp; omega

/-- What a write of CTRL stores is what a read returns (10_state.md R22, R23). -/
theorem Ctrl.toWord_ofWord (v : Word) : (Ctrl.ofWord v).toWord = v &&& 0x0000003F#32 := by
  apply BitVec.eq_of_getLsbD_eq
  intro i hi
  simp only [Ctrl.toWord, Ctrl.ofWord, BitVec.getLsbD_append, BitVec.getLsbD_ofBool, BitVec.getLsbD_and]
  interval_cases i <;> simp

/-- The upper half of a little-endian word (10_state.md R33). -/
theorem le32_high (a b c d : Byte) : (le32 a b c d).extractLsb' 16 16 = le16 c d := by
  apply BitVec.eq_of_getLsbD_eq
  intro i hi
  simp only [le32, le16, BitVec.getLsbD_extractLsb', BitVec.getLsbD_append, hi, decide_true, Bool.true_and]
  split_ifs <;> first | omega | (congr 1; omega)

/-- Byte `4k + j` of a window is byte `j` of its word `k` (20_memory.md R73). -/
theorem window_byte (f : Nat → Byte) (k : Nat) {j : Nat} (hj : j < 4) :
    (le32 (f (4 * k)) (f (4 * k + 1)) (f (4 * k + 2)) (f (4 * k + 3))).extractLsb' (8 * j) 8 = f (4 * k + j) := by
  rw [le32_byte _ _ _ _ hj]
  interval_cases j <;> rfl

/-- The views and the receive window read 0 with no frame held (42_deframer.md R178). -/
theorem rxViews_of_not_ready {s : State} (h : s.rx.st ≠ .ready) :
    (∀ i, rxPayload s i = 0#8) ∧ (∀ i, rxByteAt s i = 0#8) ∧ rxHdrWord s = 0#32 ∧ rxTailWord s = 0#32 := by
  refine ⟨fun i => ?_, fun i => ?_, ?_, ?_⟩
  · unfold rxPayload; rw [if_neg (fun hh => h hh.1)]
  · unfold rxByteAt; rw [if_neg (fun hh => h hh.1)]
  · unfold rxHdrWord; rw [if_neg h]
  · simp only [rxTailWord]; rw [if_neg (fun hh => h hh.1)]

/-- The transmit window reads 0 with no frame built (10_state.md R43). -/
theorem txByteAt_of_not_rdy {s : State} (h : s.tx.rdy = false) (i : Nat) : txByteAt s i = 0#8 := by
  unfold txByteAt; rw [if_neg (fun hh => by simp [h] at hh)]

theorem txbuf_of_not_rdy {s : State} (h : s.tx.rdy = false) (k : Fin 259) : readReg (.txbuf k) s = 0#32 := by
  simp only [readReg, txByteAt_of_not_rdy h]; rfl

/-- The transmit window shows the built frame, 0 past it (10_state.md R43). -/
theorem txbuf_of_rdy {s : State} (h : s.tx.rdy = true) (k : Fin 259) {j : Nat} (hj : j < 4) :
    (readReg (.txbuf k) s).extractLsb' (8 * j) 8 = (txFrame s).getD (4 * k.val + j) 0#8 := by
  simp only [readReg]
  rw [window_byte (txByteAt s) k.val hj]
  simp only [txByteAt, txFrame, h, if_true, true_and]
  by_cases hlt : 4 * k.val + j < s.tx.plen + 6
  · rw [if_pos hlt, Memory.getD_slice _ _ _ _ hlt, Nat.zero_add]
  · rw [if_neg hlt, List.getD, List.getElem?_eq_none (by simp; omega)]; rfl

end Sys2Proof.Machine
end

