-- ==== Sys2Proof/Laws/Bus.lean ====
section
/-! SUPPORT. Every instruction completes; a host access, an event and a step, once each. -/

namespace Sys2Proof.Machine

/-! ### Every instruction completes -/

/-- A message's meaning is the arrival of its frame (log 4). -/
theorem exec_message {i : Instr} {d : List Byte} (h : encode i = .frame d) (s : State) :
    exec i s = .next (rxDatagram d s) := by
  cases i <;> simp only [encode, reduceCtorEq] at h <;> cases h <;> rfl

/-- No instruction stops (60_exceptions.md R260). -/
theorem exec_next (i : Instr) (s : State) : ∃ t, exec i s = .next t := by
  cases i
  case txEnd =>
    show ∃ t, execTxEnd s = .next t
    unfold execTxEnd
    split <;> exact ⟨_, rfl⟩
  all_goals exact ⟨_, rfl⟩

/-- The bytes of a datagram have one effect, whether they carry a message or not. -/
theorem runDatagram_eq (d : List Byte) (s : State) : runDatagram d s = .next (rxDatagram d s) := by
  unfold runDatagram
  split
  · next i h =>
    obtain ⟨op, p, hp, rfl, hd⟩ := decodeFrame_ok h
    exact exec_message (decodePayload_ok hp hd).2.1 s
  · rfl

@[simp] theorem mapNext_next (f : State → State) (s : State) : mapNext f (.next s) = .next (f s) := rfl

theorem mapNext_eq_next {f : State → State} {o : Host.Outcome State Fault Refusal} {t : State}
    (h : mapNext f o = .next t) : ∃ u, o = .next u ∧ t = f u := by
  cases o with
  | next u => exact ⟨u, rfl, (Host.Outcome.next.inj h).symm⟩
  | fault r => cases h
  | refused r => cases h

/-! ### Accesses -/

theorem Reg.offset_toNat (r : Reg) : (BitVec.ofNat 32 r.offset).toNat = r.offset := by
  have := r.offset_lt
  simp; omega

theorem busWrite_refusal (r : Reg) (v : Word) : (busWrite r v).refusal = none := by
  have h1 := r.offset_lt
  have h2 := r.offset_aligned
  unfold Access.refusal busWrite
  rw [r.offset_toNat, if_neg (by simp), if_neg (by unfold Config.span; omega), if_neg (by omega)]

theorem busRead_refusal (r : Reg) : (busRead r).refusal = none := by
  have h1 := r.offset_lt
  have h2 := r.offset_aligned
  unfold Access.refusal busRead
  rw [r.offset_toNat, if_neg (by simp), if_neg (by unfold Config.span; omega), if_neg (by omega)]

/-- An access the spec defines (20_memory.md R71). -/
theorem Access.refusal_none (a : Access) : a.refusal = none ↔ a.bytes = 4 ∧ a.off.toNat < 0x4000 ∧ a.off.toNat % 4 = 0 := by
  unfold Access.refusal Config.span
  split_ifs <;> simp <;> omega

/-- A write of a register is the register's write, then its observation. -/
theorem runAccess_busWrite (r : Reg) (v : Word) (s : State) :
    runAccess (busWrite r v) s = mapNext (observe none) (writeReg r v s) := by
  unfold runAccess
  rw [busWrite_refusal]
  show mapNext (observe none) (writeOffset (BitVec.ofNat 32 r.offset).toNat v s) = _
  rw [r.offset_toNat, writeOffset, regAt_offset]

/-- A read of a register shows its value and changes nothing. -/
theorem runAccess_busRead (r : Reg) (s : State) :
    runAccess (busRead r) s = .next (observe (some (readReg r s)) s) := by
  unfold runAccess
  rw [busRead_refusal]
  show Host.Outcome.next (observe (some (readOffset (BitVec.ofNat 32 r.offset).toNat s)) s) = _
  rw [r.offset_toNat, readOffset, regAt_offset]

/-- A write of a register never stops. -/
theorem writeReg_next (r : Reg) (v : Word) (s : State) : ∃ t, writeReg r v s = .next t := by
  unfold writeReg
  split
  case h_3 =>
    unfold runCommand
    split
    · exact exec_next _ _
    · exact ⟨_, rfl⟩
  all_goals exact ⟨_, rfl⟩

/-- An access is served exactly when the spec defines it, else refused. -/
theorem runAccess_cases (a : Access) (s : State) :
    (a.refusal = none ∧ ∃ t, runAccess a s = .next t) ∨ (∃ r, a.refusal = some r ∧ runAccess a s = .refused r) := by
  unfold runAccess
  cases h : a.refusal with
  | some r => exact .inr ⟨r, rfl, rfl⟩
  | none =>
    refine .inl ⟨rfl, ?_⟩
    simp only
    split
    · exact ⟨_, rfl⟩
    · unfold writeOffset
      split
      · next r _ =>
        obtain ⟨t, ht⟩ := writeReg_next r _ s
        exact ⟨_, by rw [ht]; rfl⟩
      · exact ⟨_, rfl⟩

/-- An event is served unless it is an access the spec refuses. -/
theorem runEvent_cases (e : Event) (s : State) :
    (e.admitted = true ∧ ∃ t, runEvent e s = .next t) ∨ (e.admitted = false ∧ ∃ r, runEvent e s = .refused r) := by
  cases e with
  | access a =>
    rcases runAccess_cases a s with ⟨h, t, ht⟩ | ⟨r, h, hr⟩
    · exact .inl ⟨by simp [Event.admitted, h], t, ht⟩
    · exact .inr ⟨by simp [Event.admitted, h], r, hr⟩
  | datagram d => exact .inl ⟨rfl, _, by rw [runEvent, runDatagram_eq]; rfl⟩
  | hardReset => exact .inl ⟨rfl, _, rfl⟩

/-! ### Steps -/

theorem step_cons (s : State) (e : Event) (rest : List Event) :
    step (s.setPending (e :: rest)) = runEvent e (s.setPending rest) := rfl

/-- The step of a write of a register (20_memory.md R76). -/
theorem step_busWrite (s : State) (r : Reg) (v : Word) (rest : List Event) :
    step (s.setPending (.access (busWrite r v) :: rest)) = mapNext (observe none) (writeReg r v (s.setPending rest)) := by
  rw [step_cons, runEvent, runAccess_busWrite]

/-- BASE is 16 KiB aligned (20_memory.md R70). -/
theorem base_aligned : Config.base.toNat % 0x4000 = 0 := by
  unfold Config.base
  rw [BitVec.toNat_append, ← Nat.shiftLeft_add_eq_or_of_lt (by simp)]
  simp [Nat.shiftLeft_eq]

/-- The address of a register does not wrap (20_memory.md R70). -/
theorem base_add_offset (r : Reg) : (Config.base + BitVec.ofNat 32 r.offset).toNat = Config.base.toNat + r.offset := by
  have hb := base_aligned
  have h1 := r.offset_lt
  have hlt := Config.base.isLt
  rw [BitVec.toNat_add, r.offset_toNat]
  omega

theorem step_nil {s : State} (h : s.pending = []) : step s = .next s := by
  unfold step serveNext; rw [h]

theorem step_of_pending {s : State} {e : Event} {rest : List Event} (h : s.pending = e :: rest) :
    step s = runEvent e (s.setPending rest) := by
  unfold step serveNext; rw [h]

end Sys2Proof.Machine
end

