-- ==== Sys2Proof/Laws/State.lean ====
section
/-! SUPPORT. What every update of the state leaves and changes: one lemma a field and update, true by definition. -/

namespace Sys2Proof.Machine

@[simp] theorem State.setCtrl_ctrl (s : State) (v : Ctrl) : (s.setCtrl v).ctrl = v := rfl
@[simp] theorem State.setCtrl_wdata (s : State) (v : Ctrl) : (s.setCtrl v).wdata = s.wdata := rfl
@[simp] theorem State.setCtrl_cs (s : State) (v : Ctrl) : (s.setCtrl v).cs = s.cs := rfl
@[simp] theorem State.setCtrl_crc (s : State) (v : Ctrl) : (s.setCtrl v).crc = s.crc := rfl
@[simp] theorem State.setCtrl_rx (s : State) (v : Ctrl) : (s.setCtrl v).rx = s.rx := rfl
@[simp] theorem State.setCtrl_tx (s : State) (v : Ctrl) : (s.setCtrl v).tx = s.tx := rfl
@[simp] theorem State.setCtrl_cmderr (s : State) (v : Ctrl) : (s.setCtrl v).cmderr = s.cmderr := rfl
@[simp] theorem State.setCtrl_pending (s : State) (v : Ctrl) : (s.setCtrl v).pending = s.pending := rfl
@[simp] theorem State.setCtrl_observed (s : State) (v : Ctrl) : (s.setCtrl v).observed = s.observed := rfl
@[simp] theorem State.setCtrl_self (s : State) : s.setCtrl s.ctrl = s := rfl
@[simp] theorem State.setCtrl_setCtrl (s : State) (v w : Ctrl) : (s.setCtrl v).setCtrl w = s.setCtrl w := rfl

@[simp] theorem State.setWdata_ctrl (s : State) (v : Word) : (s.setWdata v).ctrl = s.ctrl := rfl
@[simp] theorem State.setWdata_wdata (s : State) (v : Word) : (s.setWdata v).wdata = v := rfl
@[simp] theorem State.setWdata_cs (s : State) (v : Word) : (s.setWdata v).cs = s.cs := rfl
@[simp] theorem State.setWdata_crc (s : State) (v : Word) : (s.setWdata v).crc = s.crc := rfl
@[simp] theorem State.setWdata_rx (s : State) (v : Word) : (s.setWdata v).rx = s.rx := rfl
@[simp] theorem State.setWdata_tx (s : State) (v : Word) : (s.setWdata v).tx = s.tx := rfl
@[simp] theorem State.setWdata_cmderr (s : State) (v : Word) : (s.setWdata v).cmderr = s.cmderr := rfl
@[simp] theorem State.setWdata_pending (s : State) (v : Word) : (s.setWdata v).pending = s.pending := rfl
@[simp] theorem State.setWdata_observed (s : State) (v : Word) : (s.setWdata v).observed = s.observed := rfl
@[simp] theorem State.setWdata_self (s : State) : s.setWdata s.wdata = s := rfl
@[simp] theorem State.setWdata_setWdata (s : State) (v w : Word) : (s.setWdata v).setWdata w = s.setWdata w := rfl

@[simp] theorem State.setCs_ctrl (s : State) (v : Cs) : (s.setCs v).ctrl = s.ctrl := rfl
@[simp] theorem State.setCs_wdata (s : State) (v : Cs) : (s.setCs v).wdata = s.wdata := rfl
@[simp] theorem State.setCs_cs (s : State) (v : Cs) : (s.setCs v).cs = v := rfl
@[simp] theorem State.setCs_crc (s : State) (v : Cs) : (s.setCs v).crc = s.crc := rfl
@[simp] theorem State.setCs_rx (s : State) (v : Cs) : (s.setCs v).rx = s.rx := rfl
@[simp] theorem State.setCs_tx (s : State) (v : Cs) : (s.setCs v).tx = s.tx := rfl
@[simp] theorem State.setCs_cmderr (s : State) (v : Cs) : (s.setCs v).cmderr = s.cmderr := rfl
@[simp] theorem State.setCs_pending (s : State) (v : Cs) : (s.setCs v).pending = s.pending := rfl
@[simp] theorem State.setCs_observed (s : State) (v : Cs) : (s.setCs v).observed = s.observed := rfl
@[simp] theorem State.setCs_self (s : State) : s.setCs s.cs = s := rfl
@[simp] theorem State.setCs_setCs (s : State) (v w : Cs) : (s.setCs v).setCs w = s.setCs w := rfl

@[simp] theorem State.setCrc_ctrl (s : State) (v : Crc) : (s.setCrc v).ctrl = s.ctrl := rfl
@[simp] theorem State.setCrc_wdata (s : State) (v : Crc) : (s.setCrc v).wdata = s.wdata := rfl
@[simp] theorem State.setCrc_cs (s : State) (v : Crc) : (s.setCrc v).cs = s.cs := rfl
@[simp] theorem State.setCrc_crc (s : State) (v : Crc) : (s.setCrc v).crc = v := rfl
@[simp] theorem State.setCrc_rx (s : State) (v : Crc) : (s.setCrc v).rx = s.rx := rfl
@[simp] theorem State.setCrc_tx (s : State) (v : Crc) : (s.setCrc v).tx = s.tx := rfl
@[simp] theorem State.setCrc_cmderr (s : State) (v : Crc) : (s.setCrc v).cmderr = s.cmderr := rfl
@[simp] theorem State.setCrc_pending (s : State) (v : Crc) : (s.setCrc v).pending = s.pending := rfl
@[simp] theorem State.setCrc_observed (s : State) (v : Crc) : (s.setCrc v).observed = s.observed := rfl
@[simp] theorem State.setCrc_self (s : State) : s.setCrc s.crc = s := rfl
@[simp] theorem State.setCrc_setCrc (s : State) (v w : Crc) : (s.setCrc v).setCrc w = s.setCrc w := rfl

@[simp] theorem State.setRx_ctrl (s : State) (v : Rx) : (s.setRx v).ctrl = s.ctrl := rfl
@[simp] theorem State.setRx_wdata (s : State) (v : Rx) : (s.setRx v).wdata = s.wdata := rfl
@[simp] theorem State.setRx_cs (s : State) (v : Rx) : (s.setRx v).cs = s.cs := rfl
@[simp] theorem State.setRx_crc (s : State) (v : Rx) : (s.setRx v).crc = s.crc := rfl
@[simp] theorem State.setRx_rx (s : State) (v : Rx) : (s.setRx v).rx = v := rfl
@[simp] theorem State.setRx_tx (s : State) (v : Rx) : (s.setRx v).tx = s.tx := rfl
@[simp] theorem State.setRx_cmderr (s : State) (v : Rx) : (s.setRx v).cmderr = s.cmderr := rfl
@[simp] theorem State.setRx_pending (s : State) (v : Rx) : (s.setRx v).pending = s.pending := rfl
@[simp] theorem State.setRx_observed (s : State) (v : Rx) : (s.setRx v).observed = s.observed := rfl
@[simp] theorem State.setRx_self (s : State) : s.setRx s.rx = s := rfl
@[simp] theorem State.setRx_setRx (s : State) (v w : Rx) : (s.setRx v).setRx w = s.setRx w := rfl

@[simp] theorem State.setTx_ctrl (s : State) (v : Tx) : (s.setTx v).ctrl = s.ctrl := rfl
@[simp] theorem State.setTx_wdata (s : State) (v : Tx) : (s.setTx v).wdata = s.wdata := rfl
@[simp] theorem State.setTx_cs (s : State) (v : Tx) : (s.setTx v).cs = s.cs := rfl
@[simp] theorem State.setTx_crc (s : State) (v : Tx) : (s.setTx v).crc = s.crc := rfl
@[simp] theorem State.setTx_rx (s : State) (v : Tx) : (s.setTx v).rx = s.rx := rfl
@[simp] theorem State.setTx_tx (s : State) (v : Tx) : (s.setTx v).tx = v := rfl
@[simp] theorem State.setTx_cmderr (s : State) (v : Tx) : (s.setTx v).cmderr = s.cmderr := rfl
@[simp] theorem State.setTx_pending (s : State) (v : Tx) : (s.setTx v).pending = s.pending := rfl
@[simp] theorem State.setTx_observed (s : State) (v : Tx) : (s.setTx v).observed = s.observed := rfl
@[simp] theorem State.setTx_self (s : State) : s.setTx s.tx = s := rfl
@[simp] theorem State.setTx_setTx (s : State) (v w : Tx) : (s.setTx v).setTx w = s.setTx w := rfl

@[simp] theorem State.setCmderr_ctrl (s : State) (v : Bool) : (s.setCmderr v).ctrl = s.ctrl := rfl
@[simp] theorem State.setCmderr_wdata (s : State) (v : Bool) : (s.setCmderr v).wdata = s.wdata := rfl
@[simp] theorem State.setCmderr_cs (s : State) (v : Bool) : (s.setCmderr v).cs = s.cs := rfl
@[simp] theorem State.setCmderr_crc (s : State) (v : Bool) : (s.setCmderr v).crc = s.crc := rfl
@[simp] theorem State.setCmderr_rx (s : State) (v : Bool) : (s.setCmderr v).rx = s.rx := rfl
@[simp] theorem State.setCmderr_tx (s : State) (v : Bool) : (s.setCmderr v).tx = s.tx := rfl
@[simp] theorem State.setCmderr_cmderr (s : State) (v : Bool) : (s.setCmderr v).cmderr = v := rfl
@[simp] theorem State.setCmderr_pending (s : State) (v : Bool) : (s.setCmderr v).pending = s.pending := rfl
@[simp] theorem State.setCmderr_observed (s : State) (v : Bool) : (s.setCmderr v).observed = s.observed := rfl
@[simp] theorem State.setCmderr_self (s : State) : s.setCmderr s.cmderr = s := rfl
@[simp] theorem State.setCmderr_setCmderr (s : State) (v w : Bool) : (s.setCmderr v).setCmderr w = s.setCmderr w := rfl

@[simp] theorem State.setPending_ctrl (s : State) (v : List Event) : (s.setPending v).ctrl = s.ctrl := rfl
@[simp] theorem State.setPending_wdata (s : State) (v : List Event) : (s.setPending v).wdata = s.wdata := rfl
@[simp] theorem State.setPending_cs (s : State) (v : List Event) : (s.setPending v).cs = s.cs := rfl
@[simp] theorem State.setPending_crc (s : State) (v : List Event) : (s.setPending v).crc = s.crc := rfl
@[simp] theorem State.setPending_rx (s : State) (v : List Event) : (s.setPending v).rx = s.rx := rfl
@[simp] theorem State.setPending_tx (s : State) (v : List Event) : (s.setPending v).tx = s.tx := rfl
@[simp] theorem State.setPending_cmderr (s : State) (v : List Event) : (s.setPending v).cmderr = s.cmderr := rfl
@[simp] theorem State.setPending_pending (s : State) (v : List Event) : (s.setPending v).pending = v := rfl
@[simp] theorem State.setPending_observed (s : State) (v : List Event) : (s.setPending v).observed = s.observed := rfl
@[simp] theorem State.setPending_self (s : State) : s.setPending s.pending = s := rfl
@[simp] theorem State.setPending_setPending (s : State) (v w : List Event) : (s.setPending v).setPending w = s.setPending w := rfl

@[simp] theorem State.setObserved_ctrl (s : State) (v : List Observation) : (s.setObserved v).ctrl = s.ctrl := rfl
@[simp] theorem State.setObserved_wdata (s : State) (v : List Observation) : (s.setObserved v).wdata = s.wdata := rfl
@[simp] theorem State.setObserved_cs (s : State) (v : List Observation) : (s.setObserved v).cs = s.cs := rfl
@[simp] theorem State.setObserved_crc (s : State) (v : List Observation) : (s.setObserved v).crc = s.crc := rfl
@[simp] theorem State.setObserved_rx (s : State) (v : List Observation) : (s.setObserved v).rx = s.rx := rfl
@[simp] theorem State.setObserved_tx (s : State) (v : List Observation) : (s.setObserved v).tx = s.tx := rfl
@[simp] theorem State.setObserved_cmderr (s : State) (v : List Observation) : (s.setObserved v).cmderr = s.cmderr := rfl
@[simp] theorem State.setObserved_pending (s : State) (v : List Observation) : (s.setObserved v).pending = s.pending := rfl
@[simp] theorem State.setObserved_observed (s : State) (v : List Observation) : (s.setObserved v).observed = v := rfl
@[simp] theorem State.setObserved_self (s : State) : s.setObserved s.observed = s := rfl
@[simp] theorem State.setObserved_setObserved (s : State) (v w : List Observation) : (s.setObserved v).setObserved w = s.setObserved w := rfl

end Sys2Proof.Machine
end

