-- ==== Sys2Proof/Laws/Ops.lean ====
section
/-! SUPPORT. What each shared operation can do: what it changes, what it leaves, and the part of the invariant it keeps. -/

namespace Sys2Proof.Machine

/-! ### Which unit an operation touches -/

theorem SameButRx.refl (s : State) : SameButRx s s := rfl

theorem SameButRx.setRx (s : State) (r : Rx) : SameButRx s (s.setRx r) := rfl

theorem SameButRx.trans {s t u : State} (h1 : SameButRx s t) (h2 : SameButRx t u) : SameButRx s u := by
  unfold SameButRx at *
  rw [h2, h1]
  rfl

theorem SameButRx.rest {s t : State} (h : SameButRx s t) :
    t.ctrl = s.ctrl ∧ t.wdata = s.wdata ∧ t.cs = s.cs ∧ t.crc = s.crc ∧ t.tx = s.tx ∧ t.cmderr = s.cmderr
      ∧ t.pending = s.pending ∧ t.observed = s.observed := by
  rw [h]; exact ⟨rfl, rfl, rfl, rfl, rfl, rfl, rfl, rfl⟩

theorem SameButRx.ctrl {s t : State} (h : SameButRx s t) : t.ctrl = s.ctrl := h.rest.1

theorem reject_sameButRx (c : RejectCode) (s : State) : SameButRx s (reject c s) := rfl

theorem accept_sameButRx (s : State) : SameButRx s (accept s) := rfl

theorem conclude_sameButRx (e : RejectCode) (s : State) : SameButRx s (conclude e s) := by
  unfold conclude; split
  · exact accept_sameButRx s
  · exact reject_sameButRx e s

theorem rxStore_sameButRx (b : Byte) (s : State) : SameButRx s (rxStore b s) := rfl

theorem rxReset_sameButRx (s : State) : SameButRx s (rxReset s) := rfl

theorem rxRelease_sameButRx (s : State) : SameButRx s (rxRelease s) := by
  unfold rxRelease; split <;> rfl

theorem txAppend_sameButTx (l : List Byte) (s : State) : SameButTx s (txAppend l s) := by
  unfold txAppend txError; split_ifs <;> rfl

/-! ### The record of a reject -/

theorem rxIdle_eq (s : State) : rxIdle s = if s.ctrl.dgram then .accum else .hunt := rfl

/-- `reject` records what 42_deframer.md R166 says. -/
theorem reject_rejected (c : RejectCode) (n : Nat) (s : State) : Rejected c n s (reject c s) where
  code_eq := rfl
  err := rfl
  errcnt := satInc_toNat s.rx.errcnt
  cnt := rfl
  st := rfl
  expect := rfl
  ovr := rfl
  disc := rfl
  buf := fun _ _ => rfl

/-- A reject after a byte was stored: the record is about the state before the store. -/
theorem reject_rxStore_rejected (c : RejectCode) (b : Byte) (s : State) (h : s.rx.buf.wf = true) :
    Rejected c (s.rx.cnt + 1) s (reject c (rxStore b s)) where
  code_eq := rfl
  err := rfl
  errcnt := satInc_toNat s.rx.errcnt
  cnt := rfl
  st := rfl
  expect := rfl
  ovr := rfl
  disc := rfl
  buf := fun a ha => Memory.read_write_ne b h (by omega)

/-! ### The deframer's invariant -/

theorem rxIdle_inv {dgram : Bool} {r : Rx} (h : RxRecInv r) (hs : r.st = if dgram then .accum else .hunt)
    (hc : r.cnt = 0) : RxInv dgram r := by
  refine ⟨h, ?_⟩
  cases dgram <;> simp [RxStInv, hs, hc]

theorem reject_record {c : RejectCode} {s : State} (h : RxRecInv s.rx) (hc : c ≠ .none) : RxRecInv (reject c s).rx where
  wf := h.wf
  err_code := fun _ => hc
  code_count := ⟨fun e => absurd e hc, fun e => absurd e (satInc_ne_zero (by decide) _)⟩
  ovr_disc := h.ovr_disc

theorem reject_inv {c : RejectCode} {s : State} (h : RxRecInv s.rx) (hc : c ≠ .none) :
    RxInv s.ctrl.dgram (reject c s).rx :=
  rxIdle_inv (reject_record h hc) rfl rfl

theorem rxReset_inv {s : State} (h : RxRecInv s.rx) : RxInv s.ctrl.dgram (rxReset s).rx :=
  rxIdle_inv ⟨h.wf, by simp [rxReset], by simp [rxReset], by simp [rxReset]⟩ rfl rfl

theorem rxRelease_inv {s : State} (h : RxInv s.ctrl.dgram s.rx) : RxInv s.ctrl.dgram (rxRelease s).rx := by
  unfold rxRelease
  split
  · exact rxIdle_inv ⟨h.record.wf, h.record.err_code, h.record.code_count, h.record.ovr_disc⟩ rfl rfl
  · exact h

theorem rxStore_record {s : State} (b : Byte) (h : RxRecInv s.rx) : RxRecInv (rxStore b s).rx :=
  ⟨Memory.write_wf _ b h.wf, h.err_code, h.code_count, h.ovr_disc⟩

theorem conclude_inv {e : RejectCode} {s : State} (h : RxRecInv s.rx)
    (hf : e = .none → FrameWf s.rx.buf s.rx.cnt ∧ (s.ctrl.dgram = false → s.rx.buf.read 0 = 0xE7#8)) :
    RxInv s.ctrl.dgram (conclude e s).rx := by
  unfold conclude
  split
  · next he => exact ⟨⟨h.wf, h.err_code, h.code_count, h.ovr_disc⟩, hf he⟩
  · next he => exact reject_inv h he

/-! ### The framer's invariant -/

theorem txError_inv {c : TxCode} {s : State} (h : TxInv s.tx) (hc : c ≠ .none) : TxInv (txError c s).tx :=
  ⟨h.wf, h.plen, h.phase, h.built, fun _ => hc⟩

theorem txAppend_inv {l : List Byte} {s : State} (h : TxInv s.tx) : TxInv (txAppend l s).tx := by
  unfold txAppend
  split_ifs with ho hl
  · exact txError_inv h (by decide)
  · exact txError_inv h (by decide)
  · have hop : s.tx.isOpen = true := by simpa using ho
    have hr : s.tx.rdy = false := by
      have := h.phase
      simpa [hop] using this
    refine ⟨Memory.writeList_wf _ _ h.wf, ?_, ?_, ?_, h.err_code⟩
    · simp only [State.setTx_tx]
      unfold Config.maxPayload at hl
      omega
    · simp [hop, hr]
    · simp [hr]

end Sys2Proof.Machine
end

