-- ==== Sys2Proof/Laws/Deframer.lean ====
section
/-! SUPPORT. The deframer: which unit it touches, its invariant, its verdict as the verdict on the received bytes, and
what a whole sequence of bytes leaves in each mode. -/

namespace Sys2Proof.Machine

/-! ### Only the deframer changes -/

theorem rxHeaderVerdict_sameButRx (s : State) : SameButRx s (rxHeaderVerdict s) := by
  unfold rxHeaderVerdict; split_ifs <;> rfl

theorem rxFeedByte_sameButRx (b : Byte) (s : State) : SameButRx s (rxFeedByte b s) := by
  unfold rxFeedByte
  split
  · unfold rxByteHunt; split_ifs <;> rfl
  · unfold rxByteHdr
    simp only
    split_ifs
    · exact (rxStore_sameButRx b s).trans (rxHeaderVerdict_sameButRx _)
    · exact rxStore_sameButRx b s
  · unfold rxByteBody
    simp only
    split_ifs
    · exact (rxStore_sameButRx b s).trans (conclude_sameButRx _ _)
    · exact rxStore_sameButRx b s
  · rfl
  · rfl

theorem rxEndDatagram_sameButRx (s : State) : SameButRx s (rxEndDatagram s) := by
  unfold rxEndDatagram; split
  · exact conclude_sameButRx _ s
  · rfl

/-! ### The verdict is the verdict on the received bytes -/

theorem verdictTail_eq {n : Nat} (s : State) (h : 2 ≤ n) :
    verdictTail n s = tailVerdict s.ctrl.anyop s.rx.expect (s.rx.buf.slice 0 n) := by
  have h1 : (s.rx.buf.slice 0 n).getD 1 0#8 = s.rx.buf.read 1 := by
    rw [Memory.getD_slice _ _ _ _ (by omega)]
  have h2 : (s.rx.buf.slice 0 n).getD (n - 1) 0#8 = s.rx.buf.read (n - 1) := by
    rw [Memory.getD_slice _ _ _ _ (by omega), Nat.zero_add]
  simp only [verdictTail, tailVerdict, Memory.slice_length, h1, h2, Memory.slice_take _ _ (show n - 1 ≤ n by omega)]
  simp [opOk, and_assoc]

theorem headerOk_iff (s : State) : headerOk s = true ↔ s.rx.buf.read 4 = sum8 (s.rx.buf.slice 0 4) := by
  simp [headerOk]

/-- The datagram verdict on up to 1034 stored bytes (42_deframer.md R163). -/
theorem verdictDgram_eq {n : Nat} (s : State) (h : n ≤ 1034) :
    verdictDgram n s = frameVerdict s.ctrl.syncchk s.ctrl.anyop s.rx.expect (s.rx.buf.slice 0 n) := by
  unfold verdictDgram frameVerdict Config.minFrame Config.maxFrame
  rw [Memory.slice_length]
  by_cases hs : n < 6
  · rw [if_pos hs, if_pos hs]
  · have hg : ∀ i, i < 5 → (s.rx.buf.slice 0 n).getD i 0#8 = s.rx.buf.read i := by
      intro i hi
      rw [Memory.getD_slice _ _ _ _ (by omega), Nat.zero_add]
    rw [if_neg hs, if_neg hs, if_neg (show ¬ 1034 < n by omega), if_neg (show ¬ 1034 < n by omega), hg 0 (by omega), hg 4 (by omega), hg 2 (by omega),
      hg 3 (by omega), Memory.slice_take _ _ (show 4 ≤ n by omega), verdictTail_eq s (by omega)]
    unfold rxLength Config.sync headerOk
    simp

/-- An oversize datagram (42_deframer.md R163). -/
theorem verdictDgram_oversize {n : Nat} (s : State) (h : 1034 < n) : verdictDgram n s = .oversize := by
  unfold verdictDgram Config.minFrame Config.maxFrame
  rw [if_neg (by omega), if_pos h]

/-- A byte sequence that passes every check but those of the op code and the sync byte. -/
theorem frameWf_of_checks {m : Memory} {n : Nat} (h6 : 6 ≤ n) (hn : n ≤ 1034)
    (hh : m.read 4 = sum8 (m.slice 0 4)) (hl : (le16 (m.read 2) (m.read 3)).toNat = n - 5)
    {anyop : Bool} {e : Byte} (ht : tailVerdict anyop e (m.slice 0 n) = .none) : FrameWf m n := by
  unfold tailVerdict at ht
  rw [Memory.slice_length, Memory.getD_slice _ _ _ _ (by omega), Memory.getD_slice _ _ _ _ (by omega),
    Memory.slice_take _ _ (by omega)] at ht
  split_ifs at ht with h1 h2 h3
  refine ⟨h6, hn, hh, hl, ?_, ?_⟩
  · simpa using h1
  · simpa using h3

theorem frameVerdict_none {syncchk anyop : Bool} {e : Byte} {d : List Byte} (h : frameVerdict syncchk anyop e d = .none) :
    6 ≤ d.length ∧ d.length ≤ 1034 ∧ d.getD 4 0#8 = sum8 (d.take 4)
      ∧ (le16 (d.getD 2 0#8) (d.getD 3 0#8)).toNat = d.length - 5 ∧ tailVerdict anyop e d = .none
      ∧ (syncchk = true → d.getD 0 0#8 = 0xE7#8) := by
  unfold frameVerdict at h
  split_ifs at h with h1 h2 h3 h4 h5
  refine ⟨by omega, by omega, by simpa using h4, by simpa using h5, h, ?_⟩
  intro hs
  by_contra hc
  exact h3 ⟨hs, hc⟩

theorem tailVerdict_none {anyop : Bool} {e : Byte} {d : List Byte} (h : tailVerdict anyop e d = .none) :
    d.getD (d.length - 1) 0#8 = sum8 (d.take (d.length - 1)) ∧ (anyop = true ∨ d.getD 1 0#8 = e ∨ d.getD 1 0#8 = 0xFF#8)
      ∧ shapeOk (d.getD 1 0#8) (d.length - 6) = true := by
  unfold tailVerdict at h
  split_ifs at h with h1 h2 h3
  exact ⟨by simpa using h1, by tauto, by simpa using h3⟩

theorem verdictDgram_frameWf {s : State} (h : verdictDgram s.rx.cnt s = .none) : FrameWf s.rx.buf s.rx.cnt := by
  by_cases hn : s.rx.cnt ≤ 1034
  · rw [verdictDgram_eq s hn] at h
    obtain ⟨h6, -, hh, hl, ht, -⟩ := frameVerdict_none h
    rw [Memory.slice_length] at h6 hl
    rw [Memory.getD_slice _ _ _ _ (by omega), Memory.slice_take _ _ (by omega)] at hh
    rw [Memory.getD_slice _ _ _ _ (by omega), Memory.getD_slice _ _ _ _ (by omega)] at hl
    simp only [Nat.zero_add] at hh hl
    exact frameWf_of_checks h6 hn hh hl ht
  · rw [verdictDgram_oversize s (by omega)] at h
    cases h

/-! ### The invariant -/

/-- RX_EOD keeps the deframer's invariant. -/
theorem rxEndDatagram_inv {s : State} (h : RxInv s.ctrl.dgram s.rx) : RxInv s.ctrl.dgram (rxEndDatagram s).rx := by
  unfold rxEndDatagram
  split
  · next hst =>
    refine conclude_inv h.record fun he => ⟨verdictDgram_frameWf he, fun hd => ?_⟩
    have := h.st
    simp [RxStInv, hst, hd] at this
  · exact h

theorem rxByteHdr_inv {s : State} (b : Byte) (h : RxInv s.ctrl.dgram s.rx) (hst : s.rx.st = .hdr) :
    RxInv s.ctrl.dgram (rxByteHdr b s).rx := by
  have hs := h.st
  simp only [RxStInv, hst] at hs
  obtain ⟨hd, h1, h4, h0⟩ := hs
  have hr0 : (rxStore b s).rx.buf.read 0 = 0xE7#8 := by
    rw [← h0]; exact Memory.read_write_ne b h.record.wf (by omega)
  unfold rxByteHdr
  simp only
  split
  · next hc =>
    unfold rxHeaderVerdict
    split_ifs with hh hl
    · exact reject_inv (s := rxStore b s) (rxStore_record b h.record) (by decide)
    · exact reject_inv (s := rxStore b s) (rxStore_record b h.record) (by decide)
    · have hr := rxStore_record b h.record
      refine ⟨⟨hr.wf, hr.err_code, hr.code_count, hr.ovr_disc⟩, ?_⟩
      have hh' := (headerOk_iff (rxStore b s)).1 (by simpa using hh)
      unfold rxLength Config.lenMax at hl
      refine ⟨hd, ?_, ?_, ?_, hr0, hh'⟩ <;> simp only [State.setRx_rx] <;> omega
  · next hc =>
    refine ⟨rxStore_record b h.record, ?_⟩
    have hcnt : (rxStore b s).rx.cnt = s.rx.cnt + 1 := rfl
    have hst' : (rxStore b s).rx.st = .hdr := hst
    simp only [RxStInv, hst']
    exact ⟨hd, by omega, by omega, hr0⟩

theorem rxByteBody_inv {s : State} (b : Byte) (h : RxInv s.ctrl.dgram s.rx) (hst : s.rx.st = .body) :
    RxInv s.ctrl.dgram (rxByteBody b s).rx := by
  have hs := h.st
  simp only [RxStInv, hst] at hs
  obtain ⟨hd, h5, hlt, hle, h0, hh⟩ := hs
  have hlow : ∀ a, a < 5 → (rxStore b s).rx.buf.read a = s.rx.buf.read a :=
    fun a ha => Memory.read_write_ne b h.record.wf (by omega)
  have hcnt : (rxStore b s).rx.cnt = s.rx.cnt + 1 := rfl
  have hL : rxLength (rxStore b s) = (le16 (s.rx.buf.read 2) (s.rx.buf.read 3)).toNat := by
    unfold rxLength; rw [hlow 2 (by omega), hlow 3 (by omega)]
  have hh' : (rxStore b s).rx.buf.read 4 = sum8 ((rxStore b s).rx.buf.slice 0 4) := by
    rw [hlow 4 (by omega), hh]
    congr 1
    apply Memory.slice_congr
    intro i hi
    rw [hlow _ (by omega)]
  unfold rxByteBody
  simp only
  split
  · next hc =>
    refine conclude_inv (s := rxStore b s) (rxStore_record b h.record) fun he => ⟨?_, fun _ => (hlow 0 (by omega)).trans h0⟩
    rw [verdictTail_eq _ (by omega)] at he
    refine frameWf_of_checks (by omega) (by omega) hh' ?_ he
    rw [← rxLength]; omega
  · next hc =>
    refine ⟨rxStore_record b h.record, ?_⟩
    have hst' : (rxStore b s).rx.st = .body := hst
    rw [hL] at hc
    simp only [RxStInv, hst', hlow 2 (by omega), hlow 3 (by omega), hlow 0 (by omega)]
    exact ⟨hd, by omega, by omega, hle, h0, hh'⟩

/-- RX_BYTE keeps the deframer's invariant. -/
theorem rxFeedByte_inv {s : State} (b : Byte) (h : RxInv s.ctrl.dgram s.rx) :
    RxInv s.ctrl.dgram (rxFeedByte b s).rx := by
  have hs := h.st
  have hrec := h.record
  unfold rxFeedByte
  split
  · next hst =>
    simp only [RxStInv, hst] at hs
    unfold rxByteHunt
    split
    · next hb =>
      refine ⟨⟨Memory.write_wf 0 b hrec.wf, hrec.err_code, hrec.code_count, hrec.ovr_disc⟩, hs.1, le_refl 1, by simp, ?_⟩
      simp only [State.setRx_rx]
      rw [Memory.read_write_same b hrec.wf (by decide), hb]; rfl
    · exact ⟨⟨hrec.wf, hrec.err_code, hrec.code_count, fun _ => satInc_ne_zero (by decide) _⟩, by
        simp [RxStInv, hst, hs]⟩
  · next hst => exact rxByteHdr_inv b h hst
  · next hst => exact rxByteBody_inv b h hst
  · next hst =>
    simp only [RxStInv, hst] at hs
    unfold rxByteAccum
    refine ⟨⟨?_, hrec.err_code, hrec.code_count, hrec.ovr_disc⟩, ?_⟩
    · simp only [State.setRx_rx]
      split
      · exact Memory.write_wf _ b hrec.wf
      · exact hrec.wf
    · simp only [RxStInv, State.setRx_rx, hst]
      exact ⟨hs.1, Nat.min_le_right _ _⟩
  · next hst =>
    exact ⟨⟨hrec.wf, hrec.err_code, hrec.code_count, fun _ => satInc_ne_zero (by decide) _⟩, by
      simpa [RxStInv, rxOverrun, hst] using hs⟩

/-! ### A sequence of bytes -/

/-- The bytes of RX_FEED without the log of observations. -/
def rxFeedPlain (d : List Byte) (s : State) : State := d.foldl (fun t b => rxFeedByte b t) s

@[simp] theorem rxFeedPlain_nil (s : State) : rxFeedPlain [] s = s := rfl

@[simp] theorem rxFeedPlain_cons (b : Byte) (d : List Byte) (s : State) :
    rxFeedPlain (b :: d) s = rxFeedPlain d (rxFeedByte b s) := rfl

theorem rxFeedPlain_append (d e : List Byte) (s : State) :
    rxFeedPlain (d ++ e) s = rxFeedPlain e (rxFeedPlain d s) := by
  simp [rxFeedPlain]

theorem rxFeedByte_setObserved (b : Byte) (s : State) (o : List Observation) :
    rxFeedByte b (s.setObserved o) = (rxFeedByte b s).setObserved o := by
  unfold rxFeedByte
  simp only [State.setObserved_rx]
  split
  · unfold rxByteHunt; split <;> rfl
  · unfold rxByteHdr rxHeaderVerdict
    have h1 : rxStore b (s.setObserved o) = (rxStore b s).setObserved o := rfl
    have h2 : ∀ t : State, headerOk (t.setObserved o) = headerOk t := fun _ => rfl
    have h3 : ∀ t : State, rxLength (t.setObserved o) = rxLength t := fun _ => rfl
    simp only [h1, h2, h3, State.setObserved_rx]
    split_ifs <;> rfl
  · unfold rxByteBody conclude
    have h1 : rxStore b (s.setObserved o) = (rxStore b s).setObserved o := rfl
    have h2 : ∀ (n : Nat) (t : State), verdictTail n (t.setObserved o) = verdictTail n t := fun _ _ => rfl
    have h3 : ∀ t : State, rxLength (t.setObserved o) = rxLength t := fun _ => rfl
    simp only [h1, h2, h3, State.setObserved_rx]
    split_ifs <;> rfl
  · rfl
  · rfl

theorem rxEndDatagram_setObserved (s : State) (o : List Observation) :
    rxEndDatagram (s.setObserved o) = (rxEndDatagram s).setObserved o := by
  unfold rxEndDatagram conclude
  have h2 : ∀ (n : Nat) (t : State), verdictDgram n (t.setObserved o) = verdictDgram n t := fun _ _ => rfl
  simp only [h2, State.setObserved_rx]
  split_ifs <;> rfl

theorem rxFeedPlain_setObserved (d : List Byte) (s : State) (o : List Observation) :
    rxFeedPlain d (s.setObserved o) = (rxFeedPlain d s).setObserved o := by
  induction d generalizing s with
  | nil => rfl
  | cons b d ih => simp [rxFeedByte_setObserved, ih]

theorem rxFeedPlain_sameButRx (d : List Byte) (s : State) : SameButRx s (rxFeedPlain d s) := by
  induction d generalizing s with
  | nil => exact SameButRx.refl s
  | cons b d ih => exact (rxFeedByte_sameButRx b s).trans (ih _)

/-- RX_FEED is the bytes' effect, and one observation without a value for each (30_encoding.md R104). -/
theorem rxFeed_eq (d : List Byte) (s : State) :
    ∃ l : List Observation, l.length = d.length ∧ (∀ o ∈ l, o.value = none)
      ∧ rxFeed d s = (rxFeedPlain d s).setObserved (l ++ s.observed) := by
  induction d generalizing s with
  | nil => exact ⟨[], rfl, by simp, rfl⟩
  | cons b d ih =>
    obtain ⟨l, hl, hn, he⟩ := ih (observe none (rxFeedByte b s))
    refine ⟨l ++ [⟨none, irq (rxFeedByte b s)⟩], by simp [hl], ?_, ?_⟩
    · intro o ho
      rcases List.mem_append.1 ho with h | h
      · exact hn o h
      · rw [List.mem_singleton.1 h]
    · have h1 : rxFeed (b :: d) s = rxFeed d (observe none (rxFeedByte b s)) := rfl
      have h2 : (rxFeedByte b s).observed = s.observed := (rxFeedByte_sameButRx b s).rest.2.2.2.2.2.2.2
      rw [h1, he]
      unfold observe
      rw [rxFeedPlain_setObserved, State.setObserved_setObserved, State.setObserved_observed, h2, rxFeedPlain_cons]
      simp

/-- RX_DGRAM in the same terms. -/
theorem rxDatagram_eq (d : List Byte) (s : State) :
    ∃ l : List Observation, l.length = d.length ∧ (∀ o ∈ l, o.value = none)
      ∧ rxDatagram d s = (rxEndDatagram (rxFeedPlain d s)).setObserved (l ++ s.observed) := by
  obtain ⟨l, hl, hn, he⟩ := rxFeed_eq d s
  exact ⟨l, hl, hn, by rw [rxDatagram, he, rxEndDatagram_setObserved]⟩

theorem rxDatagram_rx (d : List Byte) (s : State) : (rxDatagram d s).rx = (rxEndDatagram (rxFeedPlain d s)).rx := by
  obtain ⟨l, -, -, he⟩ := rxDatagram_eq d s
  rw [he]; rfl

/-- A datagram touches the deframer and the log only (43_framer.md R209). -/
theorem rxDatagram_onlyReceived (d : List Byte) (s : State) : OnlyReceived d.length s (rxDatagram d s) := by
  obtain ⟨l, hl, hn, he⟩ := rxDatagram_eq d s
  have h := ((rxFeedPlain_sameButRx d s).trans (rxEndDatagram_sameButRx _)).rest
  rw [he]
  exact ⟨h.1, h.2.1, h.2.2.1, h.2.2.2.1, h.2.2.2.2.1, h.2.2.2.2.2.1, h.2.2.2.2.2.2.1, l, hl, hn, rfl⟩

theorem rxFeedPlain_inv {s : State} (d : List Byte) (h : RxInv s.ctrl.dgram s.rx) :
    RxInv s.ctrl.dgram (rxFeedPlain d s).rx := by
  induction d generalizing s with
  | nil => exact h
  | cons b d ih =>
    have hc := (rxFeedByte_sameButRx b s).ctrl
    have := ih (s := rxFeedByte b s) (by rw [hc]; exact rxFeedByte_inv b h)
    rwa [hc] at this

/-- A datagram keeps the deframer's invariant. -/
theorem rxDatagram_inv {s : State} (d : List Byte) (h : RxInv s.ctrl.dgram s.rx) :
    RxInv s.ctrl.dgram (rxDatagram d s).rx := by
  rw [rxDatagram_rx]
  have hc := (rxFeedPlain_sameButRx d s).ctrl
  have := rxEndDatagram_inv (s := rxFeedPlain d s) (by rw [hc]; exact rxFeedPlain_inv d h)
  rwa [hc] at this

/-- Datagram mode: a sequence of bytes is stored behind those already there, and counted (42_deframer.md R162). -/
theorem rxFeedPlain_accum (d : List Byte) (s : State) (hst : s.rx.st = .accum) (hc : s.rx.cnt ≤ 1035) :
    rxFeedPlain d s =
      s.setRx { s.rx with buf := s.rx.buf.writeList s.rx.cnt (d.take (1034 - s.rx.cnt)),
                          cnt := min (s.rx.cnt + d.length) 1035 } := by
  induction d generalizing s with
  | nil =>
    have : min s.rx.cnt 1035 = s.rx.cnt := by omega
    simp only [rxFeedPlain_nil, List.take_nil, List.length_nil, Nat.add_zero, this, Memory.writeList]
    exact (State.setRx_self s).symm
  | cons b d ih =>
    have hb : rxFeedByte b s = rxByteAccum b s := by unfold rxFeedByte; rw [hst]
    rw [rxFeedPlain_cons, hb, ih (rxByteAccum b s) hst (Nat.min_le_right _ _)]
    unfold rxByteAccum Config.maxFrame Config.rxCntMax
    simp only [State.setRx_rx, State.setRx_setRx, List.length_cons]
    by_cases hlt : s.rx.cnt < 1034
    · have h1 : min (s.rx.cnt + 1) 1035 = s.rx.cnt + 1 := by omega
      have h2 : 1034 - s.rx.cnt = (1034 - (s.rx.cnt + 1)) + 1 := by omega
      have h3 : min (s.rx.cnt + 1 + d.length) 1035 = min (s.rx.cnt + (d.length + 1)) 1035 := by omega
      rw [if_pos hlt, h1, h2, h3]
      rfl
    · have h1 : 1034 - s.rx.cnt = 0 := by omega
      have h2 : 1034 - min (s.rx.cnt + 1) 1035 = 0 := by omega
      have h3 : min (min (s.rx.cnt + 1) 1035 + d.length) 1035 = min (s.rx.cnt + (d.length + 1)) 1035 := by omega
      rw [if_neg hlt, h1, h2, h3]
      rfl

/-- Stream mode, in BODY: bytes short of the frame's end are stored and counted (42_deframer.md R169). -/
theorem rxFeedPlain_body (d : List Byte) (s : State) (hst : s.rx.st = .body) (hw : s.rx.buf.wf = true)
    (h5 : 5 ≤ s.rx.cnt) (hl : s.rx.cnt + d.length < 5 + rxLength s) :
    rxFeedPlain d s =
      s.setRx { s.rx with buf := s.rx.buf.writeList s.rx.cnt d, cnt := s.rx.cnt + d.length } := by
  induction d generalizing s with
  | nil => exact (State.setRx_self s).symm
  | cons b d ih =>
    simp only [List.length_cons] at hl ⊢
    have hL : rxLength (rxStore b s) = rxLength s := by
      unfold rxLength rxStore
      simp only [State.setRx_rx]
      rw [Memory.read_write_ne b hw (by omega), Memory.read_write_ne b hw (by omega)]
    have hcnt : (rxStore b s).rx.cnt = s.rx.cnt + 1 := rfl
    have hb : rxFeedByte b s = rxStore b s := by
      unfold rxFeedByte
      rw [hst]
      unfold rxByteBody
      simp only
      rw [if_neg (by omega)]
    rw [rxFeedPlain_cons, hb, ih (rxStore b s) hst (Memory.write_wf _ b hw) (by omega) (by omega)]
    unfold rxStore
    simp only [State.setRx_rx, State.setRx_setRx, Memory.writeList]
    congr 2
    omega

/-- Stream mode: five header bytes from HUNT, the first the sync byte (42_deframer.md R164, R168). -/
theorem rxFeedPlain_header (b1 b2 b3 b4 : Byte) (s : State) (hst : s.rx.st = .hunt) :
    rxFeedPlain [0xE7#8, b1, b2, b3, b4] s =
      rxHeaderVerdict (s.setRx { s.rx with
        st := .hdr, buf := s.rx.buf.writeList 0 [0xE7#8, b1, b2, b3, b4], cnt := 5 }) := by
  simp only [rxFeedPlain_cons, rxFeedPlain_nil]
  have h1 : rxFeedByte 0xE7#8 s = s.setRx { s.rx with buf := s.rx.buf.write 0 0xE7#8, cnt := 1, st := .hdr } := by
    unfold rxFeedByte
    rw [hst]
    rfl
  have h2 : ∀ (b : Byte) (t : State), t.rx.st = .hdr → t.rx.cnt < 4 → rxFeedByte b t = rxStore b t := by
    intro b t ht hc
    unfold rxFeedByte
    rw [ht]
    unfold rxByteHdr
    have hcnt : (rxStore b t).rx.cnt = t.rx.cnt + 1 := rfl
    simp only
    rw [if_neg (by omega)]
  rw [h1, h2 b1 _ rfl (by simp), h2 b2 _ rfl (by simp [rxStore]), h2 b3 _ rfl (by simp [rxStore])]
  rfl

/-- What a datagram's verdict leaves, on the bytes themselves. -/
theorem conclude_stored {v : RejectCode} {d : List Byte} {s u : State} (hu : u = s.setRx u.rx)
    (hst : u.rx.cnt = d.length) (hslice : u.rx.buf.slice 0 d.length = d)
    (hrest : ∀ a, d.length ≤ a → u.rx.buf.read a = s.rx.buf.read a)
    (hsame : u.rx.expect = s.rx.expect ∧ u.rx.err = s.rx.err ∧ u.rx.ovr = s.rx.ovr ∧ u.rx.code = s.rx.code
      ∧ u.rx.errcnt = s.rx.errcnt ∧ u.rx.disc = s.rx.disc) :
    if v = .none then HoldsFrame d s (conclude v u) else Rejected v d.length s (conclude v u) := by
  obtain ⟨he, herr, hovr, hcode, hcount, hdisc⟩ := hsame
  split
  · next hv =>
    subst hv
    refine ⟨rfl, ?_, he, herr, hovr, hcode, hcount, hdisc, hrest⟩
    show (if (accept u).rx.st = .ready then (accept u).rx.buf.slice 0 (accept u).rx.cnt else []) = d
    rw [if_pos (show (accept u).rx.st = .ready from rfl), show (accept u).rx.cnt = d.length from hst]
    exact hslice
  · next hv =>
    unfold conclude
    rw [if_neg hv]
    have hctrl : u.ctrl = s.ctrl := by rw [hu]; rfl
    refine ⟨rfl, rfl, ?_, rfl, ?_, he, hovr, hdisc, hrest⟩
    · rw [← hcount]; exact satInc_toNat u.rx.errcnt
    · rw [← hctrl]; rfl

theorem HoldsFrame.setObserved {d : List Byte} {s t : State} (o : List Observation) (h : HoldsFrame d s t) :
    HoldsFrame d s (t.setObserved o) :=
  ⟨h.st, h.frame, h.expect, h.err, h.ovr, h.code, h.errcnt, h.disc, h.buf⟩

theorem Rejected.setObserved {c : RejectCode} {n : Nat} {s t : State} (o : List Observation) (h : Rejected c n s t) :
    Rejected c n s (t.setObserved o) :=
  ⟨h.code_eq, h.err, h.errcnt, h.cnt, h.st, h.expect, h.ovr, h.disc, h.buf⟩

/-- Datagram mode: a datagram fed to an empty deframer gets the verdict on its bytes (42_deframer.md R163, R181). -/
theorem rxDatagram_accum (d : List Byte) (s : State) (hst : s.rx.st = .accum) (hc : s.rx.cnt = 0)
    (hw : s.rx.buf.wf = true) :
    if frameVerdict s.ctrl.syncchk s.ctrl.anyop s.rx.expect d = .none then HoldsFrame d s (rxDatagram d s)
    else Rejected (frameVerdict s.ctrl.syncchk s.ctrl.anyop s.rx.expect d) d.length s (rxDatagram d s) := by
  obtain ⟨l, -, -, he⟩ := rxDatagram_eq d s
  have hf := rxFeedPlain_accum d s hst (by omega)
  rw [hc, Nat.zero_add, Nat.sub_zero] at hf
  set u := rxFeedPlain d s with hu
  have hust : u.rx.st = .accum := by rw [hf]; exact hst
  have hend : rxEndDatagram u = conclude (verdictDgram u.rx.cnt u) u := by
    unfold rxEndDatagram; rw [if_pos hust]
  have hctrl : u.ctrl = s.ctrl := by rw [hf]; rfl
  have hexp : u.rx.expect = s.rx.expect := by rw [hf]; rfl
  by_cases hd : d.length ≤ 1034
  · rw [List.take_of_length_le hd, Nat.min_eq_left (by omega)] at hf
    have hslice : u.rx.buf.slice 0 d.length = d := by
      rw [hf]
      exact Memory.slice_writeList 0 d hw (by unfold Config.maxFrame; omega)
    have hcnt : u.rx.cnt = d.length := by rw [hf]; rfl
    have hv : verdictDgram u.rx.cnt u = frameVerdict s.ctrl.syncchk s.ctrl.anyop s.rx.expect d := by
      rw [hcnt, verdictDgram_eq u hd, hslice, hctrl, hexp]
    rw [← hv, he, hend]
    have := conclude_stored (v := verdictDgram u.rx.cnt u) (s := s) (by rw [hf]; rfl) hcnt hslice (by
      intro a ha
      rw [hf]
      simp only [State.setRx_rx]
      rw [Memory.read_writeList 0 d hw (by unfold Config.maxFrame; omega), if_neg (by omega)])
      (by rw [hf]; exact ⟨rfl, rfl, rfl, rfl, rfl, rfl⟩)
    split at this
    · next h0 => rw [if_pos h0]; exact this.setObserved _
    · next h0 => rw [if_neg h0]; exact this.setObserved _
  · have hv0 : frameVerdict s.ctrl.syncchk s.ctrl.anyop s.rx.expect d = .oversize := by
      unfold frameVerdict; rw [if_neg (by omega), if_pos (by omega)]
    have hcnt : u.rx.cnt = 1035 := by
      rw [hf]; simp only [State.setRx_rx]; omega
    rw [hv0, if_neg (by decide), he, hend, hcnt, verdictDgram_oversize u (by omega)]
    refine Rejected.setObserved _ ⟨rfl, rfl, ?_, rfl, ?_, hexp, ?_, ?_, ?_⟩
    · have : u.rx.errcnt = s.rx.errcnt := by rw [hf]; rfl
      rw [← this]; exact satInc_toNat u.rx.errcnt
    · rw [← hctrl]; rfl
    · show u.rx.ovr = s.rx.ovr
      rw [hf]; rfl
    · show u.rx.disc = s.rx.disc
      rw [hf]; rfl
    · intro a ha
      show u.rx.buf.read a = s.rx.buf.read a
      rw [hf]
      simp only [State.setRx_rx]
      rw [Memory.read_writeList 0 _ hw (by simp [Config.maxFrame]), if_neg (by simp; omega)]

/-- Stream mode: a sequence with the shape of a frame, fed to a hunting deframer, gets the tail checks
(42_deframer.md R164, R168, R169, R170). -/
theorem rxFeedPlain_stream (d : List Byte) (s : State) (hst : s.rx.st = .hunt) (hw : s.rx.buf.wf = true)
    (h6 : 6 ≤ d.length) (hn : d.length ≤ 1034) (h0 : d.getD 0 0#8 = 0xE7#8)
    (hh : d.getD 4 0#8 = sum8 (d.take 4)) (hL : (le16 (d.getD 2 0#8) (d.getD 3 0#8)).toNat = d.length - 5) :
    rxFeedPlain d s =
      conclude (tailVerdict s.ctrl.anyop s.rx.expect d)
        (s.setRx { s.rx with st := .body, buf := s.rx.buf.writeList 0 d, cnt := d.length }) := by
  match d, h6 with
  | b0 :: b1 :: b2 :: b3 :: b4 :: b5 :: rest, _ =>
  simp only [List.getD_cons_zero, List.getD_cons_succ, List.length_cons] at h0 hh hL hn
  subst h0
  obtain ⟨mid, last, hml⟩ : ∃ (mid : List Byte) (last : Byte), b5 :: rest = mid ++ [last] :=
    ⟨(b5 :: rest).dropLast, (b5 :: rest).getLast (by simp), (List.dropLast_append_getLast _).symm⟩
  have hmid : mid.length = rest.length := by
    have := congrArg List.length hml
    simp at this; omega
  have hsplit : (0xE7#8 :: b1 :: b2 :: b3 :: b4 :: b5 :: rest : List Byte) = [0xE7#8, b1, b2, b3, b4] ++ (mid ++ [last]) := by
    rw [← hml]; rfl
  set d := (0xE7#8 :: b1 :: b2 :: b3 :: b4 :: b5 :: rest : List Byte) with hd
  have hdl : d.length = rest.length + 6 := by simp [hd]
  set hdr := s.rx.buf.writeList 0 [0xE7#8, b1, b2, b3, b4] with hhdr
  have hhw : hdr.wf = true := Memory.writeList_wf _ _ hw
  have hr : ∀ j, j < 5 → hdr.read j = ([0xE7#8, b1, b2, b3, b4] : List Byte).getD j 0#8 := by
    intro j hj
    rw [hhdr, Memory.read_writeList 0 _ hw (by simp [Config.maxFrame])]
    rw [if_pos (by simp; omega)]
    rfl
  have hs4 : hdr.slice 0 4 = [0xE7#8, b1, b2, b3] :=
    Memory.slice_eq (s := [0xE7#8, b1, b2, b3]) (by
      intro i hi
      simp only [List.length_cons, List.length_nil] at hi
      rw [Nat.zero_add, hr i (by omega)]
      interval_cases i <;> rfl)
  have hhead : rxFeedPlain [0xE7#8, b1, b2, b3, b4] s =
      s.setRx { s.rx with st := .body, buf := hdr, cnt := 5 } := by
    rw [rxFeedPlain_header b1 b2 b3 b4 s hst]
    unfold rxHeaderVerdict
    have hok : headerOk (s.setRx { s.rx with st := .hdr, buf := hdr, cnt := 5 }) = true := by
      rw [headerOk_iff]
      simp only [State.setRx_rx]
      rw [hs4, hr 4 (by omega)]
      exact hh
    have hlen : rxLength (s.setRx { s.rx with st := .hdr, buf := hdr, cnt := 5 }) = rest.length + 1 := by
      unfold rxLength
      simp only [State.setRx_rx]
      rw [hr 2 (by omega), hr 3 (by omega)]
      simp only [List.getD_cons_zero, List.getD_cons_succ]
      omega
    rw [if_neg (fun e => Bool.noConfusion (hok.symm.trans e)), if_neg (by rw [hlen]; unfold Config.lenMax; omega)]
    rfl
  set t := s.setRx { s.rx with st := .body, buf := hdr, cnt := 5 } with ht
  have htl : rxLength t = rest.length + 1 := by
    unfold rxLength
    rw [ht]
    simp only [State.setRx_rx]
    rw [hr 2 (by omega), hr 3 (by omega)]
    simp only [List.getD_cons_zero, List.getD_cons_succ]
    omega
  have hmidfeed := rxFeedPlain_body mid t rfl hhw (le_refl 5) (by
    show 5 + mid.length < 5 + rxLength t
    omega)
  rw [hsplit, rxFeedPlain_append, hhead, rxFeedPlain_append, hmidfeed, rxFeedPlain_cons, rxFeedPlain_nil]
  set m := hdr.writeList 5 mid with hm
  have hmw : m.wf = true := Memory.writeList_wf _ _ hhw
  have hwl : ∀ (a : Memory) (i : Nat) (x y : List Byte), a.writeList i (x ++ y) = (a.writeList i x).writeList (i + x.length) y := by
    intro a i x
    induction x generalizing a i with
    | nil => intro y; rfl
    | cons c x ih => intro y; simp only [List.cons_append, Memory.writeList, ih, List.length_cons]; congr 1; omega
  have hfull : s.rx.buf.writeList 0 d = m.write (5 + mid.length) last := by
    rw [hsplit, hwl, hwl]; rfl
  have hst5 : rxStore last (t.setRx { t.rx with buf := m, cnt := 5 + mid.length }) =
      s.setRx { s.rx with st := .body, buf := s.rx.buf.writeList 0 d, cnt := d.length } := by
    rw [hfull, hdl, ← hmid]
    unfold rxStore
    rw [ht]
    simp only [State.setRx_rx, State.setRx_setRx]
    congr 2
    omega
  have hslice : (s.rx.buf.writeList 0 d).slice 0 d.length = d :=
    Memory.slice_writeList 0 d hw (by unfold Config.maxFrame; omega)
  have hread : ∀ j, j < d.length → (s.rx.buf.writeList 0 d).read j = d.getD j 0#8 := by
    intro j hj
    rw [Memory.read_writeList 0 d hw (by unfold Config.maxFrame; omega), if_pos (by omega)]
    rfl
  show rxFeedByte last (t.setRx { t.rx with buf := m, cnt := 5 + mid.length }) = _
  have hb : rxFeedByte last (t.setRx { t.rx with buf := m, cnt := 5 + mid.length }) =
      rxByteBody last (t.setRx { t.rx with buf := m, cnt := 5 + mid.length }) := rfl
  rw [hb]
  unfold rxByteBody
  simp only [hst5]
  have hlen2 : rxLength (s.setRx { s.rx with st := .body, buf := s.rx.buf.writeList 0 d, cnt := d.length }) =
      rest.length + 1 := by
    unfold rxLength
    simp only [State.setRx_rx]
    rw [hread 2 (by omega), hread 3 (by omega)]
    simp only [hd, List.getD_cons_zero, List.getD_cons_succ]
    omega
  rw [if_pos (by rw [hlen2]; simp only [State.setRx_rx]; omega), ← hsplit]
  congr 1
  rw [verdictTail_eq _ (by simp only [State.setRx_rx]; omega)]
  simp only [State.setRx_rx, State.setRx_ctrl]
  rw [hslice]

end Sys2Proof.Machine
end

