-- ==== Sys2Proof/Laws/Framer.lean ====
section
/-! SUPPORT. The framer: what an append stores, and that closing a frame makes the encoding of its payload. -/

namespace Sys2Proof.Machine

/-- Closing the frame leaves the payload in place (43_framer.md R206). -/
theorem txClose_wf {t : Tx} (h : t.buf.wf = true) : (txClose t).wf = true :=
  Memory.write_wf _ _ (Memory.write_wf _ _ (Memory.writeList_wf _ _ h))

/-- Every byte of the closed frame's buffer (43_framer.md R206). -/
theorem txClose_read {t : Tx} (h : t.buf.wf = true) (hp : t.plen ≤ 1028) (a : Nat) :
    (txClose t).read a =
      if a < t.plen + 6 then (mkFrame t.op (t.buf.slice 5 t.plen)).getD a 0#8 else t.buf.read a := by
  have h1 : (t.buf.writeList 0 (headerBytes t.op t.plen)).wf = true := Memory.writeList_wf _ _ h
  have hr1 : ∀ j, (t.buf.writeList 0 (headerBytes t.op t.plen)).read j =
      if j < 4 then (headerBytes t.op t.plen).getD j 0#8 else t.buf.read j := by
    intro j
    rw [Memory.read_writeList 0 _ h (by simp [Config.maxFrame])]
    simp
  have hs1 : (t.buf.writeList 0 (headerBytes t.op t.plen)).slice 0 4 = headerBytes t.op t.plen :=
    Memory.slice_writeList 0 (headerBytes t.op t.plen) h (by simp [Config.maxFrame])
  set m1 := t.buf.writeList 0 (headerBytes t.op t.plen) with hm1
  have h2 : (m1.write 4 (sum8 (m1.slice 0 4))).wf = true := Memory.write_wf _ _ h1
  have hr2 : ∀ j, (m1.write 4 (sum8 (m1.slice 0 4))).read j =
      if j = 4 then sum8 (headerBytes t.op t.plen) else m1.read j := by
    intro j
    rw [Memory.read_write 4 _ h1, hs1]
    simp [Config.maxFrame]
  set m2 := m1.write 4 (sum8 (m1.slice 0 4)) with hm2
  have hbody : m2.slice 0 (5 + t.plen) = frameBody t.op (t.buf.slice 5 t.plen) := by
    have hlen : (frameBody t.op (t.buf.slice 5 t.plen)).length = 5 + t.plen := by simp; omega
    rw [← hlen]
    apply Memory.slice_eq
    intro i hi
    rw [hlen] at hi
    rw [Nat.zero_add, hr2]
    simp only [frameBody, Memory.slice_length]
    by_cases h4 : i < 4
    · rw [if_neg (by omega), hr1, if_pos h4]
      rw [List.getD, List.getD, List.getElem?_append_left (by simpa using h4)]
    · by_cases h5 : i = 4
      · subst h5
        rw [List.getD, List.getElem?_append_right (by simp)]
        simp
      · obtain ⟨k, rfl⟩ : ∃ k, i = 5 + k := ⟨i - 5, by omega⟩
        rw [if_neg (by omega), hr1, if_neg (by omega)]
        have : (headerBytes t.op t.plen).length ≤ 5 + k := by simp; omega
        rw [List.getD, List.getElem?_append_right this, headerBytes_length, show 5 + k - 4 = k + 1 by omega,
          List.getElem?_cons_succ, ← List.getD, Memory.getD_slice _ _ _ _ (by omega)]
  have hfin : txClose t = m2.write (5 + t.plen) (sum8 (m2.slice 0 (5 + t.plen))) := rfl
  rw [hfin, Memory.read_write _ _ h2, hbody]
  have hb : 5 + t.plen < Config.maxFrame := by unfold Config.maxFrame; omega
  by_cases ha : a = 5 + t.plen
  · have : (mkFrame t.op (t.buf.slice 5 t.plen)).getD a 0#8 = sum8 (frameBody t.op (t.buf.slice 5 t.plen)) := by
      have := mkFrame_last t.op (t.buf.slice 5 t.plen)
      rw [Memory.slice_length] at this
      rw [ha, Nat.add_comm 5]; exact this
    rw [if_pos ⟨ha, hb⟩, if_pos (by omega), this]
  · rw [if_neg (by simp [ha])]
    by_cases hlt : a < t.plen + 6
    · rw [if_pos hlt]
      have hal : a < 5 + t.plen := by omega
      have := congrArg (fun l => l.getD a 0#8) hbody
      rw [Memory.getD_slice _ _ _ _ hal, Nat.zero_add] at this
      rw [this, mkFrame]
      have hlen : a < (frameBody t.op (t.buf.slice 5 t.plen)).length := by simp; omega
      simp [List.getD, List.getElem?_append_left hlen]
    · rw [if_neg hlt, hr2, if_neg (by omega), hr1, if_neg (by omega)]

/-- The closed frame is the encoding of the payload in the buffer (43_framer.md R206, R208). -/
theorem txClose_slice {t : Tx} (h : t.buf.wf = true) (hp : t.plen ≤ 1028) :
    (txClose t).slice 0 (t.plen + 6) = mkFrame t.op (t.buf.slice 5 t.plen) := by
  have hl : (mkFrame t.op (t.buf.slice 5 t.plen)).length = t.plen + 6 := by simp
  rw [← hl]
  apply Memory.slice_eq
  intro i hi
  rw [Nat.zero_add, txClose_read h hp, if_pos (by omega)]

/-- Closing keeps the payload bytes themselves. -/
theorem txClose_payload {t : Tx} (h : t.buf.wf = true) (hp : t.plen ≤ 1028) :
    (txClose t).slice 5 t.plen = t.buf.slice 5 t.plen := by
  have h1 := congrArg (fun l => ((l.take (t.plen + 5)).drop 5)) (txClose_slice h hp)
  have h2 := mkFrame_payload t.op (t.buf.slice 5 t.plen)
  rw [Memory.slice_length] at h2
  rw [h2, Memory.slice_take _ _ (by omega), Nat.add_comm t.plen 5, Memory.slice_add] at h1
  rw [List.drop_left' (by simp)] at h1
  simpa using h1

/-- TX_END keeps the framer's invariant. -/
theorem txClose_inv {t : Tx} (h : TxInv t) : TxInv { t with buf := txClose t, isOpen := false, rdy := true } where
  wf := txClose_wf h.wf
  plen := h.plen
  phase := by simp
  built := fun _ => by
    simp only
    rw [txClose_payload h.wf h.plen]
    exact txClose_slice h.wf h.plen
  err_code := h.err_code

/-- An append to an open frame with room: the payload grows by the bytes (43_framer.md R203 to R205). -/
theorem txAppend_open {l : List Byte} {s : State} (ho : s.tx.isOpen = true) (hl : s.tx.plen + l.length ≤ 1028) :
    txAppend l s =
      s.setTx { s.tx with buf := s.tx.buf.writeList (5 + s.tx.plen) l, plen := s.tx.plen + l.length } := by
  unfold txAppend
  rw [if_neg (by simp [ho]), if_neg (by unfold Config.maxPayload; omega)]

/-- The payload after an append is the payload before it, then the bytes. -/
theorem txAppend_payload {l : List Byte} {t : Tx} (h : t.buf.wf = true) (hl : t.plen + l.length ≤ 1028) :
    (t.buf.writeList (5 + t.plen) l).slice 5 (t.plen + l.length) = t.buf.slice 5 t.plen ++ l := by
  have hb : 5 + t.plen + l.length ≤ Config.maxFrame := by unfold Config.maxFrame; omega
  rw [Memory.slice_add, Memory.slice_writeList _ _ h hb]
  congr 1
  apply Memory.slice_congr
  intro i hi
  rw [Memory.read_writeList _ _ h hb, if_neg (by omega)]

end Sys2Proof.Machine
end

