-- ==== Sys2Proof/Laws/Independence.lean ====
section
/-! SUPPORT. The deframer reads nothing but itself and the control bits, so that what the other units hold cannot change
what it does. -/

namespace Sys2Proof.Machine

/-- Two states with the same deframer and the same control bits, all that the deframer reads (43_framer.md R209). -/
def RxSame (s u : State) : Prop := u.ctrl = s.ctrl ∧ u.rx = s.rx

theorem RxSame.idle {s u : State} (h : RxSame s u) : rxIdle u = rxIdle s := by unfold rxIdle; rw [h.1]

theorem RxSame.reject {s u : State} (h : RxSame s u) (c : RejectCode) : RxSame (reject c s) (reject c u) :=
  ⟨h.1, by simp only [Machine.reject, State.setRx_rx, h.2, h.idle]⟩

theorem RxSame.accept {s u : State} (h : RxSame s u) : RxSame (accept s) (accept u) :=
  ⟨h.1, by simp only [Machine.accept, State.setRx_rx, h.2]⟩

theorem RxSame.conclude {s u : State} (h : RxSame s u) (c : RejectCode) : RxSame (conclude c s) (conclude c u) := by
  unfold Machine.conclude
  split
  · exact h.accept
  · exact h.reject c

theorem RxSame.rxStore {s u : State} (h : RxSame s u) (b : Byte) : RxSame (rxStore b s) (rxStore b u) :=
  ⟨h.1, by simp only [Machine.rxStore, State.setRx_rx, h.2]⟩

theorem RxSame.headerOk {s u : State} (h : RxSame s u) : headerOk u = headerOk s := by
  unfold Machine.headerOk; rw [h.2]

theorem RxSame.rxLength {s u : State} (h : RxSame s u) : rxLength u = rxLength s := by
  unfold Machine.rxLength; rw [h.2]

theorem RxSame.opOk {s u : State} (h : RxSame s u) (op : Byte) : opOk op u = opOk op s := by
  unfold Machine.opOk; rw [h.1, h.2]

theorem RxSame.verdictTail {s u : State} (h : RxSame s u) (n : Nat) : verdictTail n u = verdictTail n s := by
  simp only [Machine.verdictTail, h.2, h.opOk]

theorem RxSame.verdictDgram {s u : State} (h : RxSame s u) (n : Nat) : verdictDgram n u = verdictDgram n s := by
  simp only [Machine.verdictDgram, h.1, h.2, h.headerOk, h.rxLength, h.verdictTail]

/-- What a byte does to the deframer is a function of the deframer and the control bits. -/
theorem RxSame.rxFeedByte {s u : State} (h : RxSame s u) (b : Byte) : RxSame (rxFeedByte b s) (rxFeedByte b u) := by
  have hs := h.rxStore b
  unfold Machine.rxFeedByte
  rw [h.2]
  split
  · unfold rxByteHunt
    split <;> exact ⟨h.1, by simp only [State.setRx_rx, h.2]⟩
  · unfold rxByteHdr
    simp only
    by_cases h5 : (Machine.rxStore b s).rx.cnt = 5
    · rw [if_pos h5, if_pos (by rw [hs.2]; exact h5)]
      unfold rxHeaderVerdict
      rw [hs.headerOk, hs.rxLength]
      split_ifs
      · exact hs.reject _
      · exact hs.reject _
      · exact ⟨hs.1, by simp only [State.setRx_rx, hs.2]⟩
    · rw [if_neg h5, if_neg (by rw [hs.2]; exact h5)]; exact hs
  · unfold rxByteBody
    simp only
    rw [hs.rxLength]
    by_cases h5 : (Machine.rxStore b s).rx.cnt = 5 + Machine.rxLength (Machine.rxStore b s)
    · rw [if_pos h5, if_pos (by rw [hs.2]; exact h5), hs.2, hs.verdictTail]
      exact hs.conclude _
    · rw [if_neg h5, if_neg (by rw [hs.2]; exact h5)]; exact hs
  · exact ⟨h.1, by simp only [rxByteAccum, State.setRx_rx, h.2]⟩
  · exact ⟨h.1, by simp only [rxOverrun, State.setRx_rx, h.2]⟩

theorem RxSame.rxEndDatagram {s u : State} (h : RxSame s u) : RxSame (rxEndDatagram s) (rxEndDatagram u) := by
  unfold Machine.rxEndDatagram
  rw [h.2, h.verdictDgram]
  split
  · exact h.conclude _
  · exact h

theorem RxSame.rxReset {s u : State} (h : RxSame s u) : RxSame (rxReset s) (rxReset u) :=
  ⟨h.1, by simp only [Machine.rxReset, State.setRx_rx, h.2, h.idle]⟩

theorem RxSame.rxRelease {s u : State} (h : RxSame s u) : RxSame (rxRelease s) (rxRelease u) := by
  unfold Machine.rxRelease
  rw [h.2]
  split
  · exact ⟨h.1, by simp only [State.setRx_rx, h.idle]⟩
  · exact h

/-- An operation that touches only the deframer, and reads only it and the control bits, commutes with any change of
the rest. -/
theorem rx_commutes {f : State → State} {g : State → State} {s : State} (hf : ∀ s, SameButRx s (f s))
    (hr : (f (g s)).rx = (f s).rx) (hg : ∀ r, (g s).setRx r = g (s.setRx r)) : f (g s) = g (f s) := by
  rw [hf (g s), hr, hg]
  conv_rhs => rw [hf s]

theorem setCtrl_ite (p : Prop) [Decidable p] (x y : State) (k : Ctrl) :
    (if p then x else y).setCtrl k = if p then x.setCtrl k else y.setCtrl k := by split <;> rfl

/-- A received byte is treated the same whatever SYNCCHK is. -/
theorem rxFeedByte_syncchk (s : State) (b : Byte) (c : Bool) :
    rxFeedByte b (s.setCtrl { s.ctrl with syncchk := c }) = (rxFeedByte b s).setCtrl { s.ctrl with syncchk := c } := by
  obtain ⟨⟨d, sc, ao, i1, i2, i3⟩, w, cs, crc, ⟨st, buf, cnt, ex, er, ov, co, ec, di⟩, tx, ce, pe, ob⟩ := s
  cases st
  · simp only [rxFeedByte, rxByteHunt, setCtrl_ite]; rfl
  · simp only [rxFeedByte, rxByteHdr, rxHeaderVerdict, setCtrl_ite]; rfl
  · simp only [rxFeedByte, rxByteBody, conclude, setCtrl_ite]; rfl
  · rfl
  · rfl

end Sys2Proof.Machine
end

