-- ==== Sys2Proof/Laws/Messages.lean ====
section
/-! SUPPORT. The arrival of a frame at an empty deframer, in either mode, and the views of a held frame. -/

namespace Sys2Proof.Machine

/-- The stored candidate of a whole sequence, in stream mode, concluded. -/
theorem conclude_whole (v : RejectCode) (d : List Byte) (s : State) (hw : s.rx.buf.wf = true) (hn : d.length ≤ 1034)
    (st : RxSt) :
    if v = .none then HoldsFrame d s (conclude v (s.setRx { s.rx with st := st, buf := s.rx.buf.writeList 0 d, cnt := d.length }))
    else Rejected v d.length s (conclude v (s.setRx { s.rx with st := st, buf := s.rx.buf.writeList 0 d, cnt := d.length })) := by
  apply conclude_stored
  · rfl
  · rfl
  · exact Memory.slice_writeList 0 d hw (by unfold Config.maxFrame; omega)
  · intro a ha
    simp only [State.setRx_rx]
    rw [Memory.read_writeList 0 d hw (by unfold Config.maxFrame; omega), if_neg (by omega)]
  · exact ⟨rfl, rfl, rfl, rfl, rfl, rfl⟩

/-- Stream mode: a whole frame-shaped sequence fed to a hunting deframer. -/
theorem rxFeedPlain_hunt (d : List Byte) (s : State) (hst : s.rx.st = .hunt) (hw : s.rx.buf.wf = true)
    (h6 : 6 ≤ d.length) (hn : d.length ≤ 1034) (h0 : d.getD 0 0#8 = 0xE7#8)
    (hh : d.getD 4 0#8 = sum8 (d.take 4)) (hL : (le16 (d.getD 2 0#8) (d.getD 3 0#8)).toNat = d.length - 5) :
    if tailVerdict s.ctrl.anyop s.rx.expect d = .none then HoldsFrame d s (rxFeedPlain d s)
    else Rejected (tailVerdict s.ctrl.anyop s.rx.expect d) d.length s (rxFeedPlain d s) := by
  rw [rxFeedPlain_stream d s hst hw h6 hn h0 hh hL]
  exact conclude_whole _ d s hw hn .body

/-- In stream mode RX_EOD does nothing (42_deframer.md R175). -/
theorem rxEndDatagram_stream {s : State} (h : s.rx.st ≠ .accum) : rxEndDatagram s = s := by
  unfold rxEndDatagram; rw [if_neg h]

/-- The arrival of a frame at an empty deframer, in either mode (42_deframer.md R163, R169, R170). -/
theorem rxDatagram_mkFrame (op : Byte) (p : List Byte) (s : State) (hi : RxInv s.ctrl.dgram s.rx) (he : RxEmpty s)
    (hp : p.length ≤ 1028) :
    if opOk op s = false then Rejected .op (p.length + 6) s (rxDatagram (mkFrame op p) s)
    else if shapeOk op p.length = false then Rejected .shape (p.length + 6) s (rxDatagram (mkFrame op p) s)
    else HoldsFrame (mkFrame op p) s (rxDatagram (mkFrame op p) s) := by
  have hw := hi.record.wf
  have hop : (opOk op s = false) ↔ ¬(s.ctrl.anyop = true ∨ op = s.rx.expect ∨ op = 0xFF#8) := by
    simp [opOk, and_assoc]
  have hv : ∀ v : RejectCode, (if v = .none then HoldsFrame (mkFrame op p) s (rxDatagram (mkFrame op p) s)
      else Rejected v (mkFrame op p).length s (rxDatagram (mkFrame op p) s)) →
      v = (if ¬(s.ctrl.anyop = true ∨ op = s.rx.expect ∨ op = 0xFF#8) then .op
        else if shapeOk op p.length = false then .shape else .none) →
      if opOk op s = false then Rejected .op (p.length + 6) s (rxDatagram (mkFrame op p) s)
      else if shapeOk op p.length = false then Rejected .shape (p.length + 6) s (rxDatagram (mkFrame op p) s)
      else HoldsFrame (mkFrame op p) s (rxDatagram (mkFrame op p) s) := by
    intro v h hv
    rw [mkFrame_length] at h
    subst hv
    split_ifs with h1 h2
    · rw [if_pos (hop.1 h1), if_neg (by decide)] at h; exact h
    · rw [if_neg (fun e => h1 (hop.2 e)), if_pos h2, if_neg (by decide)] at h; exact h
    · rw [if_neg (fun e => h1 (hop.2 e)), if_neg h2, if_pos rfl] at h; exact h
  obtain ⟨hst | hst, hc⟩ := he
  · exact hv _ (rxDatagram_accum (mkFrame op p) s hst hc hw) (frameVerdict_mkFrame _ _ _ op p hp)
  · have hl := mkFrame_lengthField op p hp
    have hf := rxFeedPlain_hunt (mkFrame op p) s hst hw (by simp) (by simp; omega) rfl
      (by rw [mkFrame_hcs, mkFrame_header]) (by rw [hl, mkFrame_length]; omega)
    have hst' : (rxFeedPlain (mkFrame op p) s).rx.st ≠ .accum := by
      have hd : s.ctrl.dgram = false := by
        have := hi.st
        simp only [RxStInv, hst] at this
        exact this.1
      split at hf
      · rw [hf.st]; decide
      · rw [hf.st, hd]; decide
    have hfv := frameVerdict_mkFrame s.ctrl.syncchk s.ctrl.anyop s.rx.expect op p hp
    have htv : tailVerdict s.ctrl.anyop s.rx.expect (mkFrame op p) =
        frameVerdict s.ctrl.syncchk s.ctrl.anyop s.rx.expect (mkFrame op p) := by
      unfold frameVerdict
      rw [if_neg (by simp), if_neg (by simp; omega), if_neg (by rw [mkFrame_sync]; simp),
        if_neg (by rw [mkFrame_hcs, mkFrame_header]; simp), if_neg (by rw [hl]; simp)]
    obtain ⟨l, -, -, hd⟩ := rxDatagram_eq (mkFrame op p) s
    rw [rxEndDatagram_stream hst'] at hd
    refine hv (tailVerdict s.ctrl.anyop s.rx.expect (mkFrame op p)) ?_ (htv.trans hfv)
    rw [hd]
    split at hf
    · next h0 => rw [if_pos h0]; exact hf.setObserved _
    · next h0 => rw [if_neg h0]; exact hf.setObserved _

/-! ### The views of a held frame -/

theorem holdsFrame_cnt {d : List Byte} {s t : State} (h : HoldsFrame d s t) : t.rx.cnt = d.length := by
  have hf := h.frame
  unfold rxFrame at hf
  rw [if_pos h.st] at hf
  have := congrArg List.length hf
  simpa using this

theorem holdsFrame_read {d : List Byte} {s t : State} (h : HoldsFrame d s t) {i : Nat} (hi : i < d.length) :
    t.rx.buf.read i = d.getD i 0#8 := by
  have hf := h.frame
  unfold rxFrame at hf
  rw [if_pos h.st, holdsFrame_cnt h] at hf
  rw [← hf, Memory.getD_slice _ _ _ _ hi, Nat.zero_add]

/-- Payload byte `i` of the held frame, 0 past the payload (10_state.md R37). -/
theorem holdsFrame_payload {op : Byte} {p : List Byte} {s t : State} (h : HoldsFrame (mkFrame op p) s t) (i : Nat) :
    rxPayload t i = p.getD i 0#8 := by
  have hc := holdsFrame_cnt h
  rw [mkFrame_length] at hc
  unfold rxPayload
  rw [hc, Nat.add_sub_cancel]
  by_cases hi : i < p.length
  · rw [if_pos ⟨h.st, hi⟩, holdsFrame_read h (by simp; omega)]
    have := congrArg (fun l => l.getD i 0#8) (mkFrame_payload op p)
    simp only [List.getD, List.getElem?_drop] at this ⊢
    rw [← this, List.getElem?_take, if_pos (by omega)]
  · rw [if_neg (fun hh => hi hh.2), List.getD, List.getElem?_eq_none (by omega)]; rfl

/-- RX_W0 of a held message (10_state.md R37). -/
theorem holdsFrame_w0 {op : Byte} {p : List Byte} {s t : State} (h : HoldsFrame (mkFrame op p) s t) :
    readReg .rxW0 t = le32 (p.getD 0 0#8) (p.getD 1 0#8) (p.getD 2 0#8) (p.getD 3 0#8) := by
  simp only [readReg, holdsFrame_payload h]

/-- RX_W1 of a held message (10_state.md R38). -/
theorem holdsFrame_w1 {op : Byte} {p : List Byte} {s t : State} (h : HoldsFrame (mkFrame op p) s t) :
    readReg .rxW1 t = le32 (p.getD 4 0#8) (p.getD 5 0#8) (p.getD 6 0#8) (p.getD 7 0#8) := by
  simp only [readReg, holdsFrame_payload h]

/-- RX_WT of a held message (10_state.md R39). -/
theorem holdsFrame_wt {op : Byte} {p : List Byte} {s t : State} (h : HoldsFrame (mkFrame op p) s t) :
    readReg .rxWt t =
      if 4 ≤ p.length then
        le32 (p.getD (p.length - 4) 0#8) (p.getD (p.length - 3) 0#8) (p.getD (p.length - 2) 0#8)
          (p.getD (p.length - 1) 0#8)
      else 0#32 := by
  have hc := holdsFrame_cnt h
  rw [mkFrame_length] at hc
  simp only [readReg, rxTailWord, hc, Nat.add_sub_cancel, holdsFrame_payload h]
  by_cases hl : 4 ≤ p.length
  · rw [if_pos ⟨h.st, hl⟩, if_pos hl]
  · rw [if_neg (fun hh => hl hh.2), if_neg hl]

/-- A message that is expected and well formed arrives. -/
theorem exec_message_holds {i : Instr} {op : Byte} {p : List Byte} {s : State} (henc : encode i = .frame (mkFrame op p))
    (hi : Inv s) (he : RxEmpty s) (hop : opOk op s = true) (hp : p.length ≤ 1028) (hs : shapeOk op p.length = true) :
    ∃ t, exec i s = .next t ∧ HoldsFrame (mkFrame op p) s t ∧ OnlyReceived (p.length + 6) s t := by
  refine ⟨_, exec_message henc s, ?_, ?_⟩
  · have := rxDatagram_mkFrame op p s hi.rx he hp
    rwa [if_neg (by rw [hop]; decide), if_neg (by rw [hs]; decide)] at this
  · have := rxDatagram_onlyReceived (mkFrame op p) s
    rwa [mkFrame_length] at this

end Sys2Proof.Machine
end

