-- ==== Sys2Proof/Laws/PerInstr.lean ====
section
/-! SUPPORT. One law for every instruction, about its encoding: a command's word has its reserved bits 0 and an OPC that
is no wire op code; a message's frame is of a legal length and starts with the sync byte and a defined op code
(30_encoding.md R90, R93, R96, R100). -/

/-- The shape of a well-formed instruction's image. -/
def Sys2Proof.Laws.ImageShape.Statement (i : Sys2Proof.Instr) : Prop :=
  i.wellFormed = true →
    match Sys2Proof.encode i with
    | .command w => w.extractLsb' 16 16 = 0#16 ∧ Sys2Proof.Machine.opDefined (Sys2Proof.opcOf w) = false
    | .frame d =>
      6 ≤ d.length ∧ d.length ≤ 1034 ∧ d.getD 0 0#8 = 0xE7#8 ∧ Sys2Proof.Machine.opDefined (d.getD 1 0#8) = true

/-- A command word's reserved bits are 0. -/
theorem Sys2Proof.Laws.commandWord_reserved (opc b : Sys2Proof.Byte) :
    (Sys2Proof.commandWord opc b).extractLsb' 16 16 = 0#16 := by
  apply BitVec.eq_of_getLsbD_eq
  intro i hi
  simp only [Sys2Proof.commandWord, BitVec.getLsbD_extractLsb', BitVec.getLsbD_append, hi, decide_true, Bool.true_and]
  rw [if_neg (by omega), if_neg (by omega)]
  simp

/-- The image of a command. -/
theorem Sys2Proof.Laws.commandShape {i : Sys2Proof.Instr} {opc b : Sys2Proof.Byte}
    (he : Sys2Proof.encode i = .command (Sys2Proof.commandWord opc b)) (ho : Sys2Proof.Machine.opDefined opc = false) :
    Sys2Proof.Laws.ImageShape.Statement i := by
  intro _
  rw [he]
  exact ⟨Sys2Proof.Laws.commandWord_reserved opc b, by rw [Sys2Proof.opcOf_commandWord]; exact ho⟩

/-- The image of a message. -/
theorem Sys2Proof.Laws.messageShape {i : Sys2Proof.Instr} {op : Sys2Proof.Byte} {p : List Sys2Proof.Byte}
    (he : Sys2Proof.encode i = .frame (Sys2Proof.Machine.mkFrame op p)) (ho : Sys2Proof.Machine.opDefined op = true)
    (hp : i.wellFormed = true → p.length ≤ 1028) : Sys2Proof.Laws.ImageShape.Statement i := by
  intro hw
  rw [he]
  have := hp hw
  refine ⟨?_, ?_, rfl, ho⟩
  · rw [Sys2Proof.Machine.mkFrame_length]; omega
  · rw [Sys2Proof.Machine.mkFrame_length]; omega

theorem Sys2Proof.Laws.ImageShape.nop : Sys2Proof.Laws.ImageShape.Statement .nop := Sys2Proof.Laws.commandShape rfl rfl

theorem Sys2Proof.Laws.ImageShape.csClr : Sys2Proof.Laws.ImageShape.Statement .csClr := Sys2Proof.Laws.commandShape rfl rfl

theorem Sys2Proof.Laws.ImageShape.csAdd (b : Sys2Proof.Byte) : Sys2Proof.Laws.ImageShape.Statement (.csAdd b) := Sys2Proof.Laws.commandShape rfl rfl

theorem Sys2Proof.Laws.ImageShape.csAddw : Sys2Proof.Laws.ImageShape.Statement .csAddw := Sys2Proof.Laws.commandShape rfl rfl

theorem Sys2Proof.Laws.ImageShape.csCmp (b : Sys2Proof.Byte) : Sys2Proof.Laws.ImageShape.Statement (.csCmp b) := Sys2Proof.Laws.commandShape rfl rfl

theorem Sys2Proof.Laws.ImageShape.rxRst : Sys2Proof.Laws.ImageShape.Statement .rxRst := Sys2Proof.Laws.commandShape rfl rfl

theorem Sys2Proof.Laws.ImageShape.rxByte (b : Sys2Proof.Byte) : Sys2Proof.Laws.ImageShape.Statement (.rxByte b) := Sys2Proof.Laws.commandShape rfl rfl

theorem Sys2Proof.Laws.ImageShape.rxEod : Sys2Proof.Laws.ImageShape.Statement .rxEod := Sys2Proof.Laws.commandShape rfl rfl

theorem Sys2Proof.Laws.ImageShape.rxAck : Sys2Proof.Laws.ImageShape.Statement .rxAck := Sys2Proof.Laws.commandShape rfl rfl

theorem Sys2Proof.Laws.ImageShape.rxExpect (b : Sys2Proof.Byte) : Sys2Proof.Laws.ImageShape.Statement (.rxExpect b) := Sys2Proof.Laws.commandShape rfl rfl

theorem Sys2Proof.Laws.ImageShape.txBegin (b : Sys2Proof.Byte) : Sys2Proof.Laws.ImageShape.Statement (.txBegin b) := Sys2Proof.Laws.commandShape rfl rfl

theorem Sys2Proof.Laws.ImageShape.txPut (b : Sys2Proof.Byte) : Sys2Proof.Laws.ImageShape.Statement (.txPut b) := Sys2Proof.Laws.commandShape rfl rfl

theorem Sys2Proof.Laws.ImageShape.txPutw : Sys2Proof.Laws.ImageShape.Statement .txPutw := Sys2Proof.Laws.commandShape rfl rfl

theorem Sys2Proof.Laws.ImageShape.txPutcrc : Sys2Proof.Laws.ImageShape.Statement .txPutcrc := Sys2Proof.Laws.commandShape rfl rfl

theorem Sys2Proof.Laws.ImageShape.txEnd : Sys2Proof.Laws.ImageShape.Statement .txEnd := Sys2Proof.Laws.commandShape rfl rfl

theorem Sys2Proof.Laws.ImageShape.crcInit : Sys2Proof.Laws.ImageShape.Statement .crcInit := Sys2Proof.Laws.commandShape rfl rfl

theorem Sys2Proof.Laws.ImageShape.crcByte (b : Sys2Proof.Byte) : Sys2Proof.Laws.ImageShape.Statement (.crcByte b) := Sys2Proof.Laws.commandShape rfl rfl

theorem Sys2Proof.Laws.ImageShape.crcWord : Sys2Proof.Laws.ImageShape.Statement .crcWord := Sys2Proof.Laws.commandShape rfl rfl

theorem Sys2Proof.Laws.ImageShape.crcCmp : Sys2Proof.Laws.ImageShape.Statement .crcCmp := Sys2Proof.Laws.commandShape rfl rfl

theorem Sys2Proof.Laws.ImageShape.softRst : Sys2Proof.Laws.ImageShape.Statement .softRst := Sys2Proof.Laws.commandShape rfl rfl

theorem Sys2Proof.Laws.ImageShape.versionRequest :
    Sys2Proof.Laws.ImageShape.Statement .versionRequest :=
  Sys2Proof.Laws.messageShape rfl rfl (fun _ => by simp)

theorem Sys2Proof.Laws.ImageShape.versionResponse (apiMajor apiMinor bootMajor bootMinor bootBuild : Sys2Proof.Byte) (note : List Sys2Proof.Byte) :
    Sys2Proof.Laws.ImageShape.Statement (.versionResponse apiMajor apiMinor bootMajor bootMinor bootBuild note) :=
  Sys2Proof.Laws.messageShape rfl rfl (fun h => by
    have hn : note.length = Sys2Proof.Config.noteLen := by simpa [Sys2Proof.Instr.wellFormed] using h
    simp [Sys2Proof.Machine.versionPayload, hn, Sys2Proof.Config.noteLen])

theorem Sys2Proof.Laws.ImageShape.updateStartRequest (imageSize : Sys2Proof.Word) :
    Sys2Proof.Laws.ImageShape.Statement (.updateStartRequest imageSize) :=
  Sys2Proof.Laws.messageShape rfl rfl (fun _ => by simp)

theorem Sys2Proof.Laws.ImageShape.updateStartResponse :
    Sys2Proof.Laws.ImageShape.Statement .updateStartResponse :=
  Sys2Proof.Laws.messageShape rfl rfl (fun _ => by simp)

theorem Sys2Proof.Laws.ImageShape.updateStopRequest (crc : Sys2Proof.Word) :
    Sys2Proof.Laws.ImageShape.Statement (.updateStopRequest crc) :=
  Sys2Proof.Laws.messageShape rfl rfl (fun _ => by simp)

theorem Sys2Proof.Laws.ImageShape.updateStopResponse (crc : Sys2Proof.Word) :
    Sys2Proof.Laws.ImageShape.Statement (.updateStopResponse crc) :=
  Sys2Proof.Laws.messageShape rfl rfl (fun _ => by simp)

theorem Sys2Proof.Laws.ImageShape.writeRequest (data : List Sys2Proof.Byte) (dataCrc : Sys2Proof.Word) :
    Sys2Proof.Laws.ImageShape.Statement (.writeRequest data dataCrc) :=
  Sys2Proof.Laws.messageShape rfl rfl (fun h => by
    have hd : data.length ≤ Sys2Proof.Config.maxData := by simpa [Sys2Proof.Instr.wellFormed] using h
    have hd' : data.length ≤ 1024 := hd
    simp; omega)

theorem Sys2Proof.Laws.ImageShape.writeResponse :
    Sys2Proof.Laws.ImageShape.Statement .writeResponse :=
  Sys2Proof.Laws.messageShape rfl rfl (fun _ => by simp)

theorem Sys2Proof.Laws.ImageShape.resetRequest :
    Sys2Proof.Laws.ImageShape.Statement .resetRequest :=
  Sys2Proof.Laws.messageShape rfl rfl (fun _ => by simp)

theorem Sys2Proof.Laws.ImageShape.resetResponse :
    Sys2Proof.Laws.ImageShape.Statement .resetResponse :=
  Sys2Proof.Laws.messageShape rfl rfl (fun _ => by simp)

theorem Sys2Proof.Laws.ImageShape.readAddressRequest (address length : Sys2Proof.Word) :
    Sys2Proof.Laws.ImageShape.Statement (.readAddressRequest address length) :=
  Sys2Proof.Laws.messageShape rfl rfl (fun _ => by simp)

theorem Sys2Proof.Laws.ImageShape.readAddressResponse (data : List Sys2Proof.Byte) :
    Sys2Proof.Laws.ImageShape.Statement (.readAddressResponse data) :=
  Sys2Proof.Laws.messageShape rfl rfl (fun h => by
    have hd : data.length ≤ Sys2Proof.Config.maxPayload := by simpa [Sys2Proof.Instr.wellFormed] using h
    exact hd)

theorem Sys2Proof.Laws.ImageShape.errorResponse (code : Sys2Proof.Byte) :
    Sys2Proof.Laws.ImageShape.Statement (.errorResponse code) :=
  Sys2Proof.Laws.messageShape rfl rfl (fun _ => by simp)
end

