-- ==== Sys2Proof/Laws/Runs.lean ====
section
/-! SUPPORT. A step takes one event and leaves the later ones; sequences of commands as one operation each. -/

namespace Sys2Proof.Machine

/-- No instruction touches the run's own input (log 3). -/
theorem exec_pending {i : Instr} {s t : State} (h : exec i s = .next t) : t.pending = s.pending := by
  have hrx : SameButRx s t → t.pending = s.pending := fun h => h.rest.2.2.2.2.2.2.1
  have htx : SameButTx s t → t.pending = s.pending := fun h => by rw [h]; rfl
  cases he : encode i with
  | frame d =>
    rw [exec_message he] at h
    cases h
    exact (rxDatagram_onlyReceived d s).pending
  | command w =>
    cases i <;> simp only [encode, reduceCtorEq] at he
    case rxByte b => cases h; exact hrx (rxFeedByte_sameButRx b s)
    case rxEod => cases h; exact hrx (rxEndDatagram_sameButRx s)
    case rxAck => cases h; exact hrx (rxRelease_sameButRx s)
    case txPut b => cases h; exact htx (txAppend_sameButTx _ s)
    case txPutw => cases h; exact htx (txAppend_sameButTx _ s)
    case txPutcrc => cases h; exact htx (txAppend_sameButTx _ s)
    case txEnd =>
      simp only [exec, execTxEnd] at h
      split at h <;> cases h <;> rfl
    all_goals (cases h; rfl)

theorem writeReg_pending {r : Reg} {v : Word} {s t : State} (h : writeReg r v s = .next t) : t.pending = s.pending := by
  unfold writeReg at h
  split at h
  · cases h; unfold writeCtrl; simp only; split <;> rfl
  · cases h; rfl
  · unfold runCommand at h
    split at h
    · exact exec_pending h
    · cases h; rfl
  · cases h; rfl
  · cases h; rfl

/-- Serving an event leaves the events after it as they are. -/
theorem runEvent_pending {e : Event} {s t : State} (h : runEvent e s = .next t) : t.pending = s.pending := by
  cases e with
  | hardReset => cases h; rfl
  | datagram d =>
    rw [runEvent, runDatagram_eq] at h
    cases h
    exact (rxDatagram_onlyReceived d s).pending
  | access a =>
    rw [runEvent, runAccess] at h
    split at h
    · cases h
    · split at h
      · cases h; rfl
      · obtain ⟨u, hu, rfl⟩ := mapNext_eq_next h
        unfold writeOffset at hu
        split at hu
        · exact (writeReg_pending hu : u.pending = s.pending)
        · cases hu; rfl

theorem run_succ {M : Host.Core} {n : Nat} {s t : M.State} (h : M.step s = .next t) :
    M.run (n + 1) s = M.run n t := by
  rw [Host.Core.run, h]

/-- A run over an event and then the rest. -/
theorem run_cons {n : Nat} {e : Event} {rest : List Event} {s t : State}
    (h : runEvent e (s.setPending rest) = .next t) :
    Host.Core.run Sys2Proof.core (n + 1) (s.setPending (e :: rest)) = Host.Core.run Sys2Proof.core n t := by
  exact run_succ (M := Sys2Proof.core) h

/-- A command's write of CMD runs it. -/
theorem runEvent_command {i : Instr} {w : Word} (he : encode i = .command w) (s : State) :
    runEvent (commandEvent i) s = mapNext (observe none) (exec i s) := by
  have hd : decodeCommand w = .ok i := by
    cases i <;> simp only [encode, reduceCtorEq] at he <;> cases he <;>
      simp only [decodeCommand, opcOf_commandWord, operandB_commandWord]
  rw [commandEvent, he, imageEvent, runEvent, runAccess_busWrite, writeReg, runCommand, hd]


/-! ### Sequences of commands -/

theorem execAll_append {a b : List Instr} {s t : State} (h : execAll a s = .next t) : execAll (a ++ b) s = execAll b t := by
  induction a generalizing s with
  | nil => cases h; rfl
  | cons i a ih =>
    simp only [List.cons_append, execAll] at h ⊢
    cases hi : exec i s with
    | next u => rw [hi] at h; simp only at h ⊢; exact ih h
    | fault r => rw [hi] at h; cases h
    | refused r => rw [hi] at h; cases h

/-- RX_FEED (30_encoding.md R104). -/
theorem execAll_rxByte (d : List Byte) (s : State) : execAll (d.map .rxByte) s = .next (rxFeedPlain d s) := by
  induction d generalizing s with
  | nil => rfl
  | cons b d ih => exact ih _

/-- RX_DGRAM (30_encoding.md R104). -/
theorem execAll_rxDgram (d : List Byte) (s : State) :
    execAll (d.map .rxByte ++ [.rxEod]) s = .next (rxEndDatagram (rxFeedPlain d s)) := by
  rw [execAll_append (execAll_rxByte d s)]; rfl

/-- TX_PUTS to an open frame with room (43_framer.md R203). -/
theorem execAll_txPut (p : List Byte) (s : State) (ho : s.tx.isOpen = true) (hl : s.tx.plen + p.length ≤ 1028) :
    execAll (p.map .txPut) s =
      .next (s.setTx { s.tx with buf := s.tx.buf.writeList (5 + s.tx.plen) p, plen := s.tx.plen + p.length }) := by
  induction p generalizing s with
  | nil => rfl
  | cons b p ih =>
    simp only [List.length_cons] at hl ⊢
    have h1 := txAppend_open (l := [b]) (s := s) ho (by simp only [List.length_singleton]; omega)
    have := ih (txAppend [b] s) (by rw [h1]; exact ho) (by rw [h1]; simp only [State.setTx_tx, List.length_singleton]; omega)
    show execAll (p.map .txPut) (txAppend [b] s) = _
    rw [this, h1]
    simp only [State.setTx_tx, State.setTx_setTx, List.length_singleton, Memory.writeList]
    congr 3
    omega

/-- TX_BEGIN, TX_PUTS, TX_END build the frame of the payload (43_framer.md R206, R208). -/
theorem execAll_build (op : Byte) (p : List Byte) (s : State) (hw : s.tx.buf.wf = true) (hp : p.length ≤ 1028) :
    ∃ m : Memory, m.wf = true ∧ m.slice 0 (p.length + 6) = mkFrame op p
      ∧ execAll (.txBegin op :: p.map .txPut ++ [.txEnd]) s =
        .next (s.setTx { s.tx with op := op, plen := p.length, buf := m, isOpen := false, rdy := true }) := by
  have h1 := execAll_txPut p (s.setTx { s.tx with op := op, plen := 0, isOpen := true, rdy := false }) rfl
    (by simp only [State.setTx_tx]; omega)
  simp only [State.setTx_tx, State.setTx_setTx, Nat.zero_add] at h1
  have hb : (s.tx.buf.writeList 5 p).slice 5 p.length = p :=
    Memory.slice_writeList 5 p hw (by unfold Config.maxFrame; omega)
  have hbw : (s.tx.buf.writeList 5 p).wf = true := Memory.writeList_wf _ _ hw
  refine ⟨txClose { s.tx with op := op, plen := p.length, buf := s.tx.buf.writeList 5 p, isOpen := true, rdy := false },
    txClose_wf hbw, ?_, ?_⟩
  · have := txClose_slice
      (t := { s.tx with op := op, plen := p.length, buf := s.tx.buf.writeList 5 p, isOpen := true, rdy := false }) hbw hp
    simp only [hb] at this
    exact this
  · show execAll (p.map .txPut ++ [.txEnd]) (s.setTx { s.tx with op := op, plen := 0, isOpen := true, rdy := false }) = _
    rw [execAll_append h1]
    rfl

end Sys2Proof.Machine
end

