-- ==== Sys2Proof/Laws/Stale.lean ====
section
/-! SUPPORT. Two states that differ in stale buffer bytes only: no register shows the difference and no instruction turns
it into another one (10_state.md R45). -/

namespace Sys2Proof.Machine

theorem RxAgree.same {r q : Rx} (h : RxAgree r q) (r' : Rx) (h1 : r'.cnt ≤ r.cnt) (h2 : r'.buf = r.buf) :
    RxAgree r' { r' with buf := q.buf } :=
  ⟨rfl, fun a ha => by rw [h2]; exact h.2 a (by omega)⟩

theorem RxAgree.write {r q : Rx} (h : RxAgree r q) (hr : r.buf.wf = true) (hq : q.buf.wf = true) (b : Byte)
    {n : Nat} (hn : n ≤ r.cnt) (r' : Rx) (h1 : r'.cnt ≤ n + 1) (h2 : r'.buf = r.buf.write n b) (hm : n < 1034) :
    RxAgree r' { r' with buf := q.buf.write n b } := by
  refine ⟨rfl, fun a ha => ?_⟩
  rw [h2]
  simp only
  rw [Memory.read_write n b hr, Memory.read_write n b hq]
  by_cases ha' : a = n ∧ n < Config.maxFrame
  · rw [if_pos ha', if_pos ha']
  · rw [if_neg ha', if_neg ha']
    have : a ≠ n := fun e => ha' ⟨e, hm⟩
    exact h.2 a (by omega)

theorem rxAgree_slice {r q : Rx} (h : RxAgree r q) {n : Nat} (hn : n ≤ min r.cnt 1034) : q.buf.slice 0 n = r.buf.slice 0 n := by
  apply Memory.slice_congr
  intro i hi
  rw [Nat.zero_add]; exact h.2 i (by omega)

/-- Nothing but the deframer changes, and on the bytes of the candidate the two deframers stay equal. -/
theorem rxFeedByte_agree {s u : State} (b : Byte) (hc : u.ctrl = s.ctrl) (h : RxAgree s.rx u.rx)
    (hi : RxInv s.ctrl.dgram s.rx) (hu : RxInv u.ctrl.dgram u.rx) : RxAgree (rxFeedByte b s).rx (rxFeedByte b u).rx := by
  have hws := hi.record.wf
  have hwu := hu.record.wf
  have hrx := h.1
  have hst : u.rx.st = s.rx.st := by rw [hrx]
  have hcnt : u.rx.cnt = s.rx.cnt := by rw [hrx]
  have hinv := hi.st
  have hidle : ∀ v w : State, w.ctrl = v.ctrl → rxIdle w = rxIdle v := fun v w e => by unfold rxIdle; rw [e]
  have hstore : RxAgree (rxStore b s).rx (rxStore b u).rx ∨ 1034 ≤ s.rx.cnt := by
    by_cases hm : s.rx.cnt < 1034
    · left
      have := h.write hws hwu b (le_refl _) (rxStore b s).rx (le_refl _) rfl hm
      have e : (rxStore b u).rx = { (rxStore b s).rx with buf := u.rx.buf.write s.rx.cnt b } := by
        show ({ u.rx with buf := u.rx.buf.write u.rx.cnt b, cnt := u.rx.cnt + 1 } : Rx) = _
        rw [hcnt, hrx]; rfl
      rw [e]; exact this
    · right; omega
  have hrej : ∀ (c : RejectCode) (v w : State), w.ctrl = v.ctrl → RxAgree v.rx w.rx → RxAgree (reject c v).rx (reject c w).rx := by
    intro c v w e hvw
    have := hvw.same (reject c v).rx (Nat.zero_le _) rfl
    have e2 : (reject c w).rx = { (reject c v).rx with buf := w.rx.buf } := by
      show ({ w.rx with code := c, err := true, errcnt := satInc w.rx.errcnt, cnt := 0, st := rxIdle w } : Rx) = _
      rw [hidle v w e, hvw.1]; rfl
    rw [e2]; exact this
  have hacc : ∀ (v w : State), RxAgree v.rx w.rx → RxAgree (accept v).rx (accept w).rx := by
    intro v w hvw
    have := hvw.same (accept v).rx (le_refl _) rfl
    have e2 : (accept w).rx = { (accept v).rx with buf := w.rx.buf } := by
      show ({ w.rx with st := .ready } : Rx) = _
      rw [hvw.1]; rfl
    rw [e2]; exact this
  have hS : ∀ n, n ≤ s.rx.cnt + 1 → n ≤ 1034 → s.rx.cnt < 1034 →
      (∀ a, a < n → (rxStore b u).rx.buf.read a = (rxStore b s).rx.buf.read a)
        ∧ (rxStore b u).rx.buf.slice 0 n = (rxStore b s).rx.buf.slice 0 n := by
    intro n h1 h2 hm
    have hag := hstore.resolve_right (by omega)
    have hc2 : (rxStore b s).rx.cnt = s.rx.cnt + 1 := rfl
    exact ⟨fun a ha => hag.2 a (by omega), rxAgree_slice hag (by omega)⟩
  have hcs : (rxStore b u).rx.cnt = (rxStore b s).rx.cnt := by
    show u.rx.cnt + 1 = s.rx.cnt + 1; rw [hcnt]
  have hcs' : (rxStore b s).rx.cnt = s.rx.cnt + 1 := rfl
  have hctl : (rxStore b u).ctrl = (rxStore b s).ctrl := hc
  unfold rxFeedByte
  rw [hst]
  split
  · unfold rxByteHunt
    split
    · have := h.write hws hwu b (Nat.zero_le _) ({ s.rx with buf := s.rx.buf.write 0 b, cnt := 1, st := .hdr } : Rx)
        (le_refl _) rfl (by omega)
      simp only [State.setRx_rx]
      rw [hrx]; exact this
    · have := h.same ({ s.rx with disc := satInc s.rx.disc } : Rx) (le_refl _) rfl
      simp only [State.setRx_rx]
      rw [hrx]; exact this
  · next hs =>
    simp only [RxStInv, hs] at hinv
    have hag := hstore.resolve_right (by omega)
    unfold rxByteHdr
    simp only
    rw [hcs]
    split
    · next h5 =>
      obtain ⟨hr, hsl⟩ := hS 5 (by omega) (by omega) (by omega)
      obtain ⟨-, hsl4⟩ := hS 4 (by omega) (by omega) (by omega)
      unfold rxHeaderVerdict
      have e1 : headerOk (rxStore b u) = headerOk (rxStore b s) := by
        unfold headerOk; rw [hr 4 (by omega), hsl4]
      have e2 : rxLength (rxStore b u) = rxLength (rxStore b s) := by
        unfold rxLength; rw [hr 2 (by omega), hr 3 (by omega)]
      rw [e1, e2]
      split
      · exact hrej _ _ _ hctl hag
      · split
        · exact hrej _ _ _ hctl hag
        · have := hag.same ({ (rxStore b s).rx with st := .body } : Rx) (le_refl _) rfl
          simp only [State.setRx_rx]
          rw [hag.1]; exact this
    · exact hag
  · next hs =>
    simp only [RxStInv, hs] at hinv
    have hag := hstore.resolve_right (by omega)
    obtain ⟨hr, -⟩ := hS 5 (by omega) (by omega) (by omega)
    have e2 : rxLength (rxStore b u) = rxLength (rxStore b s) := by
      unfold rxLength; rw [hr 2 (by omega), hr 3 (by omega)]
    unfold rxByteBody
    simp only
    rw [hcs, e2]
    split
    · have e3 : verdictTail (rxStore b s).rx.cnt (rxStore b u) = verdictTail (rxStore b s).rx.cnt (rxStore b s) := by
        rw [verdictTail_eq _ (by omega), verdictTail_eq _ (by omega), hctl, (hS (rxStore b s).rx.cnt (by omega) (by omega) (by omega)).2]
        congr 1
        rw [hag.1]
      rw [e3]
      unfold conclude
      split
      · exact hacc _ _ hag
      · exact hrej _ _ _ hctl hag
    · exact hag
  · unfold rxByteAccum
    simp only [State.setRx_rx]
    rw [hcnt]
    by_cases hm : s.rx.cnt < Config.maxFrame
    · rw [if_pos hm, if_pos hm]
      have := h.write hws hwu b (le_refl _) ({ s.rx with buf := s.rx.buf.write s.rx.cnt b, cnt := min (s.rx.cnt + 1) Config.rxCntMax } : Rx)
        (Nat.min_le_left _ _) rfl hm
      rw [hrx]; exact this
    · rw [if_neg hm, if_neg hm]
      refine ⟨by rw [hrx], fun a ha => h.2 a ?_⟩
      unfold Config.maxFrame at hm
      simp only at ha
      omega
  · have := h.same ({ s.rx with ovr := true, disc := satInc s.rx.disc } : Rx) (le_refl _) rfl
    simp only [rxOverrun, State.setRx_rx]
    rw [hrx]; exact this

theorem rxEndDatagram_agree {s u : State} (hc : u.ctrl = s.ctrl) (h : RxAgree s.rx u.rx) :
    RxAgree (rxEndDatagram s).rx (rxEndDatagram u).rx := by
  have hrx := h.1
  have hcnt : u.rx.cnt = s.rx.cnt := by rw [hrx]
  unfold rxEndDatagram
  rw [show u.rx.st = s.rx.st by rw [hrx], hcnt]
  split
  · have e : verdictDgram s.rx.cnt u = verdictDgram s.rx.cnt s := by
      by_cases hn : s.rx.cnt ≤ 1034
      · rw [verdictDgram_eq _ hn, verdictDgram_eq _ hn, rxAgree_slice h (by omega), hc, show u.rx.expect = s.rx.expect by rw [hrx]]
      · rw [verdictDgram_oversize _ (by omega), verdictDgram_oversize _ (by omega)]
    rw [e]
    unfold conclude
    split
    · have := h.same (accept s).rx (le_refl _) rfl
      have e2 : (accept u).rx = { (accept s).rx with buf := u.rx.buf } := by
        show ({ u.rx with st := .ready } : Rx) = _
        rw [hrx]; rfl
      rw [e2]; exact this
    · have := h.same (reject (verdictDgram s.rx.cnt s) s).rx (Nat.zero_le _) rfl
      have e2 : (reject (verdictDgram s.rx.cnt s) u).rx = { (reject (verdictDgram s.rx.cnt s) s).rx with buf := u.rx.buf } := by
        show ({ u.rx with code := _, err := true, errcnt := satInc u.rx.errcnt, cnt := 0, st := rxIdle u } : Rx) = _
        unfold rxIdle
        rw [hc, hrx]; rfl
      rw [e2]; exact this
  · exact h

/-! ### Two states that differ in stale bytes only -/

theorem SameButStale.fields {s u : State} (h : SameButStale s u) :
    u.ctrl = s.ctrl ∧ u.wdata = s.wdata ∧ u.cs = s.cs ∧ u.crc = s.crc ∧ u.cmderr = s.cmderr ∧ u.pending = s.pending
      ∧ u.observed = s.observed := by
  have := h.1
  rw [this]; exact ⟨rfl, rfl, rfl, rfl, rfl, rfl, rfl⟩

theorem SameButStale.of {s u : State} (h1 : u.ctrl = s.ctrl) (h2 : u.wdata = s.wdata) (h3 : u.cs = s.cs) (h4 : u.crc = s.crc)
    (h5 : u.cmderr = s.cmderr) (h6 : u.pending = s.pending) (h7 : u.observed = s.observed) (hr : RxAgree s.rx u.rx)
    (ht : TxAgree s.tx u.tx) : SameButStale s u := by
  refine ⟨?_, hr, ht⟩
  obtain ⟨_, _, _, _, _, _, _, _, _⟩ := s
  obtain ⟨_, _, _, _, _, _, _, _, _⟩ := u
  simp only at h1 h2 h3 h4 h5 h6 h7
  subst h1 h2 h3 h4 h5 h6 h7
  rfl

theorem SameButStale.irq {s u : State} (h : SameButStale s u) : irq u = irq s := by
  obtain ⟨h1, -, -, -, h5, -, -⟩ := h.fields
  unfold Machine.irq rxRdy
  rw [h1, h5, h.2.1.1, h.2.2.1]

theorem SameButStale.observe {s u : State} (h : SameButStale s u) (v : Option Word) :
    SameButStale (observe v s) (observe v u) := by
  obtain ⟨h1, h2, h3, h4, h5, h6, h7⟩ := h.fields
  refine .of h1 h2 h3 h4 h5 h6 ?_ h.2.1 h.2.2
  show _ :: u.observed = _ :: s.observed
  rw [h7, h.irq]

theorem SameButStale.rxOp {s u : State} (h : SameButStale s u) {f : State → State} (hf : ∀ s, SameButRx s (f s))
    (hr : RxAgree (f s).rx (f u).rx) : SameButStale (f s) (f u) := by
  obtain ⟨h1, h2, h3, h4, h5, h6, h7⟩ := h.fields
  obtain ⟨a1, a2, a3, a4, a5, a6, a7, a8⟩ := (hf s).rest
  obtain ⟨b1, b2, b3, b4, b5, b6, b7, b8⟩ := (hf u).rest
  refine .of ?_ ?_ ?_ ?_ ?_ ?_ ?_ hr ?_
  · rw [a1, b1, h1]
  · rw [a2, b2, h2]
  · rw [a3, b3, h3]
  · rw [a4, b4, h4]
  · rw [a6, b6, h5]
  · rw [a7, b7, h6]
  · rw [a8, b8, h7]
  · rw [a5, b5]; exact h.2.2

/-- What the registers show does not depend on stale bytes. -/
theorem SameButStale.readReg {s u : State} (h : SameButStale s u) (hi : Inv s) (r : Reg) : readReg r u = readReg r s := by
  obtain ⟨h1, h2, h3, h4, h5, -, -⟩ := h.fields
  have hrx := h.2.1.1
  have htx := h.2.2.1
  have hst : u.rx.st = s.rx.st := by rw [hrx]
  have hcnt : u.rx.cnt = s.rx.cnt := by rw [hrx]
  have hready : s.rx.st = .ready → ∀ a, a < s.rx.cnt → u.rx.buf.read a = s.rx.buf.read a := by
    intro hs a ha
    have := hi.rx.st
    simp only [RxStInv, hs] at this
    have := this.1.max
    exact h.2.1.2 a (by omega)
  have hmin : s.rx.st = .ready → 6 ≤ s.rx.cnt := by
    intro hs
    have := hi.rx.st
    simp only [RxStInv, hs] at this
    exact this.1.min
  have hp : ∀ i, rxPayload u i = rxPayload s i := by
    intro i
    unfold rxPayload
    rw [hst, hcnt]
    split
    · next hh => exact hready hh.1 _ (by omega)
    · rfl
  have hb : ∀ i, rxByteAt u i = rxByteAt s i := by
    intro i
    unfold rxByteAt
    rw [hst, hcnt]
    split
    · next hh => exact hready hh.1 _ hh.2
    · rfl
  have ht : ∀ i, txByteAt u i = txByteAt s i := by
    intro i
    unfold txByteAt
    rw [show u.tx.rdy = s.tx.rdy by rw [htx], show u.tx.plen = s.tx.plen by rw [htx]]
    split
    · next hh => exact h.2.2.2.2 hh.1 _ hh.2
    · rfl
  cases r <;> simp only [Machine.readReg, hp, hb, ht, h1, h2, h3, hcnt]
  case status =>
    unfold statusWord rxRdy
    rw [h.irq, hst, h3, h4, h5, htx, hrx]
  case crcState => rw [h4]
  case crcResult => unfold crcResult; rw [h4]
  case crcCnt => rw [h4]
  case rxExpect => rw [hrx]
  case rxHdr =>
    unfold rxHdrWord
    rw [hst]
    split
    · next hh =>
      have := hmin hh
      rw [hready hh 0 (by omega), hready hh 1 (by omega), hready hh 2 (by omega), hready hh 3 (by omega)]
    · rfl
  case rxErr => rw [hrx]
  case rxDisc => rw [hrx]
  case rxWt => simp only [rxTailWord, hp, hst, hcnt]
  case txInfo => rw [htx]
  case txFlen => rw [htx]


theorem SameButStale.txOp {s u : State} (h : SameButStale s u) {t w : Tx} (ht : TxAgree t w) :
    SameButStale (s.setTx t) (u.setTx w) := by
  obtain ⟨h1, h2, h3, h4, h5, h6, h7⟩ := h.fields
  exact .of h1 h2 h3 h4 h5 h6 h7 h.2.1 ht

theorem txError_agree {t u : Tx} (h : TxAgree t u) (c : TxCode) :
    TxAgree { t with err := true, code := c } { u with err := true, code := c } :=
  ⟨by rw [h.1], h.2.1, h.2.2⟩

theorem SameButStale.txAppend {s u : State} (h : SameButStale s u) (hi : Inv s) (hu : Inv u) (l : List Byte) :
    SameButStale (txAppend l s) (txAppend l u) := by
  have htx := h.2.2.1
  have hop : u.tx.isOpen = s.tx.isOpen := by rw [htx]
  have hpl : u.tx.plen = s.tx.plen := by rw [htx]
  unfold Machine.txAppend txError
  rw [hop, hpl]
  split
  · exact h.txOp (txError_agree h.2.2 _)
  · next ho =>
    split
    · exact h.txOp (txError_agree h.2.2 _)
    · next hl =>
      have hopen : s.tx.isOpen = true := by simpa using ho
      have hrdy : s.tx.rdy = false := by
        have := hi.tx.phase
        simpa [hopen] using this
      unfold Config.maxPayload at hl
      have hb : 5 + s.tx.plen + l.length ≤ Config.maxFrame := by unfold Config.maxFrame; omega
      refine h.txOp ⟨by rw [htx], fun _ a ha1 ha2 => ?_, fun hh => ?_⟩
      · simp only at ha2 ⊢
        rw [Memory.read_writeList _ _ hu.tx.wf hb, Memory.read_writeList _ _ hi.tx.wf hb]
        split
        · rfl
        · exact h.2.2.2.1 hopen a ha1 (by omega)
      · rw [hrdy] at hh; cases hh

theorem txClose_agree {t u : Tx} (h : TxAgree t u) (ho : t.isOpen = true) (ht : TxInv t) (hu : TxInv u) :
    TxAgree { t with buf := txClose t, isOpen := false, rdy := true } { u with buf := txClose u, isOpen := false, rdy := true } := by
  refine ⟨by rw [h.1], fun hh => (by cases hh), fun _ a ha => ?_⟩
  simp only at ha ⊢
  have hop : u.op = t.op := by rw [h.1]
  have hpl : u.plen = t.plen := by rw [h.1]
  have hsl : u.buf.slice 5 t.plen = t.buf.slice 5 t.plen := by
    apply Memory.slice_congr
    intro i hi
    exact h.2.1 ho _ (by omega) (by omega)
  rw [txClose_read hu.wf hu.plen, txClose_read ht.wf ht.plen, hpl, hop, hsl, if_pos ha, if_pos ha]

theorem SameButStale.rxFeedByte {s u : State} (h : SameButStale s u) (hi : Inv s) (hu : Inv u) (b : Byte) :
    SameButStale (rxFeedByte b s) (rxFeedByte b u) :=
  h.rxOp (rxFeedByte_sameButRx b) (rxFeedByte_agree b h.fields.1 h.2.1 hi.rx hu.rx)

theorem inv_rxFeedByte {s : State} (hi : Inv s) (b : Byte) : Inv (observe none (rxFeedByte b s)) := by
  have hs := rxFeedByte_sameButRx b s
  refine ⟨?_, ?_⟩
  · show RxInv (Machine.rxFeedByte b s).ctrl.dgram (Machine.rxFeedByte b s).rx
    rw [hs.ctrl]; exact rxFeedByte_inv b hi.rx
  · show TxInv (Machine.rxFeedByte b s).tx
    rw [hs.rest.2.2.2.2.1]; exact hi.tx

theorem SameButStale.rxDatagram {s u : State} (h : SameButStale s u) (hi : Inv s) (hu : Inv u) (d : List Byte) :
    SameButStale (rxDatagram d s) (rxDatagram d u) := by
  induction d generalizing s u with
  | nil =>
    exact h.rxOp rxEndDatagram_sameButRx (rxEndDatagram_agree h.fields.1 h.2.1)
  | cons b d ih =>
    exact ih ((h.rxFeedByte hi hu b).observe none) (inv_rxFeedByte hi b) (inv_rxFeedByte hu b)

/-- An instruction keeps two such states such. -/
theorem SameButStale.exec {s u : State} (h : SameButStale s u) (hi : Inv s) (hu : Inv u) {i : Instr} {t : State}
    (he : exec i s = .next t) : ∃ w, exec i u = .next w ∧ SameButStale t w := by
  obtain ⟨h1, h2, h3, h4, h5, h6, h7⟩ := h.fields
  have hrx := h.2.1.1
  cases hc : encode i with
  | frame d =>
    rw [exec_message hc] at he
    cases he
    exact ⟨_, exec_message hc u, h.rxDatagram hi hu d⟩
  | command w =>
    cases i <;> simp only [encode, reduceCtorEq] at hc
    case nop => cases he; exact ⟨_, rfl, h⟩
    case softRst =>
      cases he
      refine ⟨_, rfl, .of rfl rfl rfl rfl rfl h6 h7 ⟨rfl, fun _ _ => rfl⟩ ⟨rfl, fun _ _ _ _ => rfl, fun _ _ _ => rfl⟩⟩
    case rxRst =>
      cases he
      refine ⟨_, rfl, h.rxOp rxReset_sameButRx ?_⟩
      refine ⟨?_, fun a ha => ?_⟩
      · show ({ u.rx with st := rxIdle u, cnt := 0, err := false, ovr := false, code := .none, errcnt := 0#16, disc := 0#32 } : Rx) = _
        unfold rxIdle; rw [h1, hrx]; rfl
      · have : min (rxReset s).rx.cnt 1034 = 0 := rfl
        omega
    case rxByte b => cases he; exact ⟨_, rfl, h.rxFeedByte hi hu b⟩
    case rxEod => cases he; exact ⟨_, rfl, h.rxOp rxEndDatagram_sameButRx (rxEndDatagram_agree h1 h.2.1)⟩
    case rxAck =>
      cases he
      refine ⟨_, rfl, h.rxOp rxRelease_sameButRx ?_⟩
      unfold rxRelease
      rw [show u.rx.st = s.rx.st by rw [hrx]]
      split
      · refine ⟨?_, fun a ha => by simp at ha⟩
        show ({ u.rx with st := rxIdle u, cnt := 0 } : Rx) = _
        unfold rxIdle; rw [h1, hrx]; rfl
      · exact h.2.1
    case rxExpect b =>
      cases he
      refine ⟨_, rfl, .of h1 h2 h3 h4 h5 h6 h7 ⟨?_, h.2.1.2⟩ h.2.2⟩
      show ({ u.rx with expect := b } : Rx) = _
      rw [hrx]; rfl
    case txBegin b =>
      cases he
      refine ⟨_, rfl, h.txOp ⟨by rw [h.2.2.1], fun _ a ha1 ha2 => ?_, fun hh => by cases hh⟩⟩
      simp only at ha2; omega
    case txPut b => cases he; exact ⟨_, rfl, h.txAppend hi hu _⟩
    case txPutw =>
      cases he
      refine ⟨_, rfl, ?_⟩
      have : operandWdataBytes u = operandWdataBytes s := by unfold operandWdataBytes; rw [h2]
      rw [this]; exact h.txAppend hi hu _
    case txPutcrc =>
      cases he
      refine ⟨_, rfl, ?_⟩
      have : operandCrcBytes u = operandCrcBytes s := by unfold operandCrcBytes crcResult; rw [h4]
      rw [this]; exact h.txAppend hi hu _
    case txEnd =>
      have hop : u.tx.isOpen = s.tx.isOpen := by rw [h.2.2.1]
      show ∃ w, execTxEnd u = .next w ∧ _
      replace he : execTxEnd s = .next t := he
      unfold execTxEnd at he ⊢
      rw [hop]
      split at he
      · next ho =>
        cases he; rw [if_pos ho]
        exact ⟨_, rfl, h.txOp (txError_agree h.2.2 _)⟩
      · next ho =>
        cases he; rw [if_neg ho]
        exact ⟨_, rfl, h.txOp (txClose_agree h.2.2 (by simpa using ho) hi.tx hu.tx)⟩
    case csClr =>
      cases he
      exact ⟨_, rfl, .of h1 h2 (by simp only [State.setCs_cs, h3]) h4 h5 h6 h7 h.2.1 h.2.2⟩
    case csAdd b =>
      cases he
      exact ⟨_, rfl, .of h1 h2 (by simp only [csFeed, State.setCs_cs, h3]) h4 h5 h6 h7 h.2.1 h.2.2⟩
    case csAddw =>
      cases he
      exact ⟨_, rfl, .of h1 h2 (by simp only [csFeed, State.setCs_cs, h3, operandWdataBytes, h2]) h4 h5 h6 h7 h.2.1 h.2.2⟩
    case csCmp b =>
      cases he
      exact ⟨_, rfl, .of h1 h2 (by simp only [State.setCs_cs, h3, csMatches]) h4 h5 h6 h7 h.2.1 h.2.2⟩
    case crcInit =>
      cases he
      exact ⟨_, rfl, .of h1 h2 h3 (by simp only [State.setCrc_crc, h4]) h5 h6 h7 h.2.1 h.2.2⟩
    case crcByte b =>
      cases he
      exact ⟨_, rfl, .of h1 h2 h3 (by simp only [crcFeed, State.setCrc_crc, h4]) h5 h6 h7 h.2.1 h.2.2⟩
    case crcWord =>
      cases he
      exact ⟨_, rfl, .of h1 h2 h3 (by simp only [crcFeed, State.setCrc_crc, h4, operandWdataBytes, h2]) h5 h6 h7 h.2.1 h.2.2⟩
    case crcCmp =>
      cases he
      exact ⟨_, rfl, .of h1 h2 h3 (by simp only [State.setCrc_crc, h4, crcMatches, crcResult, operandWdata, h2]) h5 h6 h7 h.2.1 h.2.2⟩

end Sys2Proof.Machine
end

