-- ==== Sys2Proof/Tests/Slice0.lean ====
section
/-! SUPPORT. The model's own tests, with their expected values taken from the spec's worked examples
(41_messages.md) and vectors (95_test_vectors.md), and the witnesses that the statements' hypotheses can be met. -/

namespace Sys2Proof.Tests

open Machine

/-! ### Small states -/

/-- Ask something of the state an outcome answers. -/
def after (o : Host.Outcome State Fault Refusal) (f : State → Bool) : Bool :=
  match o with
  | .next t => f t
  | _ => false

/-- Ask why a step was refused. -/
def refusedAs (o : Host.Outcome State Fault Refusal) (r : Refusal) : Bool :=
  match o with
  | .refused q => q == r
  | _ => false

/-- The bytes given by their numbers. -/
def bs (l : List Nat) : List Byte := l.map (BitVec.ofNat 8)

/-- Reset, with something in WDATA. -/
def base : State := State.reset.setWdata 0x44434241#32

/-- Datagram mode, with these bytes received and `op` expected. -/
def accumSt (op : Byte) (d : List Byte) : State :=
  base.setRx { base.rx with expect := op, cnt := d.length, buf := Memory.writeList [] 0 d }

/-- Stream mode, in a state `st` with these bytes of a candidate received and `op` expected. -/
def streamSt (st : RxSt) (op : Byte) (d : List Byte) : State :=
  (base.setCtrl { base.ctrl with dgram := false }).setRx
    { base.rx with st := st, expect := op, cnt := d.length, buf := Memory.writeList [] 0 d }

/-- Datagram mode, with this frame held. -/
def readySt (d : List Byte) : State :=
  base.setRx { base.rx with st := .ready, cnt := d.length, buf := Memory.writeList [] 0 d }

/-- A frame open, with op code `op` and `n` payload bytes, all 0. -/
def openSt (op : Byte) (n : Nat) : State := base.setTx { base.tx with op := op, plen := n, isOpen := true }

/-- VersionRequest built in TXBUF. -/
def builtSt : State := base.setTx { base.tx with op := 0x01#8, rdy := true, buf := txClose (openSt 0x01#8 0).tx }

/-- Command `i` as one step on `s`, asked of the state it answers. -/
def runs (i : Instr) (s : State) (f : State → Bool) : Bool := after (step (s.setPending [commandEvent i])) f

/-- What register `r` reads after it. -/
def shows (r : Reg) (v : Word) (s : State) : Bool := readReg r s == v

/-! ### The checks of WellFormed -/

theorem test_wf_refuses_a_short_note :
    (Instr.versionResponse 1#8 0#8 0#8 1#8 0#8 (List.replicate 127 0#8)).wellFormed = false := by decide +kernel

theorem test_wf_refuses_a_long_note :
    (Instr.versionResponse 1#8 0#8 0#8 1#8 0#8 (List.replicate 129 0#8)).wellFormed = false := by decide +kernel

theorem test_wf_refuses_1025_data_bytes :
    (Instr.writeRequest (List.replicate 1025 0#8) 0#32).wellFormed = false := by decide +kernel

theorem test_wf_refuses_1029_read_bytes :
    (Instr.readAddressResponse (List.replicate 1029 0#8)).wellFormed = false := by decide +kernel

theorem test_wf_accepts_the_longest_fields :
    (Instr.versionResponse 1#8 0#8 0#8 1#8 0#8 (List.replicate 128 0#8)).wellFormed = true
      ∧ (Instr.writeRequest (List.replicate 1024 0#8) 0#32).wellFormed = true
      ∧ (Instr.readAddressResponse (List.replicate 1028 0#8)).wellFormed = true := by decide +kernel

/-! ### Decoding: every opcode of 30_encoding.md R96, every example frame of 41_messages.md -/

theorem test_decode_commands_without_operand :
    decodeCommand 0x00000000#32 = .ok .nop ∧ decodeCommand 0x00000010#32 = .ok .csClr
      ∧ decodeCommand 0x00000012#32 = .ok .csAddw ∧ decodeCommand 0x00000020#32 = .ok .rxRst
      ∧ decodeCommand 0x00000022#32 = .ok .rxEod ∧ decodeCommand 0x00000023#32 = .ok .rxAck
      ∧ decodeCommand 0x00000032#32 = .ok .txPutw ∧ decodeCommand 0x00000033#32 = .ok .txPutcrc
      ∧ decodeCommand 0x00000034#32 = .ok .txEnd ∧ decodeCommand 0x00000040#32 = .ok .crcInit
      ∧ decodeCommand 0x00000042#32 = .ok .crcWord ∧ decodeCommand 0x00000043#32 = .ok .crcCmp
      ∧ decodeCommand 0x000000F0#32 = .ok .softRst :=
  ⟨rfl, rfl, rfl, rfl, rfl, rfl, rfl, rfl, rfl, rfl, rfl, rfl, rfl⟩

/-- The words of 95_test_vectors.md P1 and P2, and others with the byte operand in bits 15..8 (30_encoding.md R90). -/
theorem test_decode_commands_with_operand :
    decodeCommand 0x00005A11#32 = .ok (.csAdd 0x5A#8) ∧ decodeCommand 0x0000F713#32 = .ok (.csCmp 0xF7#8)
      ∧ decodeCommand 0x0000E721#32 = .ok (.rxByte 0xE7#8) ∧ decodeCommand 0x00000424#32 = .ok (.rxExpect 0x04#8)
      ∧ decodeCommand 0x00000730#32 = .ok (.txBegin 0x07#8) ∧ decodeCommand 0x00004431#32 = .ok (.txPut 0x44#8)
      ∧ decodeCommand 0x00004141#32 = .ok (.crcByte 0x41#8) :=
  ⟨rfl, rfl, rfl, rfl, rfl, rfl, rfl⟩

theorem test_decode_illegal_commands :
    decodeCommand 0x00000050#32 = .error .illegalCommand ∧ decodeCommand 0x0000FFFF#32 = .error .illegalCommand
      ∧ decodeCommand 0x00000077#32 = .error .illegalCommand := ⟨rfl, rfl, rfl⟩

theorem test_decode_messages_without_payload :
    decodeFrame (bs [0xE7, 0x01, 0x01, 0x00, 0xE9, 0xD2]) = .ok .versionRequest
      ∧ decodeFrame (bs [0xE7, 0x04, 0x01, 0x00, 0xEC, 0xD8]) = .ok .updateStartResponse
      ∧ decodeFrame (bs [0xE7, 0x08, 0x01, 0x00, 0xF0, 0xE0]) = .ok .writeResponse
      ∧ decodeFrame (bs [0xE7, 0x09, 0x01, 0x00, 0xF1, 0xE2]) = .ok .resetRequest
      ∧ decodeFrame (bs [0xE7, 0x0A, 0x01, 0x00, 0xF2, 0xE4]) = .ok .resetResponse := ⟨rfl, rfl, rfl, rfl, rfl⟩

theorem test_decode_messages_with_fields :
    decodeFrame (bs [0xE7, 0x03, 0x05, 0x00, 0xEF, 0x00, 0x02, 0x00, 0x00, 0xE0]) =
        .ok (.updateStartRequest 0x00000200#32)
      ∧ decodeFrame (bs [0xE7, 0x05, 0x05, 0x00, 0xF1, 0x78, 0x75, 0xAA, 0xB2, 0x2B]) =
        .ok (.updateStopRequest 0xB2AA7578#32)
      ∧ decodeFrame (bs [0xE7, 0x06, 0x05, 0x00, 0xF2, 0x78, 0x75, 0xAA, 0xB2, 0x2D]) =
        .ok (.updateStopResponse 0xB2AA7578#32)
      ∧ decodeFrame (bs [0xE7, 0x07, 0x09, 0x00, 0xF7, 0x41, 0x42, 0x43, 0x44, 0xA5, 0x20, 0x17, 0xDB, 0xAF]) =
        .ok (.writeRequest [0x41#8, 0x42#8, 0x43#8, 0x44#8] 0xDB1720A5#32)
      ∧ decodeFrame (bs [0xE7, 0x07, 0x05, 0x00, 0xF3, 0x00, 0x00, 0x00, 0x00, 0xE6]) = .ok (.writeRequest [] 0#32)
      ∧ decodeFrame (bs [0xE7, 0x0B, 0x09, 0x00, 0xFB, 0x00, 0x00, 0x00, 0x08, 0x10, 0x00, 0x00, 0x00, 0x0E]) =
        .ok (.readAddressRequest 0x08000000#32 0x00000010#32)
      ∧ decodeFrame (bs [0xE7, 0x0C, 0x05, 0x00, 0xF8, 0xDE, 0xAD, 0xBE, 0xEF, 0x28]) =
        .ok (.readAddressResponse [0xDE#8, 0xAD#8, 0xBE#8, 0xEF#8])
      ∧ decodeFrame (bs [0xE7, 0xFF, 0x02, 0x00, 0xE8, 0x01, 0xD1]) = .ok (.errorResponse 0x01#8) :=
  ⟨rfl, rfl, rfl, rfl, rfl, rfl, rfl, rfl⟩

/-- The note "test string" and 117 zero bytes. -/
def note : List Byte :=
  bs [0x74, 0x65, 0x73, 0x74, 0x20, 0x73, 0x74, 0x72, 0x69, 0x6E, 0x67] ++ List.replicate 117 0#8

/-- The VersionResponse frame of 41_messages.md R133. -/
def versionFrame : List Byte :=
  bs [0xE7, 0x02, 0x86, 0x00, 0x6F, 0x01, 0x00, 0x00, 0x01, 0x00] ++ note ++ [0x57#8]

theorem test_decode_version_response :
    decodeFrame versionFrame = .ok (.versionResponse 1#8 0#8 0#8 1#8 0#8 note) := by decide +kernel

/-- The rejected frames of 95_test_vectors.md D2, D4, D6, D8, D9, D10, D14 and D13. -/
theorem test_decode_frames_rejected_by_name :
    decodeFrame (bs [0xE7, 0x03, 0x05, 0x00, 0xEF]) = .error .short
      ∧ decodeFrame (List.replicate 1035 0xE7#8) = .error .oversize
      ∧ decodeFrame (bs [0xE6, 0x03, 0x05, 0x00, 0xEE, 0x00, 0x02, 0x00, 0x00, 0xDE]) = .error .sync
      ∧ decodeFrame (bs [0xE7, 0x03, 0x05, 0x00, 0xEE, 0x00, 0x02, 0x00, 0x00, 0xE0]) = .error .headerChecksum
      ∧ decodeFrame (bs [0xE7, 0x03, 0x05, 0x00, 0xEF, 0x00, 0x02, 0x00, 0x00, 0xE0, 0x00]) = .error .lengthField
      ∧ decodeFrame (bs [0xE7, 0x03, 0x05, 0x00, 0xEF, 0x00, 0x02, 0x00, 0x00, 0x60]) = .error .frameChecksum
      ∧ decodeFrame (bs [0xE7, 0x0D, 0x01, 0x00, 0xF5, 0xEA]) = .error .undefinedOp
      ∧ decodeFrame (bs [0xE7, 0x03, 0x04, 0x00, 0xEE, 0x00, 0x02, 0x00, 0xDE]) = .error .shape :=
  by decide +kernel

/-- The opcode table's own numbering: `match` of CS_ADDW, VersionRequest and ErrorResponse (30_encoding.md R105). -/
theorem test_table_words :
    decodeTableWord 8 0x12 = some .csAddw ∧ decodeTableWord 8 0x01 = some .versionRequest
      ∧ decodeTableWord 8 0xFF = some (.errorResponse 0#8) ∧ decodeTableWord 8 0x50 = none
      ∧ decodeTableWord 32 0x0000E711 = some (.csAdd 0xE7#8) := ⟨rfl, rfl, rfl, rfl, rfl⟩

theorem test_fetch_word_runs_first : after (step (State.reset.withFetchWord 16 0x5A11)) (shows .csSum 0x5A#32) = true := by
  decide +kernel

/-! ### One step of each command (95_test_vectors.md sections 2.1 to 2.9) -/

theorem test_nop : runs .nop base (shows .status 0x3000#32) = true := by decide

/-- S8 -/
theorem test_cs_clr : runs .csClr (base.setCs ⟨0x5A#8, true⟩) (fun t => shows .csSum 0#32 t && t.cs.ok) = true := by
  decide +kernel

/-- S4 -/
theorem test_cs_add_wraps : runs (.csAdd 0x01#8) (base.setCs ⟨0xFF#8, false⟩) (shows .csSum 0#32) = true := by
  decide +kernel

/-- S5 -/
theorem test_cs_addw : runs .csAddw (base.setWdata 0xFFFFFFFF#32) (shows .csSum 0xFC#32) = true := by decide

/-- S2 -/
theorem test_cs_cmp_equal : runs (.csCmp 0xE9#8) (base.setCs ⟨0xE9#8, false⟩) (shows .status 0x3040#32) = true := by
  decide +kernel

/-- S3 -/
theorem test_cs_cmp_different : runs (.csCmp 0xE8#8) (base.setCs ⟨0xE9#8, true⟩) (shows .status 0x3000#32) = true := by
  decide +kernel

/-- D24's registers after RX_RST; RX_EXPECT stays. -/
theorem test_rx_rst :
    runs .rxRst (readySt (bs [0xE7, 0x01, 0x01, 0x00, 0xE9, 0xD2]))
      (fun t => shows .status 0x3000#32 t && shows .rxCnt 0#32 t && shows (.rxbuf 0) 0#32 t) = true := by decide

/-- T2: the header checksum fails at the fifth byte. -/
theorem test_rx_byte_rejects_a_header :
    runs (.rxByte 0x00#8) (streamSt .hdr 0x01#8 (bs [0xE7, 0xE7, 0x01, 0x01]))
      (fun t => shows .rxErr 0x00010004#32 t && shows .status 0x0002#32 t) = true := by decide

/-- T1: the last byte of a frame. -/
theorem test_rx_byte_accepts_a_frame :
    runs (.rxByte 0xD2#8) (streamSt .body 0x01#8 (bs [0xE7, 0x01, 0x01, 0x00, 0xE9]))
      (fun t => shows .status 0x4001#32 t && shows .rxCnt 6#32 t && shows .rxHdr 0x000101E7#32 t) = true := by decide

/-- D1 -/
theorem test_rx_eod_accepts :
    runs .rxEod (accumSt 0x03#8 (bs [0xE7, 0x03, 0x05, 0x00, 0xEF, 0x00, 0x02, 0x00, 0x00, 0xE0]))
      (fun t => shows .status 0x4001#32 t && shows .rxHdr 0x000503E7#32 t && shows .rxWt 0x00000200#32 t) = true := by
  decide +kernel

/-- D11 -/
theorem test_rx_eod_rejects_an_unexpected_op :
    runs .rxEod (accumSt 0x05#8 (bs [0xE7, 0x03, 0x05, 0x00, 0xEF, 0x00, 0x02, 0x00, 0x00, 0xE0]))
      (fun t => shows .rxErr 0x00010007#32 t && shows .rxHdr 0#32 t) = true := by decide

/-- D29 -/
theorem test_rx_ack :
    runs .rxAck (readySt (bs [0xE7, 0x01, 0x01, 0x00, 0xE9, 0xD2]))
      (fun t => shows .status 0x3000#32 t && shows .rxCnt 0#32 t && shows (.rxbuf 0) 0#32 t) = true := by decide

theorem test_rx_expect : runs (.rxExpect 0x04#8) base (shows .rxExpect 0x04#32) = true := by decide

/-- F1 -/
theorem test_tx_begin :
    runs (.txBegin 0x01#8) base (fun t => shows .status 0x3100#32 t && shows .txInfo 1#32 t && shows .txFlen 0#32 t) = true := by
  decide +kernel

/-- F15 -/
theorem test_tx_begin_keeps_the_error :
    runs (.txBegin 0x01#8) (txError .state base) (fun t => shows .status 0x3110#32 t && shows .txInfo 0x101#32 t) = true := by
  decide +kernel

/-- F5 -/
theorem test_tx_put_without_a_frame :
    runs (.txPut 0x07#8) base (fun t => shows .status 0x3010#32 t && shows .txInfo 0x100#32 t) = true := by decide

/-- F7 -/
theorem test_tx_put_overflows :
    runs (.txPut 0xBB#8) (openSt 0x0C#8 1028)
      (fun t => shows .status 0x3110#32 t && shows .txInfo 0x0404020C#32 t) = true := by decide +kernel

/-- F9: all or nothing. -/
theorem test_tx_putw_overflows : runs .txPutw (openSt 0x07#8 1025) (shows .txInfo 0x04010207#32) = true := by decide +kernel

/-- F13's payload: the least significant byte first. -/
theorem test_tx_putw_order :
    runs .txPutw (openSt 0x03#8 0) (fun t => t.tx.buf.slice 5 4 == bs [0x41, 0x42, 0x43, 0x44] && t.tx.plen == 4) = true := by
  decide +kernel

/-- P2 line 5: CRC_RESULT, not CRC_STATE. -/
theorem test_tx_putcrc :
    runs .txPutcrc ((openSt 0x07#8 0).setCrc ⟨0x24E8DF5A#32, 4#32, false⟩)
      (fun t => t.tx.buf.slice 5 4 == bs [0xA5, 0x20, 0x17, 0xDB]) = true := by decide

/-- F2 -/
theorem test_tx_end :
    runs .txEnd (openSt 0x01#8 0) (fun t => shows .status 0x3008#32 t && shows .txFlen 6#32 t
      && shows (.txbuf 0) 0x000101E7#32 t && shows (.txbuf 1) 0x0000D2E9#32 t) = true := by decide

/-- F3 -/
theorem test_tx_end_twice :
    runs .txEnd builtSt (fun t => shows .status 0x3018#32 t && shows .txInfo 0x101#32 t && shows .txFlen 6#32 t) = true := by
  decide +kernel

/-- C9 -/
theorem test_crc_init :
    runs .crcInit (base.setCrc ⟨0#32, 4#32, true⟩)
      (fun t => shows .crcState 0xFFFFFFFF#32 t && shows .crcResult 0#32 t && shows .crcCnt 0#32 t && t.crc.ok) = true := by
  decide +kernel

/-- C2 -/
theorem test_crc_byte :
    runs (.crcByte 0x00#8) base (fun t => shows .crcResult 0xD202EF8D#32 t && shows .crcCnt 1#32 t) = true := by decide

/-- C10 -/
theorem test_crc_byte_count_wraps :
    runs (.crcByte 0x00#8) (base.setCrc ⟨0#32, 0xFFFFFFFF#32, false⟩) (shows .crcCnt 0#32) = true := by decide

/-- C3 -/
theorem test_crc_word :
    runs .crcWord base (fun t => shows .crcResult 0xDB1720A5#32 t && shows .crcCnt 4#32 t) = true := by decide +kernel

/-- C4's compare. -/
theorem test_crc_cmp_equal :
    runs .crcCmp ((base.setWdata 0xCBF43926#32).setCrc ⟨0x340BC6D9#32, 9#32, false⟩) (shows .status 0x3080#32) = true := by
  decide +kernel

/-- C5 -/
theorem test_crc_cmp_different :
    runs .crcCmp ((base.setWdata 0xCBF43927#32).setCrc ⟨0x340BC6D9#32, 9#32, true⟩) (shows .status 0x3000#32) = true := by
  decide +kernel

/-- K5 -/
theorem test_soft_rst :
    runs .softRst (streamSt .hunt 0x01#8 [])
      (fun t => shows .ctrl 3#32 t && shows .wdata 0#32 t && shows .status 0x3000#32 t && shows .rxExpect 0#32 t) = true := by
  decide +kernel

/-! ### One step of each message: its frame arrives, its fields are seen (41_messages.md) -/

/-- A datagram arrives in one step with `op` expected. -/
def arrives (op : Byte) (d : List Byte) (f : State → Bool) : Bool :=
  after (step ((accumSt op []).setPending [.datagram d])) f

/-- STATUS is `0x4001` and the four views read these values. -/
def views (n w0 w1 wt : Word) (t : State) : Bool :=
  shows .status 0x4001#32 t && shows .rxCnt n t && shows .rxW0 w0 t && shows .rxW1 w1 t && shows .rxWt wt t

theorem test_version_request :
    arrives 0x01#8 (bs [0xE7, 0x01, 0x01, 0x00, 0xE9, 0xD2]) (views 6#32 0#32 0#32 0#32) = true := by decide

theorem test_version_response :
    arrives 0x02#8 versionFrame (views 139#32 0x01000001#32 0x73657400#32 0#32) = true := by decide +kernel

theorem test_update_start_request :
    arrives 0x03#8 (bs [0xE7, 0x03, 0x05, 0x00, 0xEF, 0x00, 0x02, 0x00, 0x00, 0xE0])
      (views 10#32 0x200#32 0#32 0x200#32) = true := by decide

theorem test_update_start_response :
    arrives 0x04#8 (bs [0xE7, 0x04, 0x01, 0x00, 0xEC, 0xD8]) (views 6#32 0#32 0#32 0#32) = true := by decide

theorem test_update_stop_request :
    arrives 0x05#8 (bs [0xE7, 0x05, 0x05, 0x00, 0xF1, 0x78, 0x75, 0xAA, 0xB2, 0x2B])
      (views 10#32 0xB2AA7578#32 0#32 0xB2AA7578#32) = true := by decide

theorem test_update_stop_response :
    arrives 0x06#8 (bs [0xE7, 0x06, 0x05, 0x00, 0xF2, 0x78, 0x75, 0xAA, 0xB2, 0x2D])
      (views 10#32 0xB2AA7578#32 0#32 0xB2AA7578#32) = true := by decide

theorem test_write_request :
    arrives 0x07#8 (bs [0xE7, 0x07, 0x09, 0x00, 0xF7, 0x41, 0x42, 0x43, 0x44, 0xA5, 0x20, 0x17, 0xDB, 0xAF])
      (views 14#32 0x44434241#32 0xDB1720A5#32 0xDB1720A5#32) = true := by decide

theorem test_write_response :
    arrives 0x08#8 (bs [0xE7, 0x08, 0x01, 0x00, 0xF0, 0xE0]) (views 6#32 0#32 0#32 0#32) = true := by decide

theorem test_reset_request :
    arrives 0x09#8 (bs [0xE7, 0x09, 0x01, 0x00, 0xF1, 0xE2]) (views 6#32 0#32 0#32 0#32) = true := by decide

theorem test_reset_response :
    arrives 0x0A#8 (bs [0xE7, 0x0A, 0x01, 0x00, 0xF2, 0xE4]) (views 6#32 0#32 0#32 0#32) = true := by decide

theorem test_read_address_request :
    arrives 0x0B#8 (bs [0xE7, 0x0B, 0x09, 0x00, 0xFB, 0x00, 0x00, 0x00, 0x08, 0x10, 0x00, 0x00, 0x00, 0x0E])
      (views 14#32 0x08000000#32 0x10#32 0x10#32) = true := by decide

theorem test_read_address_response_short :
    arrives 0x0C#8 (bs [0xE7, 0x0C, 0x03, 0x00, 0xF6, 0xDE, 0xAD, 0x77]) (views 8#32 0xADDE#32 0#32 0#32) = true := by
  decide +kernel

/-- D12: whatever is expected. -/
theorem test_error_response :
    arrives 0x03#8 (bs [0xE7, 0xFF, 0x02, 0x00, 0xE8, 0x02, 0xD2]) (views 7#32 2#32 0#32 0#32) = true := by decide

/-- D16: nothing expected at reset. -/
theorem test_version_request_at_reset :
    after (step (State.reset.setPending [.datagram (bs [0xE7, 0x01, 0x01, 0x00, 0xE9, 0xD2])]))
      (shows .rxErr 0x00010007#32) = true := by decide

/-! ### Register accesses -/

/-- K1 -/
theorem test_illegal_command :
    after (step (base.setPending [.access (busWrite .cmd 0x00000050#32)])) (shows .status 0x3020#32) = true := by
  decide +kernel

/-- K6 -/
theorem test_read_id :
    after (step (base.setPending [.access ⟨0x000#32, 4, .read⟩]))
      (fun t => t.observed == [⟨some 0x010000E7#32, false⟩]) = true := by decide

/-- K8 -/
theorem test_refused_accesses :
    refusedAs (step (base.setPending [.access ⟨0x000#32, 1, .read⟩])) .accessWidth = true
      ∧ refusedAs (step (base.setPending [.access ⟨0x002#32, 4, .read⟩])) .accessMisaligned = true
      ∧ refusedAs (step (base.setPending [.access ⟨0x4000#32, 4, .read⟩])) .accessOutsideSpace = true := by decide

/-- Q3 and Q4 -/
theorem test_ctrl_write_raises_irq_at_once :
    after (step ((reject .short base).setPending [.access (busWrite .ctrl 0x13#32)])) (shows .status 0xB002#32) = true
      ∧ after (step ((reject .short base).setPending [.access (busWrite .ctrl 0x03#32)])) (shows .status 0x3002#32) = true := by
  decide +kernel

/-- K7 -/
theorem test_status_write_sets_nothing :
    after (step (base.setPending [.access (busWrite .status 0xFFFFFFFF#32)])) (shows .status 0x3000#32) = true := by
  decide +kernel

/-- 44_crc32.md R229 -/
theorem test_crc32_of_the_digits :
    crc32 (bs [0x31, 0x32, 0x33, 0x34, 0x35, 0x36, 0x37, 0x38, 0x39]) = 0xCBF43926#32 := by decide +kernel

/-! ### The invariant holds of the states below -/

theorem base_record : RxRecInv base.rx := ⟨by decide, by decide, by decide, by decide⟩

theorem base_txInv : TxInv base.tx := ⟨by decide, by decide, by decide, by decide, by decide⟩

theorem base_inv : Inv base := ⟨⟨base_record, ⟨rfl, by decide⟩⟩, base_txInv⟩

theorem stream_inv (st : RxSt) (op : Byte) (d : List Byte) (hw : (Memory.writeList [] 0 d).wf = true)
    (h : RxStInv false (streamSt st op d).rx) : Inv (streamSt st op d) :=
  ⟨⟨⟨hw, fun he => (Bool.noConfusion he), ⟨fun _ => rfl, fun _ => rfl⟩, fun he => (Bool.noConfusion he)⟩, h⟩, base_txInv⟩

theorem hdr_inv (op : Byte) (d : List Byte) (hw : (Memory.writeList [] 0 d).wf = true)
    (h : 1 ≤ d.length ∧ d.length ≤ 4 ∧ (Memory.writeList [] 0 d).read 0 = 0xE7#8) : Inv (streamSt .hdr op d) :=
  stream_inv _ _ _ hw ⟨rfl, h⟩

theorem body_inv (op : Byte) (d : List Byte) (hw : (Memory.writeList [] 0 d).wf = true)
    (h : 5 ≤ d.length ∧ d.length < 5 + (le16 ((Memory.writeList [] 0 d).read 2) ((Memory.writeList [] 0 d).read 3)).toNat
      ∧ (le16 ((Memory.writeList [] 0 d).read 2) ((Memory.writeList [] 0 d).read 3)).toNat ≤ 1029
      ∧ (Memory.writeList [] 0 d).read 0 = 0xE7#8
      ∧ (Memory.writeList [] 0 d).read 4 = sum8 ((Memory.writeList [] 0 d).slice 0 4)) : Inv (streamSt .body op d) :=
  stream_inv _ _ _ hw ⟨rfl, h⟩

theorem hunt_inv : Inv (streamSt .hunt 0x01#8 []) := stream_inv _ _ _ rfl ⟨rfl, rfl⟩

theorem accum_inv (op : Byte) (d : List Byte) (hw : (Memory.writeList [] 0 d).wf = true) (h : d.length ≤ 1035) :
    Inv (accumSt op d) :=
  ⟨⟨⟨hw, fun he => (Bool.noConfusion he), ⟨fun _ => rfl, fun _ => rfl⟩, fun he => (Bool.noConfusion he)⟩, ⟨rfl, h⟩⟩,
    base_txInv⟩

/-- `n` bytes received in datagram mode, all 0. -/
def counted (n : Nat) : State := base.setRx { base.rx with cnt := n }

theorem counted_inv (n : Nat) (h : n ≤ 1035) : Inv (counted n) :=
  ⟨⟨⟨rfl, fun he => (Bool.noConfusion he), ⟨fun _ => rfl, fun _ => rfl⟩, fun he => (Bool.noConfusion he)⟩, ⟨rfl, h⟩⟩,
    base_txInv⟩

theorem open_inv (op : Byte) (n : Nat) (h : n ≤ 1028) : Inv (openSt op n) :=
  ⟨base_inv.rx, ⟨rfl, h, fun hh => (Bool.noConfusion hh.2), fun hh => (Bool.noConfusion hh), fun hh => (Bool.noConfusion hh)⟩⟩

theorem built_inv : Inv builtSt := ⟨base_inv.rx, ⟨by decide, by decide, by decide, by decide, by decide⟩⟩

/-- VersionRequest held in datagram mode. -/
def held : State := readySt (bs [0xE7, 0x01, 0x01, 0x00, 0xE9, 0xD2])

theorem held_inv : Inv held :=
  ⟨⟨⟨by decide, by decide, by decide, by decide⟩,
    ⟨⟨by decide, by decide, by decide, by decide, by decide, by decide⟩, fun h => absurd h (by decide)⟩⟩, base_txInv⟩

/-! ### Witnesses: states and operands that meet each statement's hypotheses, at the edges of each clause -/

/-- DecodeReadsBackEveryEncoding: the longest fields. -/
theorem witness_wellFormed :
    (Instr.writeRequest (List.replicate 1024 0xFF#8) 0xFFFFFFFF#32).wellFormed = true
      ∧ (Instr.writeRequest [] 0#32).wellFormed = true
      ∧ (Instr.readAddressResponse (List.replicate 1028 0xAA#8)).wellFormed = true := by decide +kernel

/-- DecodedFramesReencodeExactly -/
theorem witness_decodes : ∃ d i, decodeFrame d = .ok i := ⟨versionFrame, _, test_decode_version_response⟩

/-- ReservedCommandBitsAreIgnored -/
theorem witness_reserved_bits :
    (∃ w v : Word, w ≠ v ∧ w.extractLsb' 0 16 = v.extractLsb' 0 16)
      ∧ ∃ w v : Word, w.extractLsb' 0 16 ≠ v.extractLsb' 0 16 ∧ w.extractLsb' 0 8 = v.extractLsb' 0 8
        ∧ w.extractLsb' 0 8 ∉ ([0x11#8, 0x13#8, 0x21#8, 0x24#8, 0x30#8, 0x31#8, 0x41#8] : List Byte) :=
  ⟨⟨0xABCD0010#32, 0x00000010#32, by decide, by decide⟩, 0x0000FF10#32, 0x00000010#32, by decide, by decide, by decide⟩

/-- IllegalCommandsOnlySetCmderr -/
theorem witness_illegal : decodeCommand 0x00000050#32 = .error .illegalCommand := rfl

/-- EncodedFramesHaveTheWireLayout -/
theorem witness_layout :
    (∃ i d, i.wellFormed = true ∧ encode i = .frame d)
      ∧ ∃ d : List Byte, 6 ≤ d.length ∧ d.getD 4 0#8 = sum8 (d.take 4) :=
  ⟨⟨.versionRequest, _, rfl, rfl⟩, bs [0xE7, 0x01, 0x01, 0x00, 0xE9, 0xD2], by decide, by decide⟩

/-- StepRunsTheDecodedInstruction -/
theorem witness_step :
    (∃ (s : State) (w : Word) (i : Instr), s.pending = .access (busWrite .cmd w) :: [] ∧ decodeCommand w = .ok i)
      ∧ ∃ (s : State) (d : List Byte) (i : Instr), s.pending = .datagram d :: [] ∧ decodeFrame d = .ok i :=
  ⟨⟨base.setPending [.access (busWrite .cmd 0x00000011#32)], 0x00000011#32, _, rfl, rfl⟩,
    base.setPending [.datagram versionFrame], versionFrame, _, rfl, test_decode_version_response⟩

/-- OnlyAlignedWordAccessesGetAStep: the last offset with a step, and a width, an offset and an alignment without. -/
theorem witness_accesses :
    (∃ a : Access, a.bytes = 4 ∧ a.off.toNat % 4 = 0 ∧ a.off.toNat < 0x4000 ∧ a.off.toNat = 0x3FFC)
      ∧ (∃ a : Access, ¬(a.bytes = 4 ∧ a.off.toNat % 4 = 0 ∧ a.off.toNat < 0x4000) ∧ a.off.toNat = 0x4000)
      ∧ (∃ a : Access, ¬(a.bytes = 4 ∧ a.off.toNat % 4 = 0 ∧ a.off.toNat < 0x4000) ∧ a.off.toNat = 0x3FFE)
      ∧ ∃ a : Access, ¬(a.bytes = 4 ∧ a.off.toNat % 4 = 0 ∧ a.off.toNat < 0x4000) ∧ a.bytes = 2 :=
  ⟨⟨⟨0x3FFC#32, 4, .read⟩, by decide⟩, ⟨⟨0x4000#32, 4, .read⟩, by decide⟩, ⟨⟨0x3FFE#32, 4, .read⟩, by decide⟩,
    ⟨0x0000#32, 2, .read⟩, by decide⟩

/-- UnmappedOffsetsReadZeroAndIgnoreWrites: the ends of each mapped range, and the offsets beside them. -/
theorem witness_offsets :
    (∀ off ∈ [0x000, 0x048, 0x1000, 0x1408, 0x2000, 0x2408], off < 0x4000 ∧ off % 4 = 0
        ∧ (off ≤ 0x048 ∨ (0x1000 ≤ off ∧ off ≤ 0x1408) ∨ (0x2000 ≤ off ∧ off ≤ 0x2408)) ∧ (regAt off).isSome = true)
      ∧ ∀ off ∈ [0x04C, 0x0FFC, 0x140C, 0x1FFC, 0x240C, 0x3FFC], off < 0x4000 ∧ off % 4 = 0
        ∧ ¬(off ≤ 0x048 ∨ (0x1000 ≤ off ∧ off ≤ 0x1408) ∨ (0x2000 ≤ off ∧ off ≤ 0x2408)) ∧ (regAt off).isSome = false := by
  decide

/-- ReadOnlyRegistersAndReservedBitsIgnoreWrites -/
theorem witness_read_only :
    (∃ r : Reg, r ≠ .ctrl ∧ r ≠ .status ∧ r ≠ .cmd ∧ r ≠ .wdata) ∧ ∃ s, Inv s :=
  ⟨⟨.csSum, by decide⟩, base, base_inv⟩

/-- CtrlWriteStoresBitsAndModeChangeResetsDeframer: DGRAM kept and changed. -/
theorem witness_ctrl : (0x00000003#32).getLsbD 0 = base.ctrl.dgram ∧ (0x00000002#32).getLsbD 0 ≠ base.ctrl.dgram := by decide

/-- OnlyNamedInstructionsWriteWdataCtrlAndExpect -/
theorem witness_named :
    (∃ t, exec .rxEod base = .next t ∧ Instr.rxEod ≠ .softRst ∧ ∀ b, Instr.rxEod ≠ .rxExpect b)
      ∧ ∃ t, exec .softRst base = .next t :=
  ⟨⟨_, rfl, by decide, fun _ h => Instr.noConfusion h⟩, _, rfl⟩

/-- RegistersShowTheirVariables: TXRDY 1 and 0. -/
theorem witness_registers : (Inv builtSt ∧ builtSt.tx.rdy = true) ∧ Inv base ∧ base.tx.rdy = false :=
  ⟨⟨built_inv, rfl⟩, base_inv, rfl⟩

/-- CsClrClearsOnlyTheSum -/
theorem witness_sum_zero : base.cs.sum = 0#8 := rfl

/-- ChecksumCommandsAddModulo256: another order of WDATA's bytes. -/
theorem witness_perm : [0x44#8, 0x43#8, 0x42#8, 0x41#8].Perm (bytesLe32 base.wdata) := by decide

/-- CsCmpComparesAndKeepsItsResult, CrcCmpComparesPatterns -/
theorem witness_kept :
    (∃ t, exec (.csAdd 0x01#8) base = .next t) ∧ Instr.csAdd 0x01#8 ≠ .softRst ∧ Instr.csAdd 0x01#8 ≠ .crcCmp
      ∧ ∀ b, Instr.csAdd 0x01#8 ≠ .csCmp b :=
  ⟨⟨_, rfl⟩, by decide, by decide, fun _ h => Instr.noConfusion h⟩

/-- RxExpectSetsTheExpectedOpcode: the frame of D14. -/
theorem witness_undefined_op :
    let s := accumSt 0x0D#8 (bs [0xE7, 0x0D, 0x01, 0x00, 0xF5, 0xEA])
    s.rx.buf.read 1 = 0x0D#8 ∧ opDefined 0x0D#8 = false ∧ s.rx.buf.read (6 - 1) = sum8 (s.rx.buf.slice 0 (6 - 1))
      ∧ opOk 0x0D#8 s = true ∧ opOk 0xFF#8 s = true := by decide

/-- RxAckReleasesAHeldFrame, BytesAreDroppedWhileAFrameIsHeld, RxbufShowsTheHeldFrame, ViewsReadZeroUnlessAFrameIsHeld -/
theorem witness_held : (Inv held ∧ held.rx.st = .ready) ∧ base.rx.st ≠ .ready ∧ [0x00#8] ≠ ([] : List Byte) :=
  ⟨⟨held_inv, rfl⟩, by decide, by decide⟩

/-- RxByteHuntsForTheSyncByte: the sync byte and another. -/
theorem witness_hunt :
    ∃ s, Inv s ∧ s.rx.st = .hunt ∧ s.ctrl.dgram = false ∧ (∃ b : Byte, b = 0xE7#8) ∧ ∃ b : Byte, b ≠ 0xE7#8 :=
  ⟨_, hunt_inv, rfl, rfl, ⟨_, rfl⟩, 0x55#8, by decide⟩

/-- RxByteAccumulatesADatagram: the last byte stored, the first one not stored, and the saturated count. -/
theorem witness_accum : ∀ n ∈ [0, 1033, 1034, 1035], Inv (counted n) ∧ (counted n).rx.st = .accum ∧ (counted n).rx.cnt = n := by
  intro n hn
  refine ⟨counted_inv n ?_, rfl, rfl⟩
  revert n
  decide

/-- The length field of a candidate. -/
def lengthOf (s : State) : Nat := (le16 (s.rx.buf.read 2) (s.rx.buf.read 3)).toNat

/-- RxByteChecksTheHeaderAtItsFifthByte: before the fifth byte; a wrong checksum; and `L` of 0, 1, 1029 and 1030. -/
theorem witness_header :
    (∃ s, Inv s ∧ s.rx.st = .hdr ∧ s.rx.cnt < 4)
      ∧ (∃ s, Inv s ∧ s.rx.st = .hdr ∧ s.rx.cnt = 4 ∧ 0x00#8 ≠ sum8 (s.rx.buf.slice 0 4))
      ∧ ∀ lb ∈ [((0 : Nat), (0xE8#8 : Byte)), (1, 0xE9#8), (1029, 0xF1#8), (1030, 0xF2#8)],
          ∃ s, Inv s ∧ s.rx.st = .hdr ∧ s.rx.cnt = 4 ∧ lb.2 = sum8 (s.rx.buf.slice 0 4) ∧ lengthOf s = lb.1 := by
  refine ⟨⟨streamSt .hdr 0x01#8 (bs [0xE7, 0x01, 0x01]), hdr_inv _ _ (by decide) (by decide), rfl, by decide⟩,
    ⟨streamSt .hdr 0x01#8 (bs [0xE7, 0xE7, 0x01, 0x01]), hdr_inv _ _ (by decide) (by decide), rfl, rfl, by decide⟩, ?_⟩
  intro lb hlb
  simp only [List.mem_cons, List.not_mem_nil, or_false] at hlb
  rcases hlb with rfl | rfl | rfl | rfl
  · exact ⟨streamSt .hdr 0x01#8 (bs [0xE7, 0x01, 0x00, 0x00]), hdr_inv _ _ (by decide) (by decide), rfl, rfl, by decide,
      by decide⟩
  · exact ⟨streamSt .hdr 0x01#8 (bs [0xE7, 0x01, 0x01, 0x00]), hdr_inv _ _ (by decide) (by decide), rfl, rfl, by decide,
      by decide⟩
  · exact ⟨streamSt .hdr 0x01#8 (bs [0xE7, 0x01, 0x05, 0x04]), hdr_inv _ _ (by decide) (by decide), rfl, rfl, by decide,
      by decide⟩
  · exact ⟨streamSt .hdr 0x01#8 (bs [0xE7, 0x01, 0x06, 0x04]), hdr_inv _ _ (by decide) (by decide), rfl, rfl, by decide,
      by decide⟩

/-- RxByteRunsTheTailChecksOnTheLastByte: a byte before the last; the last of an accepted and of a rejected frame. -/
theorem witness_body :
    (∃ s, Inv s ∧ s.rx.st = .body ∧ s.rx.cnt + 1 ≠ 5 + lengthOf s)
      ∧ (∃ s, Inv s ∧ s.rx.st = .body ∧ s.rx.cnt + 1 = 5 + lengthOf s
        ∧ tailVerdict s.ctrl.anyop s.rx.expect (s.rx.buf.slice 0 s.rx.cnt ++ [0xD2#8]) = .none)
      ∧ ∃ s, Inv s ∧ s.rx.st = .body ∧ s.rx.cnt + 1 = 5 + lengthOf s
        ∧ tailVerdict s.ctrl.anyop s.rx.expect (s.rx.buf.slice 0 s.rx.cnt ++ [0xD3#8]) ≠ .none :=
  ⟨⟨streamSt .body 0x03#8 (bs [0xE7, 0x03, 0x05, 0x00, 0xEF]), body_inv _ _ (by decide) (by decide), rfl, by decide⟩,
    ⟨streamSt .body 0x01#8 (bs [0xE7, 0x01, 0x01, 0x00, 0xE9]), body_inv _ _ (by decide) (by decide), rfl, by decide,
      by decide⟩,
    streamSt .body 0x01#8 (bs [0xE7, 0x01, 0x01, 0x00, 0xE9]), body_inv _ _ (by decide) (by decide), rfl, by decide,
      by decide⟩

/-- RxEodTakesTheDatagramVerdict: not ACCUM; 1035 bytes; accepted; rejected. -/
theorem witness_eod :
    (∃ s, Inv s ∧ s.rx.st ≠ .accum) ∧ (∃ s, Inv s ∧ s.rx.st = .accum ∧ s.rx.cnt = 1035)
      ∧ (∃ s, Inv s ∧ s.rx.st = .accum ∧ s.rx.cnt ≤ 1034
        ∧ frameVerdict s.ctrl.syncchk s.ctrl.anyop s.rx.expect (s.rx.buf.slice 0 s.rx.cnt) = .none)
      ∧ ∃ s, Inv s ∧ s.rx.st = .accum ∧ s.rx.cnt ≤ 1034
        ∧ frameVerdict s.ctrl.syncchk s.ctrl.anyop s.rx.expect (s.rx.buf.slice 0 s.rx.cnt) ≠ .none :=
  ⟨⟨_, hunt_inv, by decide⟩, ⟨counted 1035, counted_inv _ (by decide), rfl, rfl⟩,
    ⟨accumSt 0x01#8 (bs [0xE7, 0x01, 0x01, 0x00, 0xE9, 0xD2]), accum_inv _ _ (by decide) (by decide), rfl, by decide,
      by decide⟩,
    base, base_inv, rfl, by decide, by decide⟩

/-- TxAppendsAreAllOrNothing: no frame open; one byte or word too many; the last that fits. -/
theorem witness_append :
    (Inv base ∧ base.tx.isOpen = false)
      ∧ (∀ n ∈ [(1028, 1), (1025, 4)], Inv (openSt 0x07#8 n.1) ∧ (openSt 0x07#8 n.1).tx.isOpen = true
        ∧ 1028 < (openSt 0x07#8 n.1).tx.plen + n.2)
      ∧ ∀ n ∈ [(1027, 1), (1024, 4)], Inv (openSt 0x07#8 n.1) ∧ (openSt 0x07#8 n.1).tx.isOpen = true
        ∧ (openSt 0x07#8 n.1).tx.plen + n.2 ≤ 1028 := by
  refine ⟨⟨base_inv, rfl⟩, fun n hn => ?_, fun n hn => ?_⟩ <;>
    · simp only [List.mem_cons, List.not_mem_nil, or_false] at hn
      rcases hn with rfl | rfl <;> exact ⟨open_inv _ _ (by decide), rfl, by decide⟩

/-- TxEndCompletesTheFrame: no frame open; an empty and a full one open, and so none built; one built. -/
theorem witness_end :
    (Inv base ∧ base.tx.isOpen = false) ∧ (Inv (openSt 0x01#8 0) ∧ (openSt 0x01#8 0).tx.isOpen = true)
      ∧ (Inv (openSt 0x0C#8 1028) ∧ (openSt 0x0C#8 1028).tx.isOpen = true ∧ (openSt 0x0C#8 1028).tx.rdy = false)
      ∧ Inv builtSt ∧ builtSt.tx.rdy = true :=
  ⟨⟨base_inv, rfl⟩, ⟨open_inv _ _ (by decide), rfl⟩, ⟨open_inv _ _ (by decide), rfl, rfl⟩, built_inv, rfl⟩

/-- BuiltFrameIsTheEncodingOfItsPayload: the longest payload. -/
theorem witness_payload : Inv base ∧ (List.replicate 1028 0xAA#8).length ≤ 1028 := ⟨base_inv, Nat.le_of_eq List.length_replicate⟩

/-- The messages' statements, in datagram and in stream mode: an empty deframer that takes the op code. -/
theorem witness_empty :
    (∃ s, Inv s ∧ RxEmpty s ∧ s.ctrl.dgram = true) ∧ (∃ s, Inv s ∧ RxEmpty s ∧ s.ctrl.dgram = false)
      ∧ ∀ op : Byte, Inv (accumSt op []) ∧ RxEmpty (accumSt op []) ∧ opOk op (accumSt op []) = true :=
  ⟨⟨base, base_inv, ⟨.inl rfl, rfl⟩, rfl⟩, ⟨_, hunt_inv, ⟨.inr rfl, rfl⟩, rfl⟩,
    fun op => ⟨accum_inv op [] rfl (by decide), ⟨.inl rfl, rfl⟩, by simp [opOk, accumSt]⟩⟩

/-- MessagesWithoutPayloadAreReceived and MessagesOfOneWordAreReceived: a row of each list. -/
theorem witness_rows :
    ((Instr.resetResponse, 0x0A#8) ∈ ([(.versionRequest, 0x01#8), (.updateStartResponse, 0x04#8), (.writeResponse, 0x08#8),
      (.resetRequest, 0x09#8), (.resetResponse, 0x0A#8)] : List (Instr × Byte)))
      ∧ (Instr.updateStopResponse 5#32, 0x06#8) ∈ ([(.updateStartRequest 5#32, 0x03#8), (.updateStopRequest 5#32, 0x05#8),
        (.updateStopResponse 5#32, 0x06#8)] : List (Instr × Byte)) := by decide

/-- VersionResponseIsReceived, WriteRequestIsReceived, ReadAddressResponseIsReceived: the lengths at their ends. -/
theorem witness_lengths :
    note.length = 128 ∧ (List.replicate 1024 0#8).length ≤ 1024 ∧ ([] : List Byte).length ≤ 1024
      ∧ (List.replicate 3 0#8).length < 4 ∧ 4 ≤ (List.replicate 4 0#8).length ∧ (List.replicate 1028 0#8).length ≤ 1028 := by
  decide +kernel

/-- MessagesWithUnexpectedOpcodeAreRejected: VersionRequest with another op code expected. -/
theorem witness_unexpected :
    Inv (accumSt 0x03#8 []) ∧ RxEmpty (accumSt 0x03#8 []) ∧ Instr.versionRequest.wellFormed = true
      ∧ encode .versionRequest = .frame (mkFrame 0x01#8 []) ∧ opOk ((mkFrame 0x01#8 []).getD 1 0#8) (accumSt 0x03#8 []) = false :=
  ⟨accum_inv _ [] rfl (by decide), ⟨.inl rfl, rfl⟩, rfl, rfl, by decide⟩

/-- EveryStepKeepsInvariant: a step that changes the state. -/
theorem witness_kept_invariant :
    Inv ((accumSt 0x01#8 (bs [0xE7, 0x01])).setPending [commandEvent .rxEod])
      ∧ runs .rxEod (accumSt 0x01#8 (bs [0xE7, 0x01])) (fun t => t.rx.err) = true :=
  have h : Inv (accumSt 0x01#8 (bs [0xE7, 0x01])) := accum_inv _ _ (by decide) (by decide)
  ⟨⟨h.rx, h.tx⟩, by decide⟩

/-- DatagramVerdictAgreesWithTheSourceDecode: an accepted and a rejected datagram. -/
theorem witness_verdicts :
    Inv (accumSt 0x01#8 []) ∧ (accumSt 0x01#8 []).rx.st = .accum ∧ (accumSt 0x01#8 []).rx.cnt = 0
      ∧ frameVerdict true false 0x01#8 (bs [0xE7, 0x01, 0x01, 0x00, 0xE9, 0xD2]) = .none
      ∧ frameVerdict true false 0x01#8 (bs [0xE7, 0x01, 0x01, 0x00, 0xE9]) = .short :=
  ⟨accum_inv _ [] rfl (by decide), rfl, rfl, by decide, by decide⟩

/-- BuiltFramesAreReceivedUnchanged: the shortest and the longest payload. -/
theorem witness_shapes : shapeOk 0x01#8 ([] : List Byte).length = true ∧ shapeOk 0x0C#8 (List.replicate 1028 0xAA#8).length = true := by
  decide +kernel

/-- NoSingleBitFlipIsAccepted: VersionRequest, flips at the edges of each clause, in both modes. -/
theorem witness_flip :
    let d := bs [0xE7, 0x01, 0x01, 0x00, 0xE9, 0xD2]
    (6 ≤ d.length ∧ d.length ≤ 1034 ∧ d.getD 0 0#8 = 0xE7#8 ∧ d.getD 4 0#8 = sum8 (d.take 4)
        ∧ (le16 (d.getD 2 0#8) (d.getD 3 0#8)).toNat = d.length - 5 ∧ d.getD (d.length - 1) 0#8 = sum8 (d.take (d.length - 1)))
      ∧ (∀ k ∈ [0, 1, 4, 5], k < d.length)
      ∧ (Inv base ∧ RxEmpty base ∧ base.rx.st = .accum)
      ∧ Inv (streamSt .hunt 0x01#8 []) ∧ RxEmpty (streamSt .hunt 0x01#8 []) ∧ (streamSt .hunt 0x01#8 []).rx.st = .hunt :=
  ⟨by decide, by decide, ⟨base_inv, ⟨.inl rfl, rfl⟩, rfl⟩, hunt_inv, ⟨.inr rfl, rfl⟩, rfl⟩

/-- StreamResyncDoesNotRescanTheCandidate -/
theorem witness_resync :
    ∃ s, Inv s ∧ s.rx.st = .hunt ∧ s.rx.disc.toNat + 2 ≤ 0xFFFFFFFF ∧ 0x00#8 ≠ sum8 [0xE7#8, 0xE7#8, 0x01#8, 0x01#8] :=
  ⟨_, hunt_inv, rfl, by decide, by decide⟩

/-- NoObservationDependsOnStaleBufferBytes: two states that differ in a stale byte of each buffer. -/
theorem witness_stale :
    ∃ s u, Inv s ∧ Inv u ∧ SameButStale s u ∧ s ≠ u :=
  ⟨base, (base.setRx { base.rx with buf := [(9, 0x5A#8)] }).setTx { base.tx with buf := [(9, 0x5A#8)] }, base_inv,
    ⟨⟨⟨by decide, by decide, by decide, by decide⟩, ⟨rfl, by decide⟩⟩, ⟨by decide, by decide, by decide, by decide, by decide⟩⟩,
    ⟨rfl, ⟨rfl, fun _ h => absurd h (Nat.not_lt_zero _)⟩, rfl, fun h => Bool.noConfusion h, fun h => Bool.noConfusion h⟩,
    by decide⟩

/-- AdmittedRunsNeverStop -/
theorem witness_admitted :
    ∀ e ∈ ([.access ⟨0x3FFC#32, 4, .write 7#32⟩, .datagram [], .hardReset] : List Event), e.admitted = true := by decide

/-- RecordedErrorsAreSticky -/
theorem witness_sticky :
    let s := cmdError (txError .state (rxOverrun (reject .short base)))
    (∃ t, exec .txEnd s = .next t) ∧ Instr.txEnd ≠ .softRst ∧ Instr.txEnd ≠ .rxRst ∧ s.tx.err = true ∧ s.cmderr = true
      ∧ s.rx.err = true ∧ s.rx.ovr = true := ⟨⟨_, rfl⟩, by decide, by decide, by decide, by decide, by decide, by decide⟩

end Sys2Proof.Tests
end

section
/-! SUPPORT. The invariant of the machine's states (10_state.md R44, R46): it speaks of CTRL.DGRAM, the deframer and the
framer alone, so an operation keeps it when it keeps the part of the one unit it touches. -/

namespace Sys2Proof.Machine

/-! ### What one instruction can touch -/

theorem rxFeedByte_expect (b : Byte) (s : State) : (rxFeedByte b s).rx.expect = s.rx.expect := by
  unfold rxFeedByte
  split
  · unfold rxByteHunt; split <;> rfl
  · unfold rxByteHdr rxHeaderVerdict; simp only; split_ifs <;> rfl
  · unfold rxByteBody conclude; simp only; split_ifs <;> rfl
  · rfl
  · rfl

theorem rxEndDatagram_expect (s : State) : (rxEndDatagram s).rx.expect = s.rx.expect := by
  unfold rxEndDatagram conclude; split_ifs <;> rfl

theorem rxRelease_expect (s : State) : (rxRelease s).rx.expect = s.rx.expect := by
  unfold rxRelease; split <;> rfl

theorem rxDatagram_expect (d : List Byte) (s : State) : (rxDatagram d s).rx.expect = s.rx.expect := by
  rw [rxDatagram_rx, rxEndDatagram_expect]
  induction d generalizing s with
  | nil => rfl
  | cons b d ih => rw [rxFeedPlain_cons, ih, rxFeedByte_expect]

theorem SameButRx.onlyReceived {s t : State} (h : SameButRx s t) : OnlyReceived 0 s t := by
  obtain ⟨hctrl, hwdata, hcs, hcrc, htx, hcmderr, hpending, hobserved⟩ := h.rest
  exact ⟨hctrl, hwdata, hcs, hcrc, htx, hcmderr, hpending, [], rfl, by simp, hobserved⟩

/-- What instruction `i` can do to `s`: reset everything, or touch one unit, whose part of the invariant it keeps
(40_checksum.md R115, 43_framer.md R209). -/
inductive ExecEffect (i : Instr) (s t : State) : Prop where
  | reset (hi : i = .softRst) (ht : t = resetAll s)
  | checksum (c : Cs) (ht : t = s.setCs c)
  | crc (c : Crc) (ht : t = s.setCrc c)
  | framer (ht : SameButTx s t) (hinv : TxInv s.tx → TxInv t.tx)
  | deframer (n : Nat) (ht : OnlyReceived n s t) (hinv : RxInv s.ctrl.dgram s.rx → RxInv s.ctrl.dgram t.rx)
      (hexpect : (∀ b, i ≠ .rxExpect b) → t.rx.expect = s.rx.expect)

theorem ExecEffect.ofTxAppend (i : Instr) (l : List Byte) (s : State) : ExecEffect i s (txAppend l s) :=
  .framer (txAppend_sameButTx l s) txAppend_inv

/-- TX_END closes an open frame or records that there is none (43_framer.md R206). -/
theorem execTxEnd_effect {s t : State} (h : execTxEnd s = .next t) : ExecEffect .txEnd s t := by
  unfold execTxEnd at h
  split at h
  · cases h; exact .framer rfl fun hi => txError_inv hi (by decide)
  · cases h; exact .framer rfl txClose_inv

/-- TX_BEGIN opens an empty payload (43_framer.md R202). -/
theorem TxInv.begin {t : Tx} (h : TxInv t) (op : Byte) :
    TxInv { t with op := op, plen := 0, isOpen := true, rdy := false } :=
  ⟨h.wf, Nat.zero_le _, by simp, by simp, h.err_code⟩

/-- The deframer's invariant does not speak of the expected op code. -/
theorem RxInv.setExpect {dgram : Bool} {r : Rx} (h : RxInv dgram r) (e : Byte) : RxInv dgram { r with expect := e } :=
  ⟨⟨h.record.wf, h.record.err_code, h.record.code_count, h.record.ovr_disc⟩, h.st⟩

theorem exec_effect {i : Instr} {s t : State} (h : exec i s = .next t) : ExecEffect i s t := by
  cases henc : encode i with
  | frame d =>
    rw [exec_message henc] at h
    cases h
    exact .deframer _ (rxDatagram_onlyReceived d s) (rxDatagram_inv d) fun _ => rxDatagram_expect d s
  | command w =>
    cases i <;> simp only [encode, reduceCtorEq] at henc
    case nop | csClr | csAdd | csAddw | csCmp => cases h; exact .checksum _ rfl
    case crcInit | crcByte | crcWord | crcCmp => cases h; exact .crc _ rfl
    case rxRst =>
      cases h; exact .deframer _ (rxReset_sameButRx s).onlyReceived (fun hi => rxReset_inv hi.record) fun _ => rfl
    case rxByte b =>
      cases h
      exact .deframer _ (rxFeedByte_sameButRx b s).onlyReceived (rxFeedByte_inv b) fun _ => rxFeedByte_expect b s
    case rxEod =>
      cases h
      exact .deframer _ (rxEndDatagram_sameButRx s).onlyReceived rxEndDatagram_inv fun _ => rxEndDatagram_expect s
    case rxAck =>
      cases h; exact .deframer _ (rxRelease_sameButRx s).onlyReceived rxRelease_inv fun _ => rxRelease_expect s
    case rxExpect b =>
      cases h
      exact .deframer _ (SameButRx.setRx s _).onlyReceived (fun hi => hi.setExpect b) fun hne => absurd rfl (hne b)
    case txBegin b => cases h; exact .framer rfl fun hi => hi.begin b
    case txPut | txPutw | txPutcrc => cases h; exact .ofTxAppend _ _ s
    case txEnd => exact execTxEnd_effect h
    case softRst => cases h; exact .reset rfl rfl

/-! ### The invariant is kept -/

theorem inv_reset : Inv State.reset :=
  ⟨⟨⟨rfl, by decide, by decide, by decide⟩, rfl, by decide⟩, ⟨rfl, by decide, by decide, by decide, by decide⟩⟩

/-- The deframer, the framer and DGRAM are at their reset values, whatever is pending and observed. -/
theorem inv_resetAll (s : State) : Inv (resetAll s) := ⟨inv_reset.rx, inv_reset.tx⟩

theorem Inv.setPending {s : State} (h : Inv s) (l : List Event) : Inv (s.setPending l) := ⟨h.rx, h.tx⟩

theorem Inv.observe {s : State} (h : Inv s) (v : Option Word) : Inv (observe v s) := ⟨h.rx, h.tx⟩

theorem Inv.onlyReceived {s t : State} {n : Nat} (h : Inv s) (ht : OnlyReceived n s t)
    (hr : RxInv s.ctrl.dgram t.rx) : Inv t :=
  ⟨by rw [ht.ctrl]; exact hr, by rw [ht.tx]; exact h.tx⟩

theorem Inv.sameButTx {s t : State} (h : Inv s) (ht : SameButTx s t) (hx : TxInv t.tx) : Inv t := by
  rw [ht]; exact ⟨h.rx, hx⟩

theorem Inv.rxDatagram {s : State} (h : Inv s) (d : List Byte) : Inv (rxDatagram d s) :=
  h.onlyReceived (rxDatagram_onlyReceived d s) (rxDatagram_inv d h.rx)

/-- Every instruction keeps the invariant. -/
theorem exec_inv {i : Instr} {s t : State} (hs : Inv s) (h : exec i s = .next t) : Inv t := by
  cases exec_effect h with
  | reset _ ht => rw [ht]; exact inv_resetAll s
  | checksum c ht => rw [ht]; exact ⟨hs.rx, hs.tx⟩
  | crc c ht => rw [ht]; exact ⟨hs.rx, hs.tx⟩
  | framer ht hinv => exact hs.sameButTx ht (hinv hs.tx)
  | deframer n ht hinv _ => exact hs.onlyReceived ht (hinv hs.rx)

theorem Inv.writeCtrl {s : State} (h : Inv s) (v : Word) : Inv (writeCtrl v s) := by
  unfold Machine.writeCtrl
  simp only
  split
  · next hmode =>
    have hdgram : (Ctrl.ofWord v).dgram = s.ctrl.dgram := hmode
    exact ⟨by simpa only [State.setCtrl_ctrl, State.setCtrl_rx, hdgram] using h.rx, h.tx⟩
  · exact ⟨rxReset_inv (s := s.setCtrl (Ctrl.ofWord v)) h.rx.record, h.tx⟩

/-- Clearing error bits keeps the error records consistent: the codes and counts stay. -/
theorem Inv.writeStatus {s : State} (h : Inv s) (v : Word) : Inv (writeStatus v s) := by
  obtain ⟨⟨⟨hwf, herr, hcode, hovr⟩, hst⟩, ⟨htwf, hplen, hphase, hbuilt, hterr⟩⟩ := h
  have cleared : ∀ {b m : Bool}, (b && !m) = true → b = true := fun hb => (Bool.and_eq_true_iff.1 hb).1
  exact ⟨⟨⟨hwf, fun he => herr (cleared he), hcode, fun ho => hovr (cleared ho)⟩, hst⟩,
    ⟨htwf, hplen, hphase, hbuilt, fun he => hterr (cleared he)⟩⟩

theorem writeReg_inv {r : Reg} {v : Word} {s t : State} (hs : Inv s) (h : writeReg r v s = .next t) : Inv t := by
  unfold writeReg at h
  split at h
  · cases h; exact hs.writeCtrl v
  · cases h; exact hs.writeStatus v
  · unfold runCommand at h
    split at h
    · exact exec_inv hs h
    · cases h; exact ⟨hs.rx, hs.tx⟩
  · cases h; exact ⟨hs.rx, hs.tx⟩
  · cases h; exact hs

theorem writeOffset_inv {off : Nat} {v : Word} {s t : State} (hs : Inv s) (h : writeOffset off v s = .next t) : Inv t := by
  unfold writeOffset at h
  split at h
  · exact writeReg_inv hs h
  · cases h; exact hs

theorem runAccess_inv {a : Access} {s t : State} (hs : Inv s) (h : runAccess a s = .next t) : Inv t := by
  unfold runAccess at h
  split at h
  · cases h
  · split at h
    · cases h; exact hs.observe _
    · obtain ⟨u, hu, rfl⟩ := mapNext_eq_next h
      exact (writeOffset_inv hs hu).observe none

theorem runEvent_inv {e : Event} {s t : State} (hs : Inv s) (h : runEvent e s = .next t) : Inv t := by
  cases e with
  | access a => exact runAccess_inv hs h
  | datagram d =>
    rw [runEvent, runDatagram_eq] at h
    cases h
    exact (hs.rxDatagram d).observe none
  | hardReset => cases h; exact inv_resetAll s

theorem step_inv {s t : State} (hs : Inv s) (h : step s = .next t) : Inv t := by
  cases hp : s.pending with
  | nil => rw [step_nil hp] at h; cases h; exact hs
  | cons e rest => rw [step_of_pending hp] at h; exact runEvent_inv (hs.setPending rest) h

/-- Settles O52: a step is one event, and each kind of event keeps the invariant. -/
theorem everyStepKeepsInvariant : Obligations.EveryStepKeepsInvariant :=
  fun _ _ hs h => step_inv hs h

/-- Settles O2: each clause at its value of 10_state.md R49. -/
theorem resetSatisfiesInvariant : Obligations.ResetSatisfiesInvariant := inv_reset

/-- Settles O17: an instruction other than SOFT_RST touches one unit, and neither WDATA nor CTRL is part of one; of
those of the deframer only RX_EXPECT reaches the expected op code. -/
theorem onlyNamedInstructionsWriteWdataCtrlAndExpect : Obligations.OnlyNamedInstructionsWriteWdataCtrlAndExpect := by
  refine ⟨fun s v => ⟨_, rfl, rfl, rfl⟩, fun i s t h hi => ?_, fun s t h => ?_⟩
  · cases exec_effect h with
    | reset hreset _ => exact absurd hreset hi
    | checksum c ht => rw [ht]; exact ⟨rfl, rfl, fun _ => rfl⟩
    | crc c ht => rw [ht]; exact ⟨rfl, rfl, fun _ => rfl⟩
    | framer ht _ => rw [ht]; exact ⟨rfl, rfl, fun _ => rfl⟩
    | deframer n ht _ hexpect => exact ⟨ht.wdata, ht.ctrl, hexpect⟩
  · cases h; exact ⟨rfl, rfl⟩

end Sys2Proof.Machine
end

section
/-! SUPPORT. Stale buffer bytes show nowhere (10_state.md R45): what two states that differ in them only answer to the
same register write, access, event and step. -/

namespace Sys2Proof.Machine

/-! ### The register writes -/

theorem RxAgree.rxReset {s u : State} (hc : u.ctrl = s.ctrl) (h : RxAgree s.rx u.rx) :
    RxAgree (rxReset s).rx (rxReset u).rx := by
  refine ⟨?_, fun a ha => absurd (Nat.lt_of_lt_of_le ha (Nat.min_le_left _ _)) (Nat.not_lt_zero a)⟩
  simp only [Machine.rxReset, rxIdle, State.setRx_rx, hc]
  rw [h.1]

theorem SameButStale.setCtrl {s u : State} (h : SameButStale s u) (c : Ctrl) :
    SameButStale (s.setCtrl c) (u.setCtrl c) := by
  obtain ⟨-, hwdata, hcs, hcrc, hcmderr, hpending, hobserved⟩ := h.fields
  obtain ⟨-, hrx, htx⟩ := h
  exact .of rfl hwdata hcs hcrc hcmderr hpending hobserved hrx htx

theorem SameButStale.setPending {s u : State} (h : SameButStale s u) (l : List Event) :
    SameButStale (s.setPending l) (u.setPending l) := by
  obtain ⟨hctrl, hwdata, hcs, hcrc, hcmderr, -, hobserved⟩ := h.fields
  obtain ⟨-, hrx, htx⟩ := h
  exact .of hctrl hwdata hcs hcrc hcmderr rfl hobserved hrx htx

theorem SameButStale.cmdError {s u : State} (h : SameButStale s u) : SameButStale (cmdError s) (cmdError u) := by
  obtain ⟨hctrl, hwdata, hcs, hcrc, -, hpending, hobserved⟩ := h.fields
  obtain ⟨-, hrx, htx⟩ := h
  exact .of hctrl hwdata hcs hcrc rfl hpending hobserved hrx htx

theorem SameButStale.writeWdata {s u : State} (h : SameButStale s u) (v : Word) :
    SameButStale (writeWdata v s) (writeWdata v u) := by
  obtain ⟨hctrl, -, hcs, hcrc, hcmderr, hpending, hobserved⟩ := h.fields
  obtain ⟨-, hrx, htx⟩ := h
  exact .of hctrl rfl hcs hcrc hcmderr hpending hobserved hrx htx

theorem SameButStale.writeCtrl {s u : State} (h : SameButStale s u) (v : Word) :
    SameButStale (writeCtrl v s) (writeCtrl v u) := by
  have hset := h.setCtrl (Ctrl.ofWord v)
  unfold Machine.writeCtrl
  simp only
  rw [h.fields.1]
  split
  · exact hset
  · have hrx := hset.2.1
    exact hset.rxOp rxReset_sameButRx (.rxReset rfl hrx)

theorem SameButStale.writeStatus {s u : State} (h : SameButStale s u) (v : Word) :
    SameButStale (writeStatus v s) (writeStatus v u) := by
  obtain ⟨hctrl, hwdata, hcs, hcrc, hcmderr, hpending, hobserved⟩ := h.fields
  obtain ⟨-, ⟨hrx, hcandidate⟩, ⟨htx, hopen, hbuilt⟩⟩ := h
  refine .of hctrl hwdata hcs hcrc (congrArg (· && !v.getLsbD 5) hcmderr) hpending hobserved ⟨?_, hcandidate⟩
    ⟨?_, hopen, hbuilt⟩
  · show ({ u.rx with err := u.rx.err && _, ovr := u.rx.ovr && _ } : Rx) = _
    rw [hrx]; rfl
  · show ({ u.tx with err := u.tx.err && _ } : Tx) = _
    rw [htx]; rfl

/-! ### Outcomes -/

/-- Two outcomes of the same kind: next states that differ in stale bytes only, or the same reason to stop. -/
inductive StaleOutcomes : Host.Outcome State Fault Refusal → Host.Outcome State Fault Refusal → Prop where
  | next {t w : State} (h : SameButStale t w) : StaleOutcomes (.next t) (.next w)
  | fault (r : Fault) : StaleOutcomes (.fault r) (.fault r)
  | refused (r : Refusal) : StaleOutcomes (.refused r) (.refused r)

theorem StaleOutcomes.next_right {o p : Host.Outcome State Fault Refusal} (h : StaleOutcomes o p) {t : State}
    (ho : o = .next t) : ∃ w, p = .next w ∧ SameButStale t w := by
  subst ho
  cases h with
  | next h => exact ⟨_, rfl, h⟩

theorem StaleOutcomes.refused_right {o p : Host.Outcome State Fault Refusal} (h : StaleOutcomes o p) {r : Refusal}
    (ho : o = .refused r) : p = .refused r := by
  subst ho
  cases h with
  | refused => rfl

theorem StaleOutcomes.observe {o p : Host.Outcome State Fault Refusal} (h : StaleOutcomes o p) (v : Option Word) :
    StaleOutcomes (mapNext (observe v) o) (mapNext (observe v) p) := by
  cases h with
  | next h => exact .next (h.observe v)
  | fault r => exact .fault r
  | refused r => exact .refused r

theorem SameButStale.readOffset {s u : State} (h : SameButStale s u) (hs : Inv s) (off : Nat) :
    readOffset off u = readOffset off s := by
  unfold Machine.readOffset
  split
  · exact h.readReg hs _
  · rfl

section
variable {s u : State} (h : SameButStale s u) (hs : Inv s) (hu : Inv u)
include h hs hu

theorem exec_stale (i : Instr) : StaleOutcomes (exec i s) (exec i u) := by
  obtain ⟨t, ht⟩ := exec_next i s
  obtain ⟨w, hw, hsame⟩ := h.exec hs hu ht
  rw [ht, hw]
  exact .next hsame

theorem writeReg_stale (r : Reg) (v : Word) : StaleOutcomes (writeReg r v s) (writeReg r v u) := by
  unfold writeReg
  split
  · exact .next (h.writeCtrl v)
  · exact .next (h.writeStatus v)
  · unfold runCommand
    split
    · exact exec_stale h hs hu _
    · exact .next h.cmdError
  · exact .next (h.writeWdata v)
  · exact .next h

theorem writeOffset_stale (off : Nat) (v : Word) : StaleOutcomes (writeOffset off v s) (writeOffset off v u) := by
  unfold writeOffset
  split
  · exact writeReg_stale h hs hu _ v
  · exact .next h

/-- Whether an access is refused does not depend on the state; a read shows the same value. -/
theorem runAccess_stale (a : Access) : StaleOutcomes (runAccess a s) (runAccess a u) := by
  unfold runAccess
  split
  · exact .refused _
  · split
    · rw [h.readOffset hs]
      exact .next (h.observe _)
    · exact (writeOffset_stale h hs hu _ _).observe none

theorem runEvent_stale (e : Event) : StaleOutcomes (runEvent e s) (runEvent e u) := by
  cases e with
  | access a => exact runAccess_stale h hs hu a
  | datagram d =>
    rw [runEvent, runEvent, runDatagram_eq, runDatagram_eq]
    exact .next ((h.rxDatagram hs hu d).observe none)
  | hardReset => exact exec_stale h hs hu .softRst

theorem step_stale : StaleOutcomes (step s) (step u) := by
  obtain ⟨-, -, -, -, -, hpending, -⟩ := h.fields
  cases hp : s.pending with
  | nil => rw [step_nil hp, step_nil (hpending.trans hp)]; exact .next h
  | cons e rest =>
    rw [step_of_pending hp, step_of_pending (hpending.trans hp)]
    exact runEvent_stale (h.setPending rest) (hs.setPending rest) (hu.setPending rest) e

end

/-- Settles O57: registers and IRQ read no stale byte, and a step answers both states alike. -/
theorem noObservationDependsOnStaleBufferBytes : Obligations.NoObservationDependsOnStaleBufferBytes := by
  intro s u hs hu h
  have hstep := step_stale h hs hu
  exact ⟨h.readReg hs, h.irq, fun _ => hstep.next_right, fun _ => hstep.refused_right⟩

end Sys2Proof.Machine
end

section
/-! SUPPORT. The registers field by field (10_state.md section 2), and what a write of one does. -/

namespace Sys2Proof.Machine

/-! ### The fields of the registers -/

theorem rxErrWord_count (s : State) : (readReg .rxErr s).extractLsb' 16 16 = s.rx.errcnt := by
  rw [readReg, BitVec.extractLsb'_append_eq_of_le (by omega), BitVec.extractLsb'_append_eq_of_le (by omega),
    BitVec.extractLsb'_eq_self]

theorem rxErrWord_code (s : State) : (readReg .rxErr s).extractLsb' 0 4 = s.rx.code.bits := by
  rw [readReg, BitVec.extractLsb'_append_eq_of_add_le (by omega), BitVec.extractLsb'_eq_self]

theorem txInfoWord_op (s : State) : (readReg .txInfo s).extractLsb' 0 8 = s.tx.op := by
  rw [readReg, BitVec.extractLsb'_append_eq_of_add_le (by omega), BitVec.extractLsb'_eq_self]

theorem txInfoWord_code (s : State) : (readReg .txInfo s).extractLsb' 8 2 = s.tx.code.bits := by
  rw [readReg, BitVec.extractLsb'_append_eq_of_le (by omega), BitVec.extractLsb'_append_eq_of_add_le (by omega),
    BitVec.extractLsb'_eq_self]

theorem txInfoWord_plen (s : State) : (readReg .txInfo s).extractLsb' 16 11 = BitVec.ofNat 11 s.tx.plen := by
  rw [readReg, BitVec.extractLsb'_append_eq_of_le (by omega), BitVec.extractLsb'_append_eq_of_le (by omega),
    BitVec.extractLsb'_append_eq_of_le (by omega), BitVec.extractLsb'_append_eq_of_add_le (by omega),
    BitVec.extractLsb'_eq_self]

/-- RX_CNT is at most 1035 in every state of the deframer (10_state.md R34, R44). -/
theorem RxInv.cnt_le {dgram : Bool} {r : Rx} (h : RxInv dgram r) : r.cnt ≤ 1035 := by
  have hst := h.st
  unfold RxStInv at hst
  split at hst
  · omega
  · omega
  · omega
  · exact hst.2
  · have := hst.1.max; omega

theorem rxCnt_toNat {s : State} (h : Inv s) : (readReg .rxCnt s).toNat = s.rx.cnt := by
  have := h.rx.cnt_le
  rw [readReg, BitVec.toNat_ofNat]
  omega

theorem irq_iff (s : State) :
    irq s = true ↔
      (s.ctrl.ieRdy = true ∧ s.rx.st = .ready)
        ∨ (s.ctrl.ieErr = true ∧ (s.rx.err = true ∨ s.rx.ovr = true ∨ s.tx.err = true ∨ s.cmderr = true))
        ∨ (s.ctrl.ieTx = true ∧ s.tx.rdy = true) := by
  simp only [irq, rxRdy, Bool.or_eq_true, Bool.and_eq_true, beq_iff_eq, or_assoc]

/-! ### Reserved bits -/

/-- A word ANDed with a mask is 0 when each of its bits under the mask is. -/
theorem and_eq_zero_of_bits {w m : Word} (h : ∀ i, i < 32 → m.getLsbD i = true → w.getLsbD i = false) :
    w &&& m = 0#32 := by
  apply BitVec.eq_of_getLsbD_eq
  intro i hi
  rw [BitVec.getLsbD_and, BitVec.getLsbD_zero]
  cases hm : m.getLsbD i with
  | false => exact Bool.and_false _
  | true => rw [h i hi hm]; rfl

/-- A byte in a register leaves the upper 24 bits 0. -/
theorem byteWord_reserved (b : Byte) : b.setWidth 32 &&& 0xFFFFFF00#32 = 0#32 := by
  apply and_eq_zero_of_bits
  intro i hi hm
  have hrange : ∀ i < 32, (0xFFFFFF00#32).getLsbD i = true → 8 ≤ i := by decide
  rw [BitVec.getLsbD_setWidth, BitVec.getLsbD_of_ge _ _ (hrange i hi hm), Bool.and_false]

theorem idWord_reserved (s : State) : readReg .id s &&& 0x0000FF00#32 = 0#32 := by
  rw [readReg]; decide

theorem ctrlWord_reserved (c : Ctrl) : c.toWord &&& 0xFFFFFFC0#32 = 0#32 := by
  apply and_eq_zero_of_bits
  intro i hi hm
  have hrange : ∀ i < 32, (0xFFFFFFC0#32).getLsbD i = true → 6 ≤ i := by decide
  have := hrange i hi hm
  unfold Ctrl.toWord
  iterate 6 rw [BitVec.getLsbD_append, if_neg (by omega)]
  exact BitVec.getLsbD_zero

theorem statusWord_reserved (s : State) : statusWord s &&& 0xFFFF0E00#32 = 0#32 := by
  apply and_eq_zero_of_bits
  intro i hi hm
  have hrange : ∀ i < 32, (0xFFFF0E00#32).getLsbD i = true → (9 ≤ i ∧ i ≤ 11) ∨ 16 ≤ i := by decide
  rw [statusWord_bit]
  rcases hrange i hi hm with ⟨hlo, hhi⟩ | hhi
  · interval_cases i <;> rfl
  · interval_cases i <;> rfl

theorem rxErrWord_reserved (s : State) : readReg .rxErr s &&& 0x0000FFF0#32 = 0#32 := by
  apply and_eq_zero_of_bits
  intro i hi hm
  have hrange : ∀ i < 32, (0x0000FFF0#32).getLsbD i = true → 4 ≤ i ∧ i < 16 := by decide
  have := hrange i hi hm
  rw [readReg, BitVec.getLsbD_append, if_neg (by omega), BitVec.getLsbD_append, if_pos (by omega), BitVec.getLsbD_zero]

theorem txInfoWord_reserved (s : State) : readReg .txInfo s &&& 0xF800FC00#32 = 0#32 := by
  apply and_eq_zero_of_bits
  intro i hi hm
  have hrange : ∀ i < 32, (0xF800FC00#32).getLsbD i = true → (10 ≤ i ∧ i < 16) ∨ 27 ≤ i := by decide
  rw [readReg]
  rcases hrange i hi hm with hmiddle | hhigh
  · iterate 2 rw [BitVec.getLsbD_append, if_neg (by omega)]
    rw [BitVec.getLsbD_append, if_pos (by omega), BitVec.getLsbD_zero]
  · iterate 4 rw [BitVec.getLsbD_append, if_neg (by omega)]
    exact BitVec.getLsbD_zero

/-- The count of bytes takes 11 bits (10_state.md R34). -/
theorem rxCntWord_reserved {s : State} (h : Inv s) : readReg .rxCnt s &&& 0xFFFFF800#32 = 0#32 := by
  apply and_eq_zero_of_bits
  intro i hi hm
  have hrange : ∀ i < 32, (0xFFFFF800#32).getLsbD i = true → 11 ≤ i := by decide
  have hcnt := h.rx.cnt_le
  have hpow : 2 ^ 11 ≤ 2 ^ i := Nat.pow_le_pow_right (by decide) (hrange i hi hm)
  rw [readReg, BitVec.getLsbD_ofNat, Nat.testBit_lt_two_pow (by omega), Bool.and_false]

/-! ### What a write depends on -/

theorem Ctrl.ofWord_mask (v : Word) : Ctrl.ofWord (v &&& 0x0000003F#32) = Ctrl.ofWord v := by
  simp [Ctrl.ofWord]

/-- A write of CTRL depends on its six defined bits alone (10_state.md R23). -/
theorem writeCtrl_mask (v : Word) (s : State) : writeCtrl (v &&& 0x0000003F#32) s = writeCtrl v s := by
  have hdgram : (v &&& 0x0000003F#32).getLsbD 0 = v.getLsbD 0 := congrArg Ctrl.dgram (Ctrl.ofWord_mask v)
  rw [writeCtrl, writeCtrl, Ctrl.ofWord_mask, hdgram]

/-- A write of STATUS depends on the positions of its four W1C bits alone (10_state.md R25). -/
theorem writeStatus_mask (v : Word) (s : State) : writeStatus (v &&& 0x00000036#32) s = writeStatus v s := by
  simp [writeStatus]

/-- CTRL reads back what a write stores, whether or not the write resets the deframer. -/
theorem writeCtrl_ctrl (v : Word) (s : State) : (writeCtrl v s).ctrl = Ctrl.ofWord v := by
  unfold writeCtrl; simp only; split <;> rfl

theorem writeReg_readOnly {r : Reg} (hctrl : r ≠ .ctrl) (hstatus : r ≠ .status) (hcmd : r ≠ .cmd) (hwdata : r ≠ .wdata)
    (v : Word) (s : State) : writeReg r v s = .next s := by
  unfold writeReg
  split
  · exact absurd rfl hctrl
  · exact absurd rfl hstatus
  · exact absurd rfl hcmd
  · exact absurd rfl hwdata
  · rfl

/-! ### The held frame in the receive window -/

/-- Byte `i` that RXBUF shows is byte `i` of the held frame, 0 past it (10_state.md R42). -/
theorem rxByteAt_eq_getD (s : State) (i : Nat) : rxByteAt s i = (rxFrame s).getD i 0#8 := by
  unfold rxByteAt rxFrame
  by_cases hready : s.rx.st = .ready
  · rw [if_pos hready]
    by_cases hi : i < s.rx.cnt
    · rw [if_pos ⟨hready, hi⟩, Memory.getD_slice _ _ _ _ hi, Nat.zero_add]
    · rw [if_neg fun hh => hi hh.2, List.getD_eq_default _ _ (by simpa using hi)]
  · rw [if_neg fun hh => hready hh.1, if_neg hready]; rfl

theorem rxFrame_length {s : State} (h : s.rx.st = .ready) : (rxFrame s).length = s.rx.cnt := by
  rw [rxFrame, if_pos h, Memory.slice_length]

/-- What the deframer holds is well formed (42_deframer.md R167). -/
theorem Inv.heldFrameWf {s : State} (h : Inv s) (hready : s.rx.st = .ready) : FrameWf s.rx.buf s.rx.cnt := by
  have hst := h.rx.st
  rw [RxStInv, hready] at hst
  exact hst.1

/-! ### The obligations about single registers -/

/-- Settles O38: the three registers over the bytes of the held frame, whose bounds and length field are the
invariant's. -/
theorem rxbufShowsTheHeldFrame : Obligations.RxbufShowsTheHeldFrame := by
  intro s hs hready
  have hwf := hs.heldFrameWf hready
  have hmin := hwf.min
  have hbyte : ∀ i < s.rx.cnt, s.rx.buf.read i = (rxFrame s).getD i 0#8 := fun i hi => by
    rw [← rxByteAt_eq_getD, rxByteAt, if_pos ⟨hready, hi⟩]
  have hhdr : readReg .rxHdr s = le32 (s.rx.buf.read 0) (s.rx.buf.read 1) (s.rx.buf.read 2) (s.rx.buf.read 3) := by
    rw [readReg, rxHdrWord, if_pos hready]
  rw [rxFrame_length hready, hhdr, le32_high]
  refine ⟨rfl, hmin, hwf.max, ?_, ?_, hwf.len, fun k j hj => ?_⟩
  · rw [← hbyte 0 (by omega)]; exact le32_byte _ _ _ _ (j := 0) (by decide)
  · rw [← hbyte 1 (by omega)]; exact le32_byte _ _ _ _ (j := 1) (by decide)
  · rw [readReg, window_byte (rxByteAt s) k.val hj, rxByteAt_eq_getD]

/-- Settles O10: the access, or the datagram, is served by what its word or its bytes decode to. -/
theorem stepRunsTheDecodedInstruction : Obligations.StepRunsTheDecodedInstruction := by
  intro s i rest
  constructor
  · intro w hpending hdecode
    rw [step_of_pending hpending, runEvent, runAccess_busWrite, writeReg, runCommand, hdecode]
  · intro d hpending hdecode
    rw [step_of_pending hpending, runEvent, runDatagram, hdecode]

/-- Settles O14: the step of a write is the register's write; a read-only register's write leaves the state; each
reserved field reads 0, and the masked bits do not reach CTRL or STATUS. -/
theorem readOnlyRegistersAndReservedBitsIgnoreWrites : Obligations.ReadOnlyRegistersAndReservedBitsIgnoreWrites := by
  refine ⟨fun s r v rest hctrl hstatus hcmd hwdata => ?_, fun s => ?_, fun s v => ?_, fun s v => ?_, step_busWrite⟩
  · rw [step_busWrite, writeReg_readOnly hctrl hstatus hcmd hwdata]; rfl
  · exact ⟨ctrlWord_reserved s.ctrl, statusWord_reserved s, idWord_reserved s,
      byteWord_reserved s.cs.sum, byteWord_reserved s.rx.expect, rxErrWord_reserved s, txInfoWord_reserved s,
      rxCntWord_reserved⟩
  · simp only [writeReg, writeCtrl_mask, writeStatus_mask, and_self]
  · refine ⟨_, _, rfl, ?_, rfl, rfl⟩
    rw [readReg, writeCtrl_ctrl, Ctrl.toWord_ofWord]

/-- Settles O15: the two branches of the write, with and without a change of mode. -/
theorem ctrlWriteStoresBitsAndModeChangeResetsDeframer : Obligations.CtrlWriteStoresBitsAndModeChangeResetsDeframer := by
  intro s v
  refine ⟨_, rfl, ?_, writeCtrl_ctrl v s, fun hmode => ?_, fun hmode => ?_⟩
  · unfold writeCtrl; simp only; split <;> rfl
  · rw [writeCtrl, if_pos hmode]; rfl
  · rw [writeCtrl, if_neg hmode]; rfl

/-- Settles O16: each W1C bit is the old bit and not the bit written. -/
theorem statusWriteClearsExactlyTheNamedBits : Obligations.StatusWriteClearsExactlyTheNamedBits := by
  intro s v
  have hclear : ∀ b c : Bool, (b && !c) = if c then false else b := by decide
  refine ⟨_, rfl, ?_, ?_, hclear _ _, rfl⟩ <;> simp only [← hclear] <;> rfl

/-- Settles O18: the bits of STATUS one by one, and the sources of IRQ. -/
theorem statusShowsTheStateAndIrqIsTheEnabledSources : Obligations.StatusShowsTheStateAndIrqIsTheEnabledSources := by
  intro s
  have hbit := statusWord_bit s
  exact ⟨hbit 0, hbit 1, hbit 2, hbit 3, hbit 4, hbit 5, hbit 6, hbit 7, hbit 8, statusWord_rxst s, irq_iff s, hbit 15⟩

/-- Settles O19: each register's fields; the invariant bounds the two counts that are cut to a width. -/
theorem registersShowTheirVariables : Obligations.RegistersShowTheirVariables := by
  intro s
  refine ⟨rfl, rfl, rfl, rfl, rfl, rfl, rfl, rxCnt_toNat, rxErrWord_count s, rfl, rxErrWord_code s, txInfoWord_op s,
    txInfoWord_code s, fun hs => ?_, fun hrdy => ?_, fun hrdy => ?_⟩
  · have := hs.tx.plen
    rw [txInfoWord_plen, BitVec.toNat_ofNat]
    omega
  · rw [readReg, if_pos hrdy]
  · rw [readReg, if_neg (by simp [hrdy])]

end Sys2Proof.Machine
end

section
/-! SUPPORT. Host accesses by their offset (20_memory.md section 2): which ones are served, and what one that names no
register does. -/

namespace Sys2Proof.Machine

/-! ### Aligned words of the space -/

/-- An offset names a register exactly when the map's search finds one (20_memory.md R72). -/
theorem exists_offset_eq_iff {off : Nat} (haligned : off % 4 = 0) :
    (∃ r : Reg, r.offset = off) ↔ (regAt off).isSome = true := by
  rw [Option.isSome_iff_exists]
  constructor
  · rintro ⟨r, rfl⟩
    exact ⟨r, regAt_offset r⟩
  · rintro ⟨r, hr⟩
    exact ⟨r, regAt_some haligned hr⟩

theorem toNat_ofNat_of_lt_span {off : Nat} (hspan : off < 0x4000) : (BitVec.ofNat 32 off).toNat = off := by
  rw [BitVec.toNat_ofNat, Nat.mod_eq_of_lt (by omega)]

/-- An aligned word of the space is served, whatever the access does (20_memory.md R71). -/
theorem refusal_of_aligned_word {off : Nat} (hspan : off < 0x4000) (haligned : off % 4 = 0) (kind : AccessKind) :
    Access.refusal ⟨BitVec.ofNat 32 off, 4, kind⟩ = none := by
  rw [Access.refusal_none, toNat_ofNat_of_lt_span hspan]
  exact ⟨rfl, hspan, haligned⟩

theorem runAccess_read {off : Nat} (hspan : off < 0x4000) (haligned : off % 4 = 0) (s : State) :
    runAccess ⟨BitVec.ofNat 32 off, 4, .read⟩ s = .next (observe (some (readOffset off s)) s) := by
  rw [runAccess, refusal_of_aligned_word hspan haligned]
  simp only [toNat_ofNat_of_lt_span hspan]

theorem runAccess_write {off : Nat} (hspan : off < 0x4000) (haligned : off % 4 = 0) (v : Word) (s : State) :
    runAccess ⟨BitVec.ofNat 32 off, 4, .write v⟩ s = mapNext (observe none) (writeOffset off v s) := by
  rw [runAccess, refusal_of_aligned_word hspan haligned]
  simp only [toNat_ofNat_of_lt_span hspan]

/-! ### Offsets without a register -/

theorem readOffset_of_unmapped {off : Nat} (h : regAt off = none) (s : State) : readOffset off s = 0#32 := by
  rw [readOffset, h]

theorem writeOffset_of_unmapped {off : Nat} (h : regAt off = none) (v : Word) (s : State) :
    writeOffset off v s = .next s := by
  rw [writeOffset, h]

/-! ### With the event taken off -/

/-- No register shows the events still to come (log 3). -/
theorem readReg_setPending (r : Reg) (s : State) (rest : List Event) : readReg r (s.setPending rest) = readReg r s := by
  cases r <;> rfl

/-- What the observation of an access adds, once its event is taken off (70_reset_and_hazards.md R292). -/
theorem observe_setPending (shown : Option Word) (s : State) (rest : List Event) :
    observe shown (s.setPending rest) = (s.setPending rest).setObserved (⟨shown, irq s⟩ :: s.observed) := rfl

/-! ### The obligations about accesses -/

/-- Settles O12: an offset is mapped when the search finds a register, and the search succeeds on the three ranges; where
it fails, the read shows 0, the write leaves the state, and the observation alone is added. -/
theorem unmappedOffsetsReadZeroAndIgnoreWrites : Obligations.UnmappedOffsetsReadZeroAndIgnoreWrites := by
  intro s off v rest hspan haligned
  refine ⟨(exists_offset_eq_iff haligned).trans (regAt_isSome haligned), fun hnone => ?_⟩
  have hunmapped : regAt off = none := by
    rwa [exists_offset_eq_iff haligned, Option.not_isSome_iff_eq_none] at hnone
  constructor
  · rw [step_cons, runEvent, runAccess_read hspan haligned, readOffset_of_unmapped hunmapped, observe_setPending]
  · rw [step_cons, runEvent, runAccess_write hspan haligned, writeOffset_of_unmapped hunmapped, mapNext_next,
      observe_setPending]

/-- Settles O11: an access is served or refused as its `refusal` says, which is none for the aligned words of the space
alone. -/
theorem onlyAlignedWordAccessesGetAStep : Obligations.OnlyAlignedWordAccessesGetAStep := by
  intro s a rest
  have hdefined : a.refusal = none ↔ a.bytes = 4 ∧ a.off.toNat % 4 = 0 ∧ a.off.toNat < 0x4000 :=
    a.refusal_none.trans (and_congr_right' and_comm)
  rw [step_cons, runEvent, ← hdefined]
  rcases runAccess_cases a (s.setPending rest) with ⟨hserved, hnext⟩ | ⟨r, hrefusal, hrefused⟩
  · exact ⟨iff_of_true hnext hserved, fun h => absurd hserved h⟩
  · simp [hrefusal, hrefused]

/-- Settles O13: the observation of a read is all that the step adds; no register's address wraps, because BASE ends in
14 zero bits and every offset is below the span. -/
theorem readsReturnTheRegisterAndChangeNothing : Obligations.ReadsReturnTheRegisterAndChangeNothing := by
  refine ⟨fun s r rest => ?_, base_aligned, fun r v => ⟨base_add_offset r, base_add_offset r⟩, fun r => by cases r <;> rfl⟩
  rw [step_cons, runEvent, runAccess_busRead, readReg_setPending, observe_setPending]

end Sys2Proof.Machine
end

section
/-! SUPPORT. The two code spaces (30_encoding.md): which fields of a command word its decoding reads, the checksum and the
op code of a frame, and a datagram as the accesses that bring it in. -/

namespace Sys2Proof.Machine

/-! ### Command words -/

/-- A field of the low half is a field of the word (30_encoding.md R90). -/
theorem field_eq_of_low_half {w v : Word} (h : w.extractLsb' 0 16 = v.extractLsb' 0 16) {start : Nat}
    (hstart : start + 8 ≤ 16) : w.extractLsb' start 8 = v.extractLsb' start 8 := by
  rw [← BitVec.extractLsb'_extractLsb'_of_le hstart, h, BitVec.extractLsb'_extractLsb'_of_le hstart]

/-- A command is read from its OPC and its byte operand alone (30_encoding.md R90, R98). -/
theorem decodeCommand_congr {w v : Word} (hopc : opcOf w = opcOf v) (hoperand : operandB w = operandB v) :
    decodeCommand w = decodeCommand v := by
  unfold decodeCommand
  rw [hopc, hoperand]

/-- A word whose OPC takes no byte operand is read from its OPC alone (30_encoding.md R96, R98). -/
theorem decodeCommand_congr_of_no_operand {w v : Word} (hopc : opcOf w = opcOf v)
    (hno : opcOf w ∉ ([0x11#8, 0x13#8, 0x21#8, 0x24#8, 0x30#8, 0x31#8, 0x41#8] : List Byte)) :
    decodeCommand w = decodeCommand v := by
  unfold decodeCommand
  rw [← hopc]
  generalize opcOf w = opc at hno
  split
  case h_3 | h_5 | h_7 | h_10 | h_11 | h_12 | h_17 => exact absurd (by decide) hno
  all_goals rfl

/-- The OPCs of the table are those that select a command (30_encoding.md R96, R97). -/
theorem decodeCommand_illegal_iff (w : Word) : decodeCommand w = .error .illegalCommand ↔
    opcOf w ∉ ([0x00#8, 0x10#8, 0x11#8, 0x12#8, 0x13#8, 0x20#8, 0x21#8, 0x22#8, 0x23#8, 0x24#8, 0x30#8, 0x31#8,
      0x32#8, 0x33#8, 0x34#8, 0x40#8, 0x41#8, 0x42#8, 0x43#8, 0xF0#8] : List Byte) := by
  unfold decodeCommand
  generalize opcOf w = opc
  split
  case h_21 => exact iff_of_true rfl (by simp_all)
  all_goals exact iff_of_false nofun (not_not_intro (by decide))

/-- A command reads back from its word, whatever its operand (30_encoding.md R96). -/
theorem decodeCommand_of_encode {i : Instr} {w : Word} (henc : encode i = .command w) : decodeCommand w = .ok i := by
  cases i <;> simp only [encode, reduceCtorEq] at henc <;> cases henc <;>
    simp only [decodeCommand, opcOf_commandWord, operandB_commandWord]

/-! ### Frames -/

/-- A message reads back from its frame (30_encoding.md R92, R100). -/
theorem decodeFrame_of_encode {i : Instr} {d : List Byte} (hwf : i.wellFormed = true) (henc : encode i = .frame d) :
    decodeFrame d = .ok i := by
  obtain ⟨op, p, hmax, rfl, -, hpayload⟩ := encode_frame hwf henc
  rw [decodeFrame_mkFrame op p hmax, hpayload]

/-- An op code with a legal shape is a defined one (41_messages.md R147). -/
theorem opDefined_of_shapeOk {op : Byte} {plen : Nat} (h : shapeOk op plen = true) : opDefined op = true := by
  obtain ⟨row, hmem, hrow⟩ := List.any_eq_true.1 h
  simp only [Bool.and_eq_true] at hrow
  obtain ⟨⟨hop, -⟩, -⟩ := hrow
  exact List.any_eq_true.2 ⟨row, hmem, hop⟩

/-- The bytes a frame checksum covers are the header, its checksum and the payload (30_encoding.md R92). -/
theorem take_last_eq_header_hcs_payload {d : List Byte} (hmin : 6 ≤ d.length) :
    d.take (d.length - 1) = d.take 4 ++ d.getD 4 0#8 :: (d.take (d.length - 1)).drop 5 := by
  match d, hmin with
  | _ :: _ :: _ :: _ :: _ :: _ :: _, _ => simp

/-- The header's sum enters a frame checksum twice, once as its bytes and once as the header checksum
(40_checksum.md R113). -/
theorem sum8_eq_two_mul_hcs_add_payload {d : List Byte} (hmin : 6 ≤ d.length) (hhcs : d.getD 4 0#8 = sum8 (d.take 4)) :
    sum8 (d.take (d.length - 1)) = 2#8 * d.getD 4 0#8 + sum8 ((d.take (d.length - 1)).drop 5) := by
  calc sum8 (d.take (d.length - 1))
      = sum8 (d.take 4 ++ d.getD 4 0#8 :: (d.take (d.length - 1)).drop 5) := by
        rw [← take_last_eq_header_hcs_payload hmin]
    _ = d.getD 4 0#8 + (d.getD 4 0#8 + sum8 ((d.take (d.length - 1)).drop 5)) := by rw [sum8_append, sum8_cons, ← hhcs]
    _ = 2#8 * d.getD 4 0#8 + sum8 ((d.take (d.length - 1)).drop 5) := by rw [BitVec.two_mul, BitVec.add_assoc]

/-! ### The accesses of a datagram -/

theorem rxFeed_cons (b : Byte) (d : List Byte) (s : State) :
    rxFeed (b :: d) s = rxFeed d (observe none (rxFeedByte b s)) := rfl

theorem observe_setPending_comm (shown : Option Word) (s : State) (l : List Event) :
    observe shown (s.setPending l) = (observe shown s).setPending l := rfl

/-- A received byte is treated the same whatever accesses follow it. -/
theorem rxFeedByte_setPending (b : Byte) (s : State) (l : List Event) :
    rxFeedByte b (s.setPending l) = (rxFeedByte b s).setPending l :=
  have hsame : RxSame s (s.setPending l) := ⟨rfl, rfl⟩
  rx_commutes (g := (·.setPending l)) (rxFeedByte_sameButRx b) (hsame.rxFeedByte b).2 fun _ => rfl

theorem rxFeed_setPending (d : List Byte) (s : State) (l : List Event) :
    rxFeed d (s.setPending l) = (rxFeed d s).setPending l := by
  induction d generalizing s with
  | nil => rfl
  | cons b d ih => rw [rxFeed_cons, rxFeedByte_setPending, observe_setPending_comm, ih, rxFeed_cons]

/-- The access of RX_BYTE (42_deframer.md R174). -/
theorem runEvent_rxByte (b : Byte) (s : State) :
    runEvent (commandEvent (.rxByte b)) s = .next (observe none (rxFeedByte b s)) :=
  runEvent_command rfl s

/-- The access of RX_EOD (42_deframer.md R175). -/
theorem runEvent_rxEod (s : State) : runEvent (commandEvent .rxEod) s = .next (observe none (rxEndDatagram s)) :=
  runEvent_command rfl s

/-- The steps of RX_FEED bring the bytes in and leave the events after them (30_encoding.md R104). -/
theorem run_rxFeed (d : List Byte) (n : Nat) (rest : List Event) (s : State) :
    Host.Core.run Sys2Proof.core (d.length + n) (s.setPending ((d.map fun b => commandEvent (.rxByte b)) ++ rest)) =
      Host.Core.run Sys2Proof.core n ((rxFeed d s).setPending rest) := by
  induction d generalizing s with
  | nil => rw [List.length_nil, Nat.zero_add]; rfl
  | cons b d ih =>
    rw [List.length_cons, Nat.add_right_comm, List.map_cons, List.cons_append, run_cons (runEvent_rxByte b _),
      rxFeedByte_setPending, observe_setPending_comm, ih, rxFeed_cons]

/-! ### The obligations about the encoding -/

/-- Settles O4: an image is a command word or a frame, and each of the two decoders reads its own encodings back. -/
theorem decodeReadsBackEveryEncoding : Obligations.DecodeReadsBackEveryEncoding := by
  intro i hwf
  cases henc : encode i with
  | command w => exact decodeCommand_of_encode henc
  | frame d => exact decodeFrame_of_encode hwf henc

/-- Settles O5: a sequence that decodes is the frame of its op code and payload, and the payload that decodes is the one
its message encodes to. -/
theorem decodedFramesReencodeExactly : Obligations.DecodedFramesReencodeExactly := by
  intro d i hdecode
  obtain ⟨op, p, hmax, rfl, hpayload⟩ := decodeFrame_ok hdecode
  obtain ⟨hwf, henc, -⟩ := decodePayload_ok hmax hpayload
  exact ⟨hwf, henc⟩

/-- Settles O9: a message's frame is `mkFrame` of an op code and a payload of a legal shape, whose fields are known. -/
theorem encodedFramesHaveTheWireLayout : Obligations.EncodedFramesHaveTheWireLayout := by
  refine ⟨fun i d hwf henc => ?_, fun d => sum8_eq_two_mul_hcs_add_payload, by decide, by decide⟩
  obtain ⟨op, p, hmax, rfl, hshape, -⟩ := encode_frame hwf henc
  rw [mkFrame_length]
  refine ⟨by omega, by omega, mkFrame_sync op p, opDefined_of_shapeOk hshape, mkFrame_lengthField op p hmax, hshape, ?_, ?_⟩
  · rw [mkFrame_hcs, mkFrame_header]
  · rw [Nat.add_sub_assoc (by decide), mkFrame_last, mkFrame_take_body]

/-- Settles O51: RX_BYTE of every byte by induction on the bytes, then RX_EOD; the pending events play no part in what the
deframer does. -/
theorem datagramStepIsItsAccessesOneByOne : Obligations.DatagramStepIsItsAccessesOneByOne := by
  intro s d rest
  have hstep : step (s.setPending (.datagram d :: rest)) =
      .next (observe none (rxEndDatagram ((rxFeed d s).setPending rest))) := by
    rw [step_cons, runEvent, runDatagram_eq, mapNext_next, rxDatagram, rxFeed_setPending]
  rw [hstep, Line.expand, List.append_assoc, run_rxFeed]
  exact run_cons (runEvent_rxEod _)

/-- Settles O6: decoding reads the OPC and the byte operand, both in the low half, and the operand of seven OPCs only. -/
theorem reservedCommandBitsAreIgnored : Obligations.ReservedCommandBitsAreIgnored := by
  refine ⟨fun w v hlow => ?_, fun w v => decodeCommand_congr_of_no_operand, rfl⟩
  exact decodeCommand_congr (field_eq_of_low_half hlow (by decide)) (field_eq_of_low_half hlow (by decide))

/-- Settles O7: the step of a write of CMD runs the word, and a word that selects no command sets CMDERR, which STATUS
shows at bit 5. -/
theorem illegalCommandsOnlySetCmderr : Obligations.IllegalCommandsOnlySetCmderr := by
  refine ⟨decodeCommand_illegal_iff, fun s w rest hillegal => ?_, rfl⟩
  have hstep : step (s.setPending (.access (busWrite .cmd w) :: rest)) =
      .next (observe none (cmdError (s.setPending rest))) := by
    rw [step_busWrite, writeReg, runCommand, hillegal]
    exact mapNext_next _ _
  exact ⟨_, hstep, rfl, rfl, statusWord_bit _ 5⟩

/-- Settles O8: the decoders evaluated on the five words and the two frames. -/
theorem writtenOutImagesDecode : Obligations.WrittenOutImagesDecode :=
  ⟨rfl, rfl, rfl, rfl, rfl, rfl, rfl⟩

end Sys2Proof.Machine
end

section
/-! SUPPORT. The checksum unit (40_checksum.md section 2): the sum as a number and in any order of its bytes, a sequence
of CS_ADD as one feed, and which instructions reach the unit. -/

namespace Sys2Proof.Machine

/-! ### The sum -/

/-- The sum does not depend on the order of the bytes (40_checksum.md R118). -/
theorem sum8_perm {l m : List Byte} (h : l.Perm m) : sum8 l = sum8 m := by
  induction h with
  | nil => rfl
  | cons b _ ih => rw [sum8_cons, sum8_cons, ih]
  | swap a b l => rw [sum8_cons, sum8_cons, sum8_cons, sum8_cons, add_left_comm]
  | trans _ _ ih₁ ih₂ => exact ih₁.trans ih₂

theorem sum8_bytesLe32_toNat (v : Word) :
    (sum8 (bytesLe32 v)).toNat =
      (v.toNat % 256 + v.toNat / 256 % 256 + v.toNat / 65536 % 256 + v.toNat / 16777216) % 256 := by
  have hlt := v.isLt
  simp only [bytesLe32, sum8_cons, sum8_nil, BitVec.toNat_add, BitVec.extractLsb'_toNat, Nat.shiftRight_eq_div_pow,
    BitVec.toNat_ofNat]
  omega

/-! ### Feeding the unit -/

theorem csFeed_nil (s : State) : csFeed [] s = s := by
  rw [csFeed, sum8_nil, BitVec.add_zero, State.setCs_self]

theorem csFeed_cons (b : Byte) (l : List Byte) (s : State) : csFeed (b :: l) s = csFeed l (csFeed [b] s) := by
  simp only [csFeed, sum8_cons, sum8_nil, State.setCs_cs, State.setCs_setCs, BitVec.add_zero, BitVec.add_assoc]

theorem csFeed_perm {l m : List Byte} (h : l.Perm m) (s : State) : csFeed l s = csFeed m s := by
  rw [csFeed, csFeed, sum8_perm h]

/-- CS_FEED (30_encoding.md R104). -/
theorem execAll_csAdd (l : List Byte) (s : State) : execAll (l.map .csAdd) s = .next (csFeed l s) := by
  induction l generalizing s with
  | nil => rw [csFeed_nil]; rfl
  | cons b l ih => rw [csFeed_cons]; exact ih _

/-- CS_CLR, then CS_FEED, leaves the checksum of the bytes (40_checksum.md R110, R116). -/
theorem execAll_csClr_csAdd (l : List Byte) (s : State) :
    execAll (.csClr :: l.map .csAdd) s = .next (s.setCs { s.cs with sum := sum8 l }) := by
  show execAll (l.map .csAdd) (s.setCs { s.cs with sum := 0#8 }) = _
  rw [execAll_csAdd, csFeed, State.setCs_cs, State.setCs_setCs, BitVec.zero_add]

/-! ### Who reaches the unit -/

theorem execTxEnd_sameButTx {s t : State} (h : execTxEnd s = .next t) : SameButTx s t := by
  unfold execTxEnd at h
  split at h <;> cases h <;> rfl

/-- No instruction but CS_CMP and SOFT_RST writes the result of the comparison (40_checksum.md R119). -/
theorem exec_cs_ok {i : Instr} {s t : State} (h : exec i s = .next t) (hreset : i ≠ .softRst)
    (hcmp : ∀ b, i ≠ .csCmp b) : t.cs.ok = s.cs.ok := by
  have hrx : ∀ {n : Nat}, OnlyReceived n s t → t.cs.ok = s.cs.ok := fun ht => congrArg Cs.ok ht.cs
  have htx : SameButTx s t → t.cs.ok = s.cs.ok := fun ht => by rw [ht]; rfl
  cases henc : encode i with
  | frame d =>
    rw [exec_message henc] at h
    cases h
    exact hrx (rxDatagram_onlyReceived d s)
  | command w =>
    cases i <;> simp only [encode, reduceCtorEq] at henc
    case softRst => exact absurd rfl hreset
    case csCmp b => exact absurd rfl (hcmp b)
    case rxByte b => cases h; exact hrx (rxFeedByte_sameButRx b s).onlyReceived
    case rxEod => cases h; exact hrx (rxEndDatagram_sameButRx s).onlyReceived
    case rxAck => cases h; exact hrx (rxRelease_sameButRx s).onlyReceived
    case txPut | txPutw | txPutcrc => cases h; exact htx (txAppend_sameButTx _ s)
    case txEnd => exact htx (execTxEnd_sameButTx h)
    all_goals cases h; rfl

/-! ### The obligations about the checksum commands -/

/-- Settles O22: the sum of WDATA's bytes as a number; CS_ADD of bytes in turn is one feed of them, whose sum is the same
in any order. -/
theorem checksumCommandsAddModulo256 : Obligations.ChecksumCommandsAddModulo256 := by
  refine ⟨fun s b => ⟨_, rfl, rfl, ?_⟩, fun s => ⟨_, rfl, rfl, ?_⟩, fun s l hperm => ?_, fun s l => ?_⟩
  · rw [csFeed, State.setCs_cs, sum8_cons, sum8_nil, BitVec.add_zero, BitVec.toNat_add]
  · rw [csFeed, State.setCs_cs, BitVec.toNat_add, operandWdataBytes, sum8_bytesLe32_toNat]
    omega
  · rw [execAll_csAdd, csFeed_perm hperm]; rfl
  · exact ⟨_, execAll_csClr_csAdd l s, rfl⟩

/-- Settles O23: the comparison writes `cs.ok` alone, and of the other instructions only SOFT_RST reaches it. -/
theorem csCmpComparesAndKeepsItsResult : Obligations.CsCmpComparesAndKeepsItsResult := by
  refine ⟨fun s b => ⟨_, rfl, rfl⟩, fun i s t => exec_cs_ok, fun s l b => ?_⟩
  refine ⟨_, (execAll_append (execAll_csClr_csAdd l s)).trans rfl, ?_⟩
  rw [State.setCs_cs, csMatches, State.setCs_cs, beq_iff_eq, eq_comm]

/-- Settles O21: the sum is written and nothing else, so a zero sum stays. -/
theorem csClrClearsOnlyTheSum : Obligations.CsClrClearsOnlyTheSum := by
  refine fun s => ⟨_, rfl, rfl, rfl, fun hzero => ?_⟩
  rw [← hzero, State.setCs_self]

end Sys2Proof.Machine
end

section
/-! SUPPORT. What the commands of one unit do is the same whatever the other units hold (40_checksum.md R115, 43_framer.md
R209): each command commutes with a change of what its unit does not read. -/

namespace Sys2Proof.Machine

section
variable {g : State → State} {s : State}

/-! ### The framer -/

section
variable (htx : (g s).tx = s.tx) (hset : ∀ t, (g s).setTx t = g (s.setTx t))
include htx hset

/-- The framer reads itself and the bytes it is given (43_framer.md R209). -/
theorem txAppend_commutes (l : List Byte) : txAppend l (g s) = g (txAppend l s) := by
  unfold txAppend txError
  rw [htx]
  split_ifs <;> exact hset _

theorem execTxEnd_commutes : execTxEnd (g s) = mapNext g (execTxEnd s) := by
  unfold execTxEnd txError
  rw [htx]
  split_ifs <;> rw [hset, mapNext_next]

/-- Of WDATA the framer reads the bytes of TX_PUTW (43_framer.md R204). -/
theorem exec_framer_commutes (hwdata : (g s).wdata = s.wdata) {b : Byte} {i : Instr}
    (hi : i ∈ [Instr.txBegin b, .txPut b, .txPutw, .txEnd]) : exec i (g s) = mapNext g (exec i s) := by
  fin_cases hi
  · rw [exec, execTxBegin, htx, hset]; rfl
  · exact congrArg Host.Outcome.next (txAppend_commutes htx hset [b])
  · rw [exec, execTxPutw, operandWdataBytes, hwdata, txAppend_commutes htx hset]; rfl
  · exact execTxEnd_commutes htx hset

/-- TX_PUTCRC alone reads the CRC unit (43_framer.md R205). -/
theorem exec_txPutcrc_commutes (hcrc : (g s).crc = s.crc) : exec .txPutcrc (g s) = mapNext g (exec .txPutcrc s) := by
  rw [exec, execTxPutcrc, operandCrcBytes, crcResult, hcrc, txAppend_commutes htx hset]; rfl

end

/-! ### The deframer -/

/-- The deframer reads itself and the control bits (43_framer.md R209). -/
theorem exec_deframer_commutes (hsame : RxSame s (g s)) (hset : ∀ r, (g s).setRx r = g (s.setRx r)) {b : Byte} {i : Instr}
    (hi : i ∈ [Instr.rxRst, .rxByte b, .rxEod, .rxAck, .rxExpect b]) : exec i (g s) = mapNext g (exec i s) := by
  have hrx : (g s).rx = s.rx := hsame.2
  have hcommutes : ∀ {f : State → State}, (∀ t, SameButRx t (f t)) → RxSame (f s) (f (g s)) →
      Host.Outcome.next (ρ := Refusal) (φ := Fault) (f (g s)) = .next (g (f s)) :=
    fun hf hr => congrArg _ (rx_commutes hf hr.2 hset)
  fin_cases hi
  · exact hcommutes rxReset_sameButRx hsame.rxReset
  · exact hcommutes (rxFeedByte_sameButRx b) (hsame.rxFeedByte b)
  · exact hcommutes rxEndDatagram_sameButRx hsame.rxEndDatagram
  · exact hcommutes rxRelease_sameButRx hsame.rxRelease
  · rw [exec, execRxExpect, hrx, hset]; rfl

end

/-! ### The obligation -/

/-- Settles O58: the commands of the checksum and the CRC unit write one unit from itself and WDATA; the deframer reads
itself and the control bits; the framer itself, WDATA and, for TX_PUTCRC, the CRC unit. -/
theorem unitsAreIndependent : Obligations.UnitsAreIndependent := by
  intro s b cs crc rx tx
  refine ⟨fun i hi => ?_, fun i hi => ?_, fun i hi => ?_, fun i hi => ?_, fun i hi => ?_⟩
  · fin_cases hi <;> rfl
  · fin_cases hi <;> rfl
  · exact exec_deframer_commutes (g := fun t => ((t.setTx tx).setCs cs).setCrc crc) ⟨rfl, rfl⟩ (fun _ => rfl) hi
  · by_cases hputcrc : i = .txPutcrc
    · subst hputcrc
      exact exec_txPutcrc_commutes (g := fun t => (t.setRx rx).setCs cs) rfl (fun _ => rfl) rfl
    · have hother : i ∈ [Instr.txBegin b, .txPut b, .txPutw, .txEnd] := by simpa [hputcrc] using hi
      exact exec_framer_commutes (g := fun t => (t.setRx rx).setCs cs) rfl (fun _ => rfl) rfl hother
  · exact exec_framer_commutes (g := fun t => t.setCrc crc) rfl (fun _ => rfl) rfl hi

end Sys2Proof.Machine
end

section
/-! SUPPORT. One changed byte of a frame (40_checksum.md R114): it breaks the first of the two checksums that covers it,
and the deframer drops the frame there. -/

namespace Sys2Proof.Machine

/-! ### A changed byte of a list -/

theorem getD_set_self {d : List Byte} {k : Nat} (hk : k < d.length) (v : Byte) : (d.set k v).getD k 0#8 = v := by
  rw [List.getD, List.getElem?_set_self hk, Option.getD_some]

theorem getD_set_ne {k i : Nat} (hne : k ≠ i) (d : List Byte) (v : Byte) : (d.set k v).getD i 0#8 = d.getD i 0#8 := by
  rw [List.getD, List.getElem?_set_ne hne, List.getD]

theorem getD_take {i n : Nat} (hi : i < n) (d : List Byte) : (d.take n).getD i 0#8 = d.getD i 0#8 := by
  rw [List.getD, List.getElem?_take_of_lt hi, List.getD]

/-- A checksum changes with any one of its bytes (40_checksum.md R114). -/
theorem sum8_set_eq_iff {d : List Byte} {k : Nat} (hk : k < d.length) (v : Byte) :
    sum8 (d.set k v) = sum8 d ↔ v = d.getD k 0#8 := by
  induction d generalizing k with
  | nil => exact absurd hk (Nat.not_lt_zero k)
  | cons b d ih =>
    cases k with
    | zero => rw [List.set_cons_zero, sum8_cons, sum8_cons, BitVec.add_left_inj, List.getD_cons_zero]
    | succ k =>
      rw [List.set_cons_succ, sum8_cons, sum8_cons, BitVec.add_right_inj, List.getD_cons_succ]
      exact ih (Nat.lt_of_succ_lt_succ hk)

/-- A flip of a bit changes the byte (40_checksum.md R114). -/
theorem flip_ne (b : Byte) {j : Nat} (hj : j < 8) : b ^^^ (1#8 <<< j) ≠ b := by
  have hbit : ∀ j < 8, 1#8 <<< j ≠ 0#8 := by decide
  intro h
  apply hbit j hj
  rw [← BitVec.xor_self (x := b), ← congrArg (b ^^^ ·) h]
  simp only [← BitVec.xor_assoc, BitVec.xor_self, BitVec.zero_xor]

/-! ### The checksum of the first `n` bytes, at byte `n` -/

section
variable {d : List Byte} {k n : Nat} {v : Byte} (hsum : d.getD n 0#8 = sum8 (d.take n))
include hsum

/-- A change after a checksum leaves it right. -/
theorem checksum_set_of_lt (hn : n < k) : (d.set k v).getD n 0#8 = sum8 ((d.set k v).take n) := by
  rw [getD_set_ne (by omega), List.take_set_of_le (by omega), hsum]

/-- A change of a byte that a checksum covers, or of the checksum itself, makes it wrong. -/
theorem checksum_set_of_le (hn : n < d.length) (hk : k ≤ n) (hv : v ≠ d.getD k 0#8) :
    (d.set k v).getD n 0#8 ≠ sum8 ((d.set k v).take n) := by
  rcases Nat.lt_or_eq_of_le hk with hlt | rfl
  · have hkt : k < (d.take n).length := by rw [List.length_take]; omega
    rw [getD_set_ne (by omega), hsum, List.take_set, ne_comm, Ne, sum8_set_eq_iff hkt, getD_take hlt]
    exact hv
  · rw [getD_set_self hn, List.take_set_of_le (le_refl _), ← hsum]
    exact hv

end

/-! ### The verdict on a frame with a changed byte -/

theorem tailVerdict_of_bad_checksum {d : List Byte} (hsum : d.getD (d.length - 1) 0#8 ≠ sum8 (d.take (d.length - 1)))
    (anyop : Bool) (expect : Byte) : tailVerdict anyop expect d = .fcs := by
  rw [tailVerdict, if_pos hsum]

section
variable {d : List Byte} {k : Nat} {v : Byte} (hmin : 6 ≤ d.length) (hk : k < d.length) (hv : v ≠ d.getD k 0#8)
  (hfcs : d.getD (d.length - 1) 0#8 = sum8 (d.take (d.length - 1)))
include hmin hk hv hfcs

/-- The frame checksum covers every byte of the frame (40_checksum.md R112). -/
theorem tailVerdict_set (anyop : Bool) (expect : Byte) : tailVerdict anyop expect (d.set k v) = .fcs := by
  apply tailVerdict_of_bad_checksum
  rw [List.length_set]
  exact checksum_set_of_le hfcs (by omega) (by omega) hv

/-- The check that a changed byte fails, in the order of 42_deframer.md R163. -/
theorem frameVerdict_set (hmax : d.length ≤ 1034) (hsync : d.getD 0 0#8 = 0xE7#8) (hhcs : d.getD 4 0#8 = sum8 (d.take 4))
    (hlen : (le16 (d.getD 2 0#8) (d.getD 3 0#8)).toNat = d.length - 5) (syncchk anyop : Bool) (expect : Byte) :
    frameVerdict syncchk anyop expect (d.set k v) =
      if k = 0 ∧ syncchk = true then .sync else if k ≤ 4 then .hcs else .fcs := by
  have htail := tailVerdict_set hmin hk hv hfcs anyop expect
  rw [frameVerdict, List.length_set, if_neg (by omega), if_neg (by omega)]
  rcases Nat.lt_or_ge 4 k with hafter | hheader
  · have hnosync : ¬(syncchk = true ∧ d.getD 0 0#8 ≠ 0xE7#8) := fun h => h.2 hsync
    rw [getD_set_ne (by omega), getD_set_ne (by omega) d v (i := 2), getD_set_ne (by omega) d v (i := 3),
      if_neg hnosync, if_neg (not_not_intro (checksum_set_of_lt hhcs hafter)), if_neg (not_not_intro hlen), htail,
      if_neg (by omega), if_neg (by omega)]
  · have hbad := checksum_set_of_le hhcs (by omega) hheader hv
    rw [if_pos hbad, if_pos hheader]
    rcases Nat.eq_zero_or_pos k with rfl | hpos
    · have hsync' : (d.set 0 v).getD 0 0#8 ≠ 0xE7#8 := by rw [getD_set_self hk, ← hsync]; exact hv
      simp only [hsync', ne_eq, not_false_eq_true, and_true, true_and]
    · rw [getD_set_ne (by omega), if_neg fun h => h.2 hsync, if_neg (by omega)]

end

/-! ### What the deframer does with it -/

/-- RX_DGRAM at an empty deframer in datagram mode, with the verdict a reject (42_deframer.md R163). -/
theorem execAll_rxDgram_rejected {d : List Byte} {s : State} {code : RejectCode} (hst : s.rx.st = .accum)
    (hcnt : s.rx.cnt = 0) (hwf : s.rx.buf.wf = true) (hcode : code ≠ .none)
    (hverdict : frameVerdict s.ctrl.syncchk s.ctrl.anyop s.rx.expect d = code) :
    ∃ t, execAll (d.map .rxByte ++ [.rxEod]) s = .next t ∧ Rejected code d.length s t := by
  refine ⟨_, execAll_rxDgram d s, ?_⟩
  obtain ⟨l, -, -, heq⟩ := rxDatagram_eq d s
  have hrejected := rxDatagram_accum d s hst hcnt hwf
  rw [hverdict, if_neg hcode, heq] at hrejected
  exact hrejected.setObserved (rxEndDatagram (rxFeedPlain d s)).observed

/-- A byte other than the sync byte is discarded in HUNT (42_deframer.md R164). -/
theorem exec_rxByte_hunt_discards {b : Byte} {s : State} (hst : s.rx.st = .hunt) (hb : b ≠ 0xE7#8) :
    exec (.rxByte b) s = .next (s.setRx { s.rx with disc := satInc s.rx.disc }) := by
  rw [exec, execRxByte, rxFeedByte, hst]
  exact congrArg _ (if_neg hb)

/-- The header check on the stored bytes (40_checksum.md R111). -/
theorem headerOk_iff_slice (s : State) {n : Nat} (hn : 5 ≤ n) :
    headerOk s = true ↔ (s.rx.buf.slice 0 n).getD 4 0#8 = sum8 ((s.rx.buf.slice 0 n).take 4) := by
  rw [headerOk_iff, Memory.getD_slice _ _ _ _ (by omega), Memory.slice_take _ _ (by omega)]

/-- Five header bytes whose checksum is wrong end the candidate in stream mode (42_deframer.md R168). -/
theorem rxFeedPlain_bad_header {d : List Byte} {s : State} (hst : s.rx.st = .hunt) (hwf : s.rx.buf.wf = true)
    (hlen : d.length = 5) (hsync : d.getD 0 0#8 = 0xE7#8) (hhcs : d.getD 4 0#8 ≠ sum8 (d.take 4)) :
    Rejected .hcs 5 s (rxFeedPlain d s) := by
  match d, hlen, hsync, hhcs with
  | [b0, b1, b2, b3, b4], _, hsync, hhcs =>
    obtain rfl : b0 = 0xE7#8 := hsync
    have hslice : (s.rx.buf.writeList 0 [0xE7#8, b1, b2, b3, b4]).slice 0 5 = [0xE7#8, b1, b2, b3, b4] :=
      Memory.slice_writeList 0 _ hwf (by simp [Config.maxFrame])
    rw [rxFeedPlain_header b1 b2 b3 b4 s hst, rxHeaderVerdict, if_pos]
    · exact conclude_whole .hcs [0xE7#8, b1, b2, b3, b4] s hwf (by simp) .hdr
    · rw [← Bool.not_eq_true, headerOk_iff_slice _ (le_refl 5), State.setRx_rx, hslice]
      exact hhcs

/-! ### The obligation -/

/-- Settles O55: the flip breaks the header checksum or, past it, the frame checksum; byte 0 is the sync byte too. -/
theorem noSingleBitFlipIsAccepted : Obligations.NoSingleBitFlipIsAccepted := by
  intro s d k j f hs hempty hmin hmax hsync hhcs hlen hfcs hk hj hf
  have hv := flip_ne (d.getD k 0#8) hj
  generalize d.getD k 0#8 ^^^ (1#8 <<< j) = v at hf hv
  subst hf
  have hwf := hs.rx.record.wf
  obtain ⟨-, hcnt⟩ := hempty
  refine ⟨fun hst => ?_, fun hst h0 => ?_, fun hst hlo hhi => ?_, fun hst hafter => ?_⟩
  · have hverdict := frameVerdict_set hmin hk hv hfcs hmax hsync hhcs hlen s.ctrl.syncchk s.ctrl.anyop s.rx.expect
    rw [← List.length_set (as := d) (i := k) (a := v)]
    exact execAll_rxDgram_rejected hst hcnt hwf (by split_ifs <;> decide) hverdict
  · subst h0
    have hb : (d.set 0 v).getD 0 0#8 ≠ 0xE7#8 := by rw [getD_set_self hk, ← hsync]; exact hv
    exact ⟨_, exec_rxByte_hunt_discards hst hb, rfl, satInc_toNat s.rx.disc⟩
  · refine ⟨_, execAll_rxByte _ s, rxFeedPlain_bad_header hst hwf ?_ ?_ ?_⟩
    · rw [List.length_take, List.length_set]; omega
    · rw [getD_take (by decide), getD_set_ne (by omega), hsync]
    · rw [getD_take (by decide), List.take_take]
      exact checksum_set_of_le hhcs (by omega) hhi hv
  · have hlast := rxFeedPlain_hunt (d.set k v) s hst hwf (by rwa [List.length_set]) (by rwa [List.length_set])
      (by rwa [getD_set_ne (by omega)]) (checksum_set_of_lt hhcs hafter)
      (by rwa [getD_set_ne (by omega), getD_set_ne (by omega), List.length_set])
    rw [tailVerdict_set hmin hk hv hfcs, List.length_set] at hlast
    exact ⟨_, execAll_rxByte _ s, hlast⟩

end Sys2Proof.Machine
end

section
/-! SUPPORT. The wire messages one by one (41_messages.md R132 to R145): each is the arrival of its frame
(`exec_message_holds`), and the views show the words of its payload. -/

namespace Sys2Proof.Machine

/-! ### Frames written out -/

/-- The frame without payload: the header's bytes sum to 0xE8 and the op code, and enter the frame checksum twice
(40_checksum.md R113). -/
theorem mkFrame_nil (op : Byte) :
    mkFrame op [] = [0xE7#8, op, 0x01#8, 0x00#8, 0xE8#8 + op, 2#8 * (0xE8#8 + op)] := by
  have hhcs : sum8 (headerBytes op 0) = 0xE8#8 + op := by
    simp only [headerBytes, lengthBytes, Config.sync, sum8_cons, sum8_nil]
    bv_omega
  have hfcs : sum8 (frameBody op []) = 2#8 * (0xE8#8 + op) := by
    rw [frameBody, List.length_nil, sum8_append, sum8_cons, sum8_nil, hhcs]
    bv_omega
  rw [mkFrame, hfcs, frameBody, List.length_nil, hhcs]
  rfl

/-- The frame of an ErrorResponse, whose header sums to 0xE8 (41_messages.md R144). -/
theorem mkFrame_errorResponse (code : Byte) :
    mkFrame 0xFF#8 [code] = [0xE7#8, 0xFF#8, 0x02#8, 0x00#8, 0xE8#8, code, 0xD0#8 + code] := by
  have hbody : frameBody 0xFF#8 [code] = [0xE7#8, 0xFF#8, 0x02#8, 0x00#8, 0xE8#8] ++ [code] := by
    rw [frameBody, List.length_singleton]; rfl
  rw [mkFrame, hbody, sum8_append, sum8_cons code, sum8_nil, BitVec.add_zero]
  rfl

/-! ### The words of the views -/

/-- A byte in the lowest place of a word whose other bytes are 0 (00_scope.md R9). -/
theorem le32_zeros_above (b : Byte) : le32 b 0#8 0#8 0#8 = b.setWidth 32 := by
  apply BitVec.eq_of_toNat_eq
  have hlt := b.isLt
  simp only [le32, BitVec.toNat_append, BitVec.toNat_setWidth, BitVec.toNat_ofNat, Nat.zero_mod, Nat.zero_shiftLeft,
    Nat.zero_or]
  omega

section
variable {op : Byte} {p q : List Byte} {s t : State}

/-- RX_W1 of a message with at most four payload bytes (10_state.md R38). -/
theorem holdsFrame_w1_of_short (h : HoldsFrame (mkFrame op p) s t) (hshort : p.length ≤ 4) : readReg .rxW1 t = 0#32 := by
  have hpast : ∀ k, 4 ≤ k → p.getD k 0#8 = 0#8 := fun k hk => List.getD_eq_default _ _ (by omega)
  rw [holdsFrame_w1 h, hpast 4 (by omega), hpast 5 (by omega), hpast 6 (by omega), hpast 7 (by omega)]
  rfl

/-- RX_WT of a message with fewer than four payload bytes (10_state.md R39). -/
theorem holdsFrame_wt_of_short (h : HoldsFrame (mkFrame op p) s t) (hshort : p.length < 4) : readReg .rxWt t = 0#32 := by
  rw [holdsFrame_wt h, if_neg (by omega)]

/-- RX_WT shows the last four bytes of a payload's last part, where that part has so many (10_state.md R39). -/
theorem holdsFrame_wt_of_append (h : HoldsFrame (mkFrame op (p ++ q)) s t) (hlong : 4 ≤ q.length) :
    readReg .rxWt t =
      le32 (q.getD (q.length - 4) 0#8) (q.getD (q.length - 3) 0#8) (q.getD (q.length - 2) 0#8)
        (q.getD (q.length - 1) 0#8) := by
  have hbyte : ∀ k, k ≤ 4 → (p ++ q).getD (p.length + q.length - k) 0#8 = q.getD (q.length - k) 0#8 := fun k hk => by
    rw [List.getD_append_right _ _ _ _ (by omega)]
    congr 1
    omega
  rw [holdsFrame_wt h, List.length_append, if_pos (by omega), hbyte 4 (by omega), hbyte 3 (by omega), hbyte 2 (by omega),
    hbyte 1 (by omega)]

/-- RX_WT of a message whose payload ends in a 32-bit field (10_state.md R39, 41_messages.md R130). -/
theorem holdsFrame_wt_of_append_word {v : Word} (h : HoldsFrame (mkFrame op (p ++ bytesLe32 v)) s t) :
    readReg .rxWt t = v :=
  (holdsFrame_wt_of_append h (by simp)).trans (le32_bytes v)

end

/-! ### The obligations about the messages -/

/-- Settles O43: the five rows encode to the frame without payload, whose views are 0. -/
theorem messagesWithoutPayloadAreReceived : Obligations.MessagesWithoutPayloadAreReceived := by
  intro s i op hs hempty hop hrow
  obtain ⟨henc, hshape⟩ : encode i = .frame (mkFrame op []) ∧ shapeOk op 0 = true := by
    simp only [List.mem_cons, List.not_mem_nil, or_false, Prod.mk.injEq] at hrow
    rcases hrow with ⟨rfl, rfl⟩ | ⟨rfl, rfl⟩ | ⟨rfl, rfl⟩ | ⟨rfl, rfl⟩ | ⟨rfl, rfl⟩ <;> exact ⟨rfl, rfl⟩
  obtain ⟨t, hexec, hframe, honly⟩ := exec_message_holds henc hs hempty hop (by simp) hshape
  exact ⟨t, hexec, mkFrame_nil op ▸ hframe, honly, holdsFrame_w0 hframe, holdsFrame_w1_of_short hframe (by simp),
    holdsFrame_wt_of_short hframe (by simp)⟩

/-- Settles O44: the three rows encode to the frame of the field's bytes, which are the first and the last word. -/
theorem messagesOfOneWordAreReceived : Obligations.MessagesOfOneWordAreReceived := by
  intro s v i op hs hempty hop hrow
  obtain ⟨henc, hshape⟩ : encode i = .frame (mkFrame op (bytesLe32 v)) ∧ shapeOk op 4 = true := by
    simp only [List.mem_cons, List.not_mem_nil, or_false, Prod.mk.injEq] at hrow
    rcases hrow with ⟨rfl, rfl⟩ | ⟨rfl, rfl⟩ | ⟨rfl, rfl⟩ <;> exact ⟨rfl, rfl⟩
  obtain ⟨t, hexec, hframe, honly⟩ := exec_message_holds henc hs hempty hop (by simp) hshape
  exact ⟨t, hexec, hframe, honly, (holdsFrame_w0 hframe).trans (le32_bytes v),
    holdsFrame_w1_of_short hframe (by simp), holdsFrame_wt_of_append_word (p := []) hframe⟩

/-- Settles O45: the payload is five bytes and then the note, whose end RX_WT shows. -/
theorem versionResponseIsReceived : Obligations.VersionResponseIsReceived := by
  intro s a b c d e note hs hempty hop hnote
  have hlen : ([a, b, c, d, e] ++ note).length = 133 := by simp [hnote]
  have henc : encode (.versionResponse a b c d e note) = .frame (mkFrame 0x02#8 ([a, b, c, d, e] ++ note)) := rfl
  obtain ⟨t, hexec, hframe, honly⟩ := exec_message_holds henc hs hempty hop (by omega) (by rw [hlen]; rfl)
  have hw0 := holdsFrame_w0 hframe
  have hw1 := holdsFrame_w1 hframe
  have hwt := holdsFrame_wt_of_append hframe (by omega)
  simp only [hnote, Nat.reduceSub] at hwt
  rw [hlen] at honly
  exact ⟨t, hexec, hframe, honly, hw0, hw1, hwt⟩

/-- Settles O46: the payload is the data and then data_crc, so RX_WT shows data_crc whatever the data's length. -/
theorem writeRequestIsReceived : Obligations.WriteRequestIsReceived := by
  intro s data crc hs hempty hop hdata
  have hlen : (data ++ bytesLe32 crc).length = data.length + 4 := by simp
  have hshape : shapeOk 0x07#8 (data ++ bytesLe32 crc).length = true := by simp [shapeOk, wireTable]; omega
  obtain ⟨t, hexec, hframe, honly⟩ :=
    exec_message_holds (i := .writeRequest data crc) rfl hs hempty hop (by omega) hshape
  rw [hlen] at honly
  exact ⟨t, hexec, hframe, honly, holdsFrame_w0 hframe, holdsFrame_w1 hframe, holdsFrame_wt_of_append_word hframe⟩

/-- Settles O47: the payload is two words, shown in turn, and the second is the last. -/
theorem readAddressRequestIsReceived : Obligations.ReadAddressRequestIsReceived := by
  intro s a n hs hempty hop
  obtain ⟨t, hexec, hframe, honly⟩ := exec_message_holds (i := .readAddressRequest a n) rfl hs hempty hop (by simp) rfl
  exact ⟨t, hexec, hframe, honly, (holdsFrame_w0 hframe).trans (le32_bytes a), (holdsFrame_w1 hframe).trans (le32_bytes n),
    holdsFrame_wt_of_append_word hframe⟩

/-- Settles O48: the payload is the data, and RX_WT shows its last four bytes when it has so many. -/
theorem readAddressResponseIsReceived : Obligations.ReadAddressResponseIsReceived := by
  intro s data hs hempty hop hdata
  have hshape : shapeOk 0x0C#8 data.length = true := by simp [shapeOk, wireTable, hdata]
  obtain ⟨t, hexec, hframe, honly⟩ := exec_message_holds (i := .readAddressResponse data) rfl hs hempty hop hdata hshape
  exact ⟨t, hexec, hframe, honly, holdsFrame_w0 hframe, holdsFrame_w1 hframe, holdsFrame_wt_of_short hframe,
    holdsFrame_wt_of_append (p := []) hframe⟩

/-- Settles O49: op code 0xFF passes the op check whatever is expected (42_deframer.md R171). -/
theorem errorResponseIsReceivedWhateverIsExpected : Obligations.ErrorResponseIsReceivedWhateverIsExpected := by
  intro s code hs hempty
  have hop : opOk 0xFF#8 s = true := Bool.or_true _
  obtain ⟨t, hexec, hframe, honly⟩ := exec_message_holds (i := .errorResponse code) rfl hs hempty hop (by simp) rfl
  exact ⟨t, hexec, mkFrame_errorResponse code ▸ hframe, honly, (holdsFrame_w0 hframe).trans (le32_zeros_above code),
    holdsFrame_w1_of_short hframe (by simp), holdsFrame_wt_of_short hframe (by simp)⟩

end Sys2Proof.Machine
end

section
/-! SUPPORT. The deframer's commands that receive no byte (42_deframer.md R173, R176, R177, R178): what the registers
show after each. -/

namespace Sys2Proof.Machine

/-- The empty receiving state holds no frame, in either mode (10_state.md R44). -/
theorem rxIdle_ne_ready (s : State) : rxIdle s ≠ .ready := by
  unfold rxIdle; split <;> decide

/-- STATUS bits 2..0 are RXOVR, RXERR and RXRDY (10_state.md R24). -/
theorem statusWord_low {s : State} (hst : s.rx.st ≠ .ready) (herr : s.rx.err = false) (hovr : s.rx.ovr = false) :
    (statusWord s).extractLsb' 0 3 = 0#3 := by
  have hrdy : rxRdy s = false := beq_eq_false_iff_ne.2 hst
  ext i hi
  rw [BitVec.getElem_extractLsb', statusWord_bit, Nat.zero_add, BitVec.getElem_zero]
  interval_cases i
  · exact hrdy
  · exact herr
  · exact hovr

theorem rxRelease_of_ready {s : State} (h : s.rx.st = .ready) :
    rxRelease s = s.setRx { s.rx with st := rxIdle s, cnt := 0 } := if_pos h

theorem rxRelease_of_not_ready {s : State} (h : s.rx.st ≠ .ready) : rxRelease s = s := if_neg h

/-- After RX_ACK no frame is held (42_deframer.md R176). -/
theorem rxRelease_not_ready (s : State) : (rxRelease s).rx.st ≠ .ready := by
  by_cases h : s.rx.st = .ready
  · rw [rxRelease_of_ready h]; exact rxIdle_ne_ready s
  · rwa [rxRelease_of_not_ready h]

/-- The op-code check (42_deframer.md R171). -/
theorem opOk_iff (op : Byte) (s : State) :
    opOk op s = true ↔ s.ctrl.anyop = true ∨ op = s.rx.expect ∨ op = 0xFF#8 := by
  simp [opOk, or_assoc]

/-- A frame with an undefined op code that the op-code check passes has no legal shape (42_deframer.md R170, R177). -/
theorem verdictTail_of_undefined_op {n : Nat} {s : State}
    (hfcs : s.rx.buf.read (n - 1) = sum8 (s.rx.buf.slice 0 (n - 1))) (hop : opOk (s.rx.buf.read 1) s = true)
    (hundef : opDefined (s.rx.buf.read 1) = false) : verdictTail n s = .shape := by
  have hshape : shapeOk (s.rx.buf.read 1) (n - 6) = false := by
    by_contra h
    rw [opDefined_of_shapeOk (Bool.not_eq_false _ ▸ h)] at hundef
    cases hundef
  rw [verdictTail, if_neg (not_not_intro hfcs), if_neg (by simp [hop]), if_pos hshape]

/-! ### The obligations about these commands -/

/-- Settles O37: each view and each word of the window is made of bytes that are 0 with no frame held. -/
theorem viewsReadZeroUnlessAFrameIsHeld : Obligations.ViewsReadZeroUnlessAFrameIsHeld := by
  intro s hst
  obtain ⟨hpayload, hbyte, hhdr, htail⟩ := rxViews_of_not_ready hst
  simp only [readReg, hpayload, hbyte]
  exact ⟨hhdr, rfl, rfl, htail, fun _ => rfl⟩

/-- Settles O30: with the frame released, or none held before, the views read 0. -/
theorem rxAckReleasesAHeldFrame : Obligations.RxAckReleasesAHeldFrame := by
  intro s
  have hst := rxRelease_not_ready s
  refine ⟨_, rfl, rxRelease_of_ready, rxRelease_of_not_ready, ?_, viewsReadZeroUnlessAFrameIsHeld _ hst⟩
  exact (statusWord_bit _ 0).trans (beq_eq_false_iff_ne.2 hst)

/-- Settles O28: the reset writes the deframer alone, whose empty state shows as 0 in STATUS and RX_ERR. -/
theorem rxRstEmptiesTheDeframer : Obligations.RxRstEmptiesTheDeframer := by
  refine fun s => ⟨_, rfl, rxReset_sameButRx s, rfl, statusWord_low (rxIdle_ne_ready s) rfl rfl, ?_⟩
  show (0#16 ++ 0#12 ++ 0#4 : Word) = 0#32
  decide

/-- Settles O29: one variable is written, which its register shows and the op-code check reads. -/
theorem rxExpectSetsTheExpectedOpcode : Obligations.RxExpectSetsTheExpectedOpcode := by
  intro s b
  refine ⟨_, rfl, rfl, rfl, fun r hr => ?_, fun op => opOk_iff op _, fun n _ hop hundef hfcs => ?_⟩
  · cases r
    case rxExpect => exact absurd rfl hr
    all_goals rfl
  · exact verdictTail_of_undefined_op hfcs ((opOk_iff _ _).2 (.inr (.inl hop))) (hop ▸ hundef)

end Sys2Proof.Machine
end

section
/-! SUPPORT. A frame or a datagram as a whole (42_deframer.md R163, R169, R170): the frame the framer builds, a message
whose op code is not taken, and the checks that decide. -/

namespace Sys2Proof.Machine

/-! ### A datagram with its event taken off -/

theorem HoldsFrame.setPending {d : List Byte} {s t : State} (l : List Event) (h : HoldsFrame d s t) :
    HoldsFrame d s (t.setPending l) :=
  ⟨h.st, h.frame, h.expect, h.err, h.ovr, h.code, h.errcnt, h.disc, h.buf⟩

theorem Rejected.setPending {c : RejectCode} {n : Nat} {s t : State} (l : List Event) (h : Rejected c n s t) :
    Rejected c n s (t.setPending l) :=
  ⟨h.code_eq, h.err, h.errcnt, h.cnt, h.st, h.expect, h.ovr, h.disc, h.buf⟩

theorem rxEndDatagram_setPending (s : State) (l : List Event) :
    rxEndDatagram (s.setPending l) = (rxEndDatagram s).setPending l :=
  have hsame : RxSame s (s.setPending l) := ⟨rfl, rfl⟩
  rx_commutes (g := (·.setPending l)) rxEndDatagram_sameButRx hsame.rxEndDatagram.2 fun _ => rfl

/-- The step of a datagram is its arrival, observed (log 4). -/
theorem step_datagram (s : State) (d : List Byte) (rest : List Event) :
    step (s.setPending (.datagram d :: rest)) = .next (observe none ((rxDatagram d s).setPending rest)) := by
  rw [step_cons, runEvent, runDatagram_eq, mapNext_next, rxDatagram, rxFeed_setPending, rxEndDatagram_setPending,
    rxDatagram]

/-! ### The checks that pass -/

theorem tailVerdict_none_iff {anyop : Bool} {e : Byte} {d : List Byte} :
    tailVerdict anyop e d = .none ↔
      d.getD (d.length - 1) 0#8 = sum8 (d.take (d.length - 1))
        ∧ (anyop = true ∨ d.getD 1 0#8 = e ∨ d.getD 1 0#8 = 0xFF#8) ∧ shapeOk (d.getD 1 0#8) (d.length - 6) = true := by
  refine ⟨tailVerdict_none, fun ⟨hfcs, hop, hshape⟩ => ?_⟩
  rw [tailVerdict, if_neg (not_not_intro hfcs), if_neg (not_not_intro hop), if_neg (by rw [hshape]; decide)]

/-- Without ANYOP the op code must be the expected one or ErrorResponse too (42_deframer.md R171). -/
theorem tailVerdict_without_anyop (e : Byte) (d : List Byte) :
    tailVerdict false e d = .none ↔
      tailVerdict true e d = .none ∧ (d.getD 1 0#8 = e ∨ d.getD 1 0#8 = 0xFF#8) := by
  rw [tailVerdict_none_iff, tailVerdict_none_iff]
  simp only [Bool.false_eq_true, false_or, true_or, true_and]
  tauto

theorem frameVerdict_without_anyop (syncchk : Bool) (e : Byte) (d : List Byte) :
    frameVerdict syncchk false e d = .none ↔
      frameVerdict syncchk true e d = .none ∧ (d.getD 1 0#8 = e ∨ d.getD 1 0#8 = 0xFF#8) := by
  unfold frameVerdict
  split_ifs
  case neg => exact tailVerdict_without_anyop e d
  all_goals simp

/-- A sequence that passes with SYNCCHK is the frame of an op code and a payload of a legal shape. -/
theorem exists_mkFrame_of_frameVerdict {anyop : Bool} {e : Byte} {d : List Byte}
    (h : frameVerdict true anyop e d = .none) :
    ∃ op p, p.length ≤ 1028 ∧ d = mkFrame op p ∧ shapeOk op p.length = true := by
  obtain ⟨hmin, hmax, hhcs, hlen, htail, hsync⟩ := frameVerdict_none h
  obtain ⟨hfcs, -, hshape⟩ := tailVerdict_none htail
  have hpayload : ((d.take (d.length - 1)).drop 5).length = d.length - 6 := by
    rw [List.length_drop, List.length_take]; omega
  exact ⟨_, _, by omega, eq_mkFrame hmin hmax (hsync rfl) hhcs hlen hfcs, by rwa [hpayload]⟩

theorem decodeFrame_isOk_iff (d : List Byte) :
    (∃ i, decodeFrame d = .ok i) ↔ frameVerdict true true 0x00#8 d = .none := by
  constructor
  · rintro ⟨i, hdecode⟩
    obtain ⟨op, p, hmax, rfl, hpayload⟩ := decodeFrame_ok hdecode
    obtain ⟨-, -, hshape⟩ := decodePayload_ok hmax hpayload
    simp [frameVerdict_mkFrame _ _ _ op p hmax, hshape]
  · intro h
    obtain ⟨op, p, hmax, rfl, hshape⟩ := exists_mkFrame_of_frameVerdict h
    rw [decodeFrame_mkFrame op p hmax]
    exact decodePayload_isOk hshape

/-! ### A frame from the framer to the deframer -/

theorem length_le_of_shapeOk {op : Byte} {plen : Nat} (h : shapeOk op plen = true) : plen ≤ 1028 := by
  have hrows : ∀ row ∈ wireTable, row.plenMax ≤ 1028 := by decide
  obtain ⟨row, hmem, hrow⟩ := List.any_eq_true.1 h
  simp only [Bool.and_eq_true, decide_eq_true_eq] at hrow
  obtain ⟨-, hmax⟩ := hrow
  exact hmax.trans (hrows row hmem)

/-- Byte `i` that TXBUF shows is byte `i` of the built frame, 0 past it (10_state.md R43). -/
theorem txByteAt_eq_getD (s : State) (i : Nat) : txByteAt s i = (txFrame s).getD i 0#8 := by
  unfold txByteAt txFrame
  by_cases hrdy : s.tx.rdy = true
  · rw [if_pos hrdy]
    by_cases hi : i < s.tx.plen + 6
    · rw [if_pos ⟨hrdy, hi⟩, Memory.getD_slice _ _ _ _ hi, Nat.zero_add]
    · rw [if_neg fun hh => hi hh.2, List.getD_eq_default _ _ (by simpa using hi)]
  · rw [if_neg fun hh => hrdy hh.1, if_neg hrdy]; rfl

theorem txFrame_congr {s t : State} (h : t.tx = s.tx) : txFrame t = txFrame s := by rw [txFrame, txFrame, h]

/-- The two windows show the same where the held frame is the built one (10_state.md R42, R43). -/
theorem rxbuf_eq_txbuf {s : State} (h : rxFrame s = txFrame s) (k : Fin 259) :
    readReg (.rxbuf k) s = readReg (.txbuf k) s := by
  simp only [readReg, rxByteAt_eq_getD, txByteAt_eq_getD, h]

/-- RX_DGRAM one access at a time leaves the deframer of the arrival in one step, and nothing observed (log 4). -/
theorem execAll_rxDgram_eq (d : List Byte) (s : State) :
    execAll (d.map .rxByte ++ [.rxEod]) s = .next ((rxDatagram d s).setObserved s.observed) := by
  obtain ⟨l, -, -, heq⟩ := rxDatagram_eq d s
  have hsame := (rxFeedPlain_sameButRx d s).trans (rxEndDatagram_sameButRx _)
  obtain ⟨-, -, -, -, -, -, -, hobserved⟩ := hsame.rest
  rw [execAll_rxDgram, heq, State.setObserved_setObserved, ← hobserved, State.setObserved_self]

/-- RX_DGRAM of a frame of a legal shape whose op code is taken (42_deframer.md R181). -/
theorem holdsFrame_of_shapeOk {op : Byte} {p : List Byte} {s : State} (hinv : RxInv s.ctrl.dgram s.rx)
    (hempty : RxEmpty s) (hop : opOk op s = true) (hshape : shapeOk op p.length = true) :
    HoldsFrame (mkFrame op p) s (rxDatagram (mkFrame op p) s) := by
  have h := rxDatagram_mkFrame op p s hinv hempty (length_le_of_shapeOk hshape)
  rwa [if_neg (by rw [hop]; decide), if_neg (by rw [hshape]; decide)] at h

/-! ### The obligations about whole frames -/

/-- Settles O54: the framer leaves the frame of the payload in TXBUF; the deframer, whose state it did not touch and whose
expected op code is that of the frame, holds it. -/
theorem builtFramesAreReceivedUnchanged : Obligations.BuiltFramesAreReceivedUnchanged := by
  intro s op p hs hempty hshape
  obtain ⟨m, -, hm, hbuild⟩ := execAll_build op p (s.setRx { s.rx with expect := op }) hs.tx.wf
    (length_le_of_shapeOk hshape)
  set t := (s.setRx { s.rx with expect := op }).setTx
    { s.tx with op := op, plen := p.length, buf := m, isOpen := false, rdy := true }
  have hframe : txFrame t = mkFrame op p := hm
  have hheld := holdsFrame_of_shapeOk (s := t) (hs.rx.setExpect op) hempty ((opOk_iff op t).2 (.inr (.inl rfl))) hshape
  have hbuilt : txFrame (rxDatagram (mkFrame op p) t) = mkFrame op p :=
    (txFrame_congr (rxDatagram_onlyReceived _ t).tx).trans hframe
  have hsame := hheld.frame.trans hbuilt.symm
  refine ⟨t, _, hbuild, execAll_rxDgram_eq _ t, ?_⟩
  rw [hframe]
  exact ⟨hheld.st, hsame, hbuilt, rxbuf_eq_txbuf (s := rxDatagram (mkFrame op p) t) hsame, hheld.errcnt, hheld.disc⟩

/-- Settles O50: the frame of a well-formed message passes every check up to the one of its op code. -/
theorem messagesWithUnexpectedOpcodeAreRejected : Obligations.MessagesWithUnexpectedOpcodeAreRejected := by
  intro s i d hs hempty hwf henc hop
  obtain ⟨op, p, hmax, rfl, -, -⟩ := encode_frame hwf henc
  refine ⟨_, exec_message henc s, ?_, rxDatagram_onlyReceived _ s⟩
  have hrejected := rxDatagram_mkFrame op p s hs.rx hempty hmax
  rw [mkFrame_op] at hop
  rwa [if_pos hop, ← mkFrame_length op p] at hrejected

/-- Settles O53: the deframer's verdict is the one on the datagram's bytes, and a sequence passes with SYNCCHK and ANYOP
when it is the frame of a payload that decodes. -/
theorem datagramVerdictAgreesWithTheSourceDecode : Obligations.DatagramVerdictAgreesWithTheSourceDecode := by
  refine ⟨fun s d rest hs hst hcnt => ⟨_, step_datagram s d rest, ?_⟩, decodeFrame_isOk_iff,
    frameVerdict_without_anyop⟩
  obtain ⟨hheld, hrejected⟩ := ite_prop_iff_and.1 (rxDatagram_accum d s hst hcnt hs.rx.record.wf)
  exact ⟨fun h => ((hheld h).setPending rest).setObserved _, fun h => ((hrejected h).setPending rest).setObserved _⟩

end Sys2Proof.Machine
end

section
/-! SUPPORT. One received byte, by the deframer's state (42_deframer.md R161 to R174), and the end of a datagram. -/

namespace Sys2Proof.Machine

/-! ### Storing a byte -/

theorem rxStore_read_same {b : Byte} {s : State} (hwf : s.rx.buf.wf = true) (hcnt : s.rx.cnt < 1034) :
    (rxStore b s).rx.buf.read s.rx.cnt = b := Memory.read_write_same b hwf hcnt

theorem rxStore_read_ne {b : Byte} {s : State} (hwf : s.rx.buf.wf = true) {a : Nat} (ha : a ≠ s.rx.cnt) :
    (rxStore b s).rx.buf.read a = s.rx.buf.read a := Memory.read_write_ne b hwf ha

/-- The bytes before the stored one are as before. -/
theorem rxStore_slice_le (b : Byte) {s : State} (hwf : s.rx.buf.wf = true) {n : Nat} (hn : n ≤ s.rx.cnt) :
    (rxStore b s).rx.buf.slice 0 n = s.rx.buf.slice 0 n :=
  Memory.slice_congr fun i hi => rxStore_read_ne hwf (by omega)

/-- The candidate grows by the stored byte. -/
theorem rxStore_slice (b : Byte) {s : State} (hwf : s.rx.buf.wf = true) (hcnt : s.rx.cnt < 1034) :
    (rxStore b s).rx.buf.slice 0 (s.rx.cnt + 1) = s.rx.buf.slice 0 s.rx.cnt ++ [b] := by
  rw [Memory.slice_succ, rxStore_slice_le b hwf (le_refl _), Nat.zero_add, rxStore_read_same hwf hcnt]

/-- The length field is stored before byte 4. -/
theorem rxLength_rxStore (b : Byte) {s : State} (hwf : s.rx.buf.wf = true) (hcnt : 4 ≤ s.rx.cnt) :
    rxLength (rxStore b s) = (le16 (s.rx.buf.read 2) (s.rx.buf.read 3)).toNat := by
  rw [rxLength, rxStore_read_ne hwf (by omega), rxStore_read_ne hwf (by omega)]

/-- The fifth byte is the header checksum (40_checksum.md R111). -/
theorem headerOk_rxStore_iff {b : Byte} {s : State} (hwf : s.rx.buf.wf = true) (hcnt : s.rx.cnt = 4) :
    headerOk (rxStore b s) = true ↔ b = sum8 (s.rx.buf.slice 0 4) := by
  rw [headerOk_iff, rxStore_slice_le b hwf (by omega), ← hcnt, rxStore_read_same hwf (by omega)]

/-! ### A verdict and the buffer -/

theorem conclude_buf (e : RejectCode) (s : State) : (conclude e s).rx.buf = s.rx.buf := by
  unfold conclude; split <;> rfl

theorem conclude_cnt_le (e : RejectCode) (s : State) : (conclude e s).rx.cnt ≤ s.rx.cnt := by
  unfold conclude; split
  · exact le_refl _
  · exact Nat.zero_le _

theorem rxHeaderVerdict_buf (s : State) : (rxHeaderVerdict s).rx.buf = s.rx.buf := by
  unfold rxHeaderVerdict; split_ifs <;> rfl

theorem accept_holdsFrame (s : State) : HoldsFrame (s.rx.buf.slice 0 s.rx.cnt) s (accept s) :=
  ⟨rfl, if_pos rfl, rfl, rfl, rfl, rfl, rfl, rfl, fun _ _ => rfl⟩

/-! ### The deframer's states one by one -/

section
variable {s : State} (b : Byte)

theorem rxFeedByte_hunt_sync (hst : s.rx.st = .hunt) :
    rxFeedByte 0xE7#8 s = s.setRx { s.rx with buf := s.rx.buf.write 0 0xE7#8, cnt := 1, st := .hdr } := by
  rw [rxFeedByte, hst]; rfl

theorem rxFeedByte_hunt_discards (hst : s.rx.st = .hunt) (hb : b ≠ 0xE7#8) :
    rxFeedByte b s = s.setRx { s.rx with disc := satInc s.rx.disc } :=
  Host.Outcome.next.inj (exec_rxByte_hunt_discards hst hb)

theorem rxFeedByte_accum (hst : s.rx.st = .accum) : rxFeedByte b s = rxByteAccum b s := by rw [rxFeedByte, hst]

theorem rxFeedByte_ready (hst : s.rx.st = .ready) : rxFeedByte b s = rxOverrun s := by rw [rxFeedByte, hst]

theorem rxFeedByte_hdr_before (hst : s.rx.st = .hdr) (hcnt : s.rx.cnt ≠ 4) : rxFeedByte b s = rxStore b s := by
  rw [rxFeedByte, hst]
  exact if_neg fun h => hcnt (Nat.succ_injective h)

theorem rxFeedByte_hdr_fifth (hst : s.rx.st = .hdr) (hcnt : s.rx.cnt = 4) :
    rxFeedByte b s = rxHeaderVerdict (rxStore b s) := by
  rw [rxFeedByte, hst]
  exact if_pos (congrArg (· + 1) hcnt)

section
variable (hwf : s.rx.buf.wf = true) (hst : s.rx.st = .body) (hcnt : 5 ≤ s.rx.cnt)
include hwf hst hcnt

theorem rxFeedByte_body_before (hlen : s.rx.cnt + 1 ≠ 5 + (le16 (s.rx.buf.read 2) (s.rx.buf.read 3)).toNat) :
    rxFeedByte b s = rxStore b s := by
  rw [← rxLength_rxStore b hwf (by omega)] at hlen
  rw [rxFeedByte, hst]
  exact if_neg hlen

/-- The last byte of the frame brings the tail checks on all its bytes (42_deframer.md R169, R170). -/
theorem rxFeedByte_body_last (hmax : s.rx.cnt < 1034)
    (hlen : s.rx.cnt + 1 = 5 + (le16 (s.rx.buf.read 2) (s.rx.buf.read 3)).toNat) :
    rxFeedByte b s =
      conclude (tailVerdict s.ctrl.anyop s.rx.expect (s.rx.buf.slice 0 s.rx.cnt ++ [b])) (rxStore b s) := by
  have hverdict : verdictTail (s.rx.cnt + 1) (rxStore b s) =
      tailVerdict s.ctrl.anyop s.rx.expect (s.rx.buf.slice 0 s.rx.cnt ++ [b]) := by
    rw [verdictTail_eq _ (by omega), rxStore_slice b hwf hmax]; rfl
  rw [← rxLength_rxStore b hwf (by omega)] at hlen
  rw [rxFeedByte, hst, ← hverdict]
  exact if_pos hlen

end
end

/-- In HDR and BODY a byte is stored at the count, whatever follows (42_deframer.md R168, R169). -/
theorem rxFeedByte_candidate_buf (b : Byte) {s : State} (hst : s.rx.st = .hdr ∨ s.rx.st = .body) :
    (rxFeedByte b s).rx.buf = (rxStore b s).rx.buf := by
  rcases hst with hst | hst <;> rw [rxFeedByte, hst]
  · simp only [rxByteHdr]
    split
    · exact rxHeaderVerdict_buf _
    · rfl
  · simp only [rxByteBody]
    split
    · exact conclude_buf _ _
    · rfl

theorem exec_rxEod_of_not_accum {s : State} (hst : s.rx.st ≠ .accum) : exec .rxEod s = .next s :=
  congrArg Host.Outcome.next (rxEndDatagram_stream hst)

/-! ### The counts the invariant allows -/

theorem Inv.dgram_of_hunt {s : State} (h : Inv s) (hst : s.rx.st = .hunt) : s.ctrl.dgram = false := by
  have hinv := h.rx.st
  rw [RxStInv, hst] at hinv
  exact hinv.1

theorem Inv.not_accum_of_stream {s : State} (h : Inv s) (hmode : s.ctrl.dgram = false) : s.rx.st ≠ .accum := by
  intro hst
  have hinv := h.rx.st
  rw [RxStInv, hst, hmode] at hinv
  cases hinv.1

theorem Inv.hdr_cnt_le {s : State} (h : Inv s) (hst : s.rx.st = .hdr) : s.rx.cnt ≤ 4 := by
  have hinv := h.rx.st
  rw [RxStInv, hst] at hinv
  obtain ⟨-, -, hmax, -⟩ := hinv
  exact hmax

theorem Inv.body_cnt {s : State} (h : Inv s) (hst : s.rx.st = .body) : 5 ≤ s.rx.cnt ∧ s.rx.cnt < 1034 := by
  have hinv := h.rx.st
  rw [RxStInv, hst] at hinv
  obtain ⟨-, hmin, hlt, hlen, -⟩ := hinv
  omega

/-! ### Sequences of dropped bytes -/

/-- In HUNT each byte other than the sync byte is counted, saturating (42_deframer.md R164). -/
theorem rxFeedPlain_hunt_discards {d : List Byte} {s : State} (hst : s.rx.st = .hunt) (hd : ∀ b ∈ d, b ≠ 0xE7#8) :
    (rxFeedPlain d s).rx = { s.rx with disc := (rxFeedPlain d s).rx.disc }
      ∧ (rxFeedPlain d s).rx.disc.toNat = min (s.rx.disc.toNat + d.length) 0xFFFFFFFF := by
  induction d generalizing s with
  | nil =>
    have := s.rx.disc.isLt
    refine ⟨rfl, ?_⟩
    rw [rxFeedPlain_nil, List.length_nil]
    omega
  | cons b d ih =>
    obtain ⟨hb, hd⟩ := List.forall_mem_cons.1 hd
    obtain ⟨hrx, hdisc⟩ := ih (s := s.setRx { s.rx with disc := satInc s.rx.disc }) hst hd
    have hinc : (satInc s.rx.disc).toNat = min (s.rx.disc.toNat + 1) 0xFFFFFFFF := satInc_toNat s.rx.disc
    rw [rxFeedPlain_cons, rxFeedByte_hunt_discards b hst hb]
    refine ⟨hrx, ?_⟩
    rw [hdisc, State.setRx_rx, hinc, List.length_cons]
    omega

/-- Each byte sets RXOVR and is counted, saturating (42_deframer.md R174, 70_reset_and_hazards.md R285). -/
theorem rxFeedPlain_ready (d : List Byte) {s : State} (hst : s.rx.st = .ready) :
    (rxFeedPlain d s).rx = { s.rx with ovr := s.rx.ovr || !d.isEmpty, disc := (rxFeedPlain d s).rx.disc }
      ∧ (rxFeedPlain d s).rx.disc.toNat = min (s.rx.disc.toNat + d.length) 0xFFFFFFFF := by
  induction d generalizing s with
  | nil =>
    have := s.rx.disc.isLt
    refine ⟨by simp, ?_⟩
    rw [rxFeedPlain_nil, List.length_nil]
    omega
  | cons b d ih =>
    have hinc : (rxOverrun s).rx.disc.toNat = min (s.rx.disc.toNat + 1) 0xFFFFFFFF := satInc_toNat s.rx.disc
    obtain ⟨hrx, hdisc⟩ := ih (s := rxOverrun s) hst
    rw [rxFeedPlain_cons, rxFeedByte_ready b hst]
    refine ⟨hrx.trans ?_, ?_⟩
    · simp [rxOverrun]
    · rw [hdisc, hinc, List.length_cons]
      omega

theorem rxFrame_congr {s t : State} (hst : t.rx.st = s.rx.st) (hbuf : t.rx.buf = s.rx.buf)
    (hcnt : t.rx.cnt = s.rx.cnt) : rxFrame t = rxFrame s := by
  rw [rxFrame, rxFrame, hst, hbuf, hcnt]

/-! ### The obligations about RX_BYTE and RX_EOD -/

/-- Settles O31: the two branches of HUNT; in stream mode the deframer is not in ACCUM, so RX_EOD does nothing, and
RX_BYTE does not read SYNCCHK. -/
theorem rxByteHuntsForTheSyncByte : Obligations.RxByteHuntsForTheSyncByte := by
  refine ⟨fun s b hs hst => ⟨_, rfl, rxFeedByte_sameButRx b s, ?_, ?_⟩, fun s b c hs hmode i hi => ?_⟩
  · rintro rfl
    have hwf := hs.rx.record.wf
    rw [rxFeedByte_hunt_sync hst]
    exact ⟨rfl, Memory.read_write_same (i := 0) 0xE7#8 hwf (by decide), fun a ha => Memory.read_write_ne _ hwf ha⟩
  · intro hb
    rw [rxFeedByte_hunt_discards b hst hb]
    exact ⟨rfl, satInc_toNat s.rx.disc⟩
  · fin_cases hi
    · exact congrArg Host.Outcome.next (rxFeedByte_syncchk s b c)
    · have hst := hs.not_accum_of_stream hmode
      rw [exec_rxEod_of_not_accum hst]
      exact exec_rxEod_of_not_accum hst

/-- Settles O32: with room the byte is written at the count, without room the buffer is as before. -/
theorem rxByteAccumulatesADatagram : Obligations.RxByteAccumulatesADatagram := by
  intro s b hs hst
  have hwf := hs.rx.record.wf
  refine ⟨_, rfl, rxFeedByte_sameButRx b s, ?_⟩
  rw [rxFeedByte_accum b hst]
  by_cases hroom : s.rx.cnt < 1034
  · have hbuf : (rxByteAccum b s).rx.buf = s.rx.buf.write s.rx.cnt b := if_pos hroom
    rw [hbuf]
    exact ⟨by rw [← hbuf]; rfl, fun _ => Memory.read_write_same b hwf hroom,
      fun a ha => Memory.read_write_ne b hwf (ha hroom)⟩
  · have hbuf : (rxByteAccum b s).rx.buf = s.rx.buf := if_neg hroom
    rw [hbuf]
    exact ⟨by rw [← hbuf]; rfl, fun h => absurd h hroom, fun _ _ => rfl⟩

/-- Settles O33: the fifth byte is the header checksum of the four stored before it, and the length is among these. -/
theorem rxByteChecksTheHeaderAtItsFifthByte : Obligations.RxByteChecksTheHeaderAtItsFifthByte := by
  intro s b hs hst
  have hwf := hs.rx.record.wf
  have hmax := hs.hdr_cnt_le hst
  have hbuf := rxFeedByte_candidate_buf b (.inl hst)
  have hreject : ∀ c, s.rx.cnt = 4 → Rejected c 5 s (reject c (rxStore b s)) := fun c hcnt => by
    have := reject_rxStore_rejected c b s hwf
    rwa [hcnt] at this
  refine ⟨_, rfl, rxFeedByte_sameButRx b s, ?_, fun a ha => ?_, fun hcnt => ?_, fun hcnt hhcs => ?_,
    fun hcnt hhcs hlen => ?_, fun hcnt hhcs hlo hhi => ?_⟩
  · rw [hbuf, rxStore_read_same hwf (by omega)]
  · rw [hbuf, rxStore_read_ne hwf ha]
  · rw [rxFeedByte_hdr_before b hst (by omega)]; rfl
  all_goals
    have hok := headerOk_rxStore_iff (b := b) hwf hcnt
    rw [rxFeedByte_hdr_fifth b hst hcnt, rxHeaderVerdict, rxLength_rxStore b hwf (by omega), Config.lenMax]
  · rw [if_pos (by rwa [← Bool.not_eq_true, hok])]
    exact hreject .hcs hcnt
  · rw [if_neg (by rw [hok.2 hhcs]; decide), if_pos hlen]
    exact hreject .len hcnt
  · rw [if_neg (by rw [hok.2 hhcs]; decide), if_neg (by omega)]
    have hfive : (rxStore b s).rx.cnt = 5 := congrArg (· + 1) hcnt
    rw [← hfive]
    rfl

/-- Settles O34: the candidate with the byte is the frame, and the invariant bounds its length. -/
theorem rxByteRunsTheTailChecksOnTheLastByte : Obligations.RxByteRunsTheTailChecksOnTheLastByte := by
  intro s b hs hst
  have hwf := hs.rx.record.wf
  obtain ⟨hmin, hmax⟩ := hs.body_cnt hst
  have hbuf := rxFeedByte_candidate_buf b (.inr hst)
  refine ⟨_, rfl, rxFeedByte_sameButRx b s, ?_, fun a ha => ?_, ?_, fun hlen => ?_, fun hlen => ?_⟩
  · rw [hbuf, rxStore_read_same hwf hmax]
  · rw [hbuf, rxStore_read_ne hwf ha]
  · by_cases hlen : s.rx.cnt + 1 = 5 + (le16 (s.rx.buf.read 2) (s.rx.buf.read 3)).toNat
    · rw [rxFeedByte_body_last b hwf hst hmin hmax hlen]
      exact (conclude_cnt_le _ _).trans hmax
    · rw [rxFeedByte_body_before b hwf hst hmin hlen]
      exact hmax
  · rw [rxFeedByte_body_before b hwf hst hmin hlen]; rfl
  · have hslice := rxStore_slice b hwf hmax
    have hcount : (s.rx.buf.slice 0 s.rx.cnt ++ [b]).length = s.rx.cnt + 1 := by simp
    rw [rxFeedByte_body_last b hwf hst hmin hmax hlen, ← hcount]
    exact ite_prop_iff_and.1 (conclude_stored (u := rxStore b s) rfl hcount.symm (hcount ▸ hslice)
      (fun a ha => rxStore_read_ne hwf (by omega)) ⟨rfl, rfl, rfl, rfl, rfl, rfl⟩)

/-- Settles O35: each byte of the datagram is dropped, and RX_EOD does nothing in READY. -/
theorem bytesAreDroppedWhileAFrameIsHeld : Obligations.BytesAreDroppedWhileAFrameIsHeld := by
  refine ⟨fun s b hst => ⟨rxOverrun s, ?_, rfl, satInc_toNat s.rx.disc⟩, fun s d rest hst hd => ?_⟩
  · rw [exec, execRxByte, rxFeedByte_ready b hst]
  · obtain ⟨hrx, hdisc⟩ := rxFeedPlain_ready d hst
    have hst' : (rxFeedPlain d s).rx.st ≠ .accum := by rw [hrx, hst]; decide
    rw [List.isEmpty_eq_false_iff.2 hd, Bool.not_false, Bool.or_true] at hrx
    have heq : (rxDatagram d s).rx = (rxFeedPlain d s).rx := by rw [rxDatagram_rx, rxEndDatagram_stream hst']
    refine ⟨_, step_datagram s d rest, ?_⟩
    show (rxDatagram d s).rx = { s.rx with ovr := true, disc := (rxDatagram d s).rx.disc }
      ∧ (rxDatagram d s).rx.disc.toNat = _ ∧ rxFrame (rxDatagram d s) = _
    rw [heq]
    refine ⟨hrx, hdisc, rxFrame_congr ?_ ?_ ?_⟩ <;> rw [heq, hrx]

/-- Settles O36: outside ACCUM nothing; in ACCUM the verdict on the stored bytes, or OVERSIZE past what is stored. -/
theorem rxEodTakesTheDatagramVerdict : Obligations.RxEodTakesTheDatagramVerdict := by
  intro s hs
  refine ⟨_, rfl, rxEndDatagram_sameButRx s, ?_, rxEndDatagram_stream, fun hst hcnt => ?_, fun hst hcnt => ?_⟩
  · unfold rxEndDatagram
    split
    · exact conclude_buf _ s
    · rfl
  · rw [rxEndDatagram, if_pos hst, verdictDgram_oversize s (by omega)]
    exact reject_rejected .oversize 0 s
  · rw [rxEndDatagram, if_pos hst, verdictDgram_eq s hcnt, conclude]
    refine ⟨fun hpass => ?_, fun hfail => ?_⟩
    · rw [if_pos hpass]; exact accept_holdsFrame s
    · rw [if_neg hfail]; exact reject_rejected _ 0 s

/-- Settles O56: the five bytes end the candidate, and the hunt goes on with the bytes after them, neither of which is
the sync byte. -/
theorem streamResyncDoesNotRescanTheCandidate : Obligations.StreamResyncDoesNotRescanTheCandidate := by
  refine ⟨fun s b1 b2 b3 b4 hs hst hhcs => ?_, fun s hs hst hroom => ?_⟩
  all_goals have hmode := hs.dgram_of_hunt hst
  · have hrejected := rxFeedPlain_bad_header (d := [0xE7#8, b1, b2, b3, b4]) hst hs.rx.record.wf rfl rfl hhcs
    exact ⟨_, execAll_rxByte _ s, hrejected, by rw [hrejected.st, hmode]; rfl⟩
  · have hrejected := rxFeedPlain_bad_header (d := [0xE7#8, 0xE7#8, 0x01#8, 0x01#8, 0x00#8]) hst hs.rx.record.wf rfl rfl
      (by decide)
    refine ⟨_, execAll_rxByte _ s, ?_⟩
    rw [show ([0xE7#8, 0xE7#8, 0x01#8, 0x01#8, 0x00#8, 0xE9#8, 0xD2#8] : List Byte) =
      [0xE7#8, 0xE7#8, 0x01#8, 0x01#8, 0x00#8] ++ [0xE9#8, 0xD2#8] from rfl, rxFeedPlain_append]
    generalize rxFeedPlain [0xE7#8, 0xE7#8, 0x01#8, 0x01#8, 0x00#8] s = t at hrejected
    have htst : t.rx.st = .hunt := by rw [hrejected.st, hmode]; rfl
    obtain ⟨hrx, hdisc⟩ := rxFeedPlain_hunt_discards (d := [0xE9#8, 0xD2#8]) htst (by decide)
    rw [hrejected.disc] at hdisc
    rw [hrx]
    exact ⟨htst, hrejected.code_eq, hdisc.trans (Nat.min_eq_left hroom), hrejected.ovr⟩

end Sys2Proof.Machine
end

section
/-! SUPPORT. The framer's commands (43_framer.md R202 to R208): an append in each of its three cases, the bytes of a
closed frame one by one, and what the transmit registers show. -/

namespace Sys2Proof.Machine

/-! ### What the transmit registers show -/

theorem txFlen_of_rdy {s : State} (h : s.tx.rdy = true) : readReg .txFlen s = BitVec.ofNat 32 (s.tx.plen + 6) := by
  rw [readReg, if_pos h]

theorem txFlen_of_not_rdy {s : State} (h : s.tx.rdy = false) : readReg .txFlen s = 0#32 := by
  rw [readReg, if_neg (by rw [h]; decide)]

theorem txFrame_of_rdy {s : State} (h : s.tx.rdy = true) : txFrame s = s.tx.buf.slice 0 (s.tx.plen + 6) := if_pos h

theorem txFrame_of_not_rdy {s : State} (h : s.tx.rdy = false) : txFrame s = [] := if_neg (by rw [h]; decide)

/-- An open frame is not built yet (10_state.md R46). -/
theorem TxInv.not_rdy_of_open {t : Tx} (h : TxInv t) (hopen : t.isOpen = true) : t.rdy = false :=
  Bool.eq_false_iff.2 fun hrdy => h.phase ⟨hopen, hrdy⟩

/-! ### An append -/

theorem txAppend_of_not_open (l : List Byte) {s : State} (hopen : s.tx.isOpen = false) :
    txAppend l s = txError .state s := if_pos hopen

theorem txAppend_of_full {l : List Byte} {s : State} (hopen : s.tx.isOpen = true) (hfull : 1028 < s.tx.plen + l.length) :
    txAppend l s = txError .ovf s := by
  rw [txAppend, if_neg (by rw [hopen]; decide)]
  exact if_pos hfull

/-- The buffer after an append of bytes that fit (43_framer.md R203 to R205). -/
theorem read_writeList_payload {l : List Byte} {t : Tx} (hwf : t.buf.wf = true) (hfit : t.plen + l.length ≤ 1028) (a : Nat) :
    (t.buf.writeList (5 + t.plen) l).read a =
      if 5 + t.plen ≤ a ∧ a < 5 + t.plen + l.length then l.getD (a - (5 + t.plen)) 0#8 else t.buf.read a :=
  Memory.read_writeList _ l hwf (by rw [Config.maxFrame]; omega) a

/-! ### A closed frame, byte by byte -/

section
variable {t : Tx} (hwf : t.buf.wf = true) (hplen : t.plen ≤ 1028)
include hwf hplen

theorem txClose_read_frame {a : Nat} (ha : a < t.plen + 6) :
    (txClose t).read a = (mkFrame t.op (t.buf.slice 5 t.plen)).getD a 0#8 := by
  rw [txClose_read hwf hplen, if_pos ha]

theorem txClose_slice_take {n : Nat} (hn : n ≤ t.plen + 6) :
    (txClose t).slice 0 n = (mkFrame t.op (t.buf.slice 5 t.plen)).take n := by
  rw [← txClose_slice hwf hplen, Memory.slice_take _ _ hn]

theorem txClose_lengthField : (le16 ((txClose t).read 2) ((txClose t).read 3)).toNat = t.plen + 1 := by
  have h := mkFrame_lengthField t.op (t.buf.slice 5 t.plen) (by rwa [Memory.slice_length])
  rwa [← txClose_read_frame hwf hplen (by omega), ← txClose_read_frame hwf hplen (by omega), Memory.slice_length] at h

theorem txClose_headerChecksum : (txClose t).read 4 = sum8 ((txClose t).slice 0 4) := by
  rw [txClose_read_frame hwf hplen (by omega), txClose_slice_take hwf hplen (by omega), mkFrame_hcs, mkFrame_header]

theorem txClose_frameChecksum : (txClose t).read (5 + t.plen) = sum8 ((txClose t).slice 0 (5 + t.plen)) := by
  have hlast := mkFrame_last t.op (t.buf.slice 5 t.plen)
  have hbody := mkFrame_take_body t.op (t.buf.slice 5 t.plen)
  rw [Memory.slice_length, Nat.add_comm] at hlast hbody
  rw [txClose_read_frame hwf hplen (by omega), txClose_slice_take hwf hplen (by omega), hlast, hbody]

/-- Closing stores nothing between the header checksum and the frame checksum, nor past the frame (43_framer.md R206). -/
theorem txClose_read_kept {a : Nat} (hmin : 5 ≤ a) (hne : a ≠ 5 + t.plen) : (txClose t).read a = t.buf.read a := by
  by_cases ha : a < 5 + t.plen
  · have h := congrArg (·.getD (a - 5) 0#8) (txClose_payload hwf hplen)
    rwa [Memory.getD_slice _ _ _ _ (by omega), Memory.getD_slice _ _ _ _ (by omega), Nat.add_sub_cancel' hmin] at h
  · rw [txClose_read hwf hplen, if_neg (by omega)]

end

/-! ### TX_END -/

theorem execTxEnd_of_not_open {s : State} (hopen : s.tx.isOpen = false) : execTxEnd s = .next (txError .state s) :=
  if_pos hopen

theorem execTxEnd_of_open {s : State} (hopen : s.tx.isOpen = true) :
    execTxEnd s = .next (s.setTx { s.tx with buf := txClose s.tx, isOpen := false, rdy := true }) :=
  if_neg (by rw [hopen]; decide)

/-! ### The obligations about the framer -/

/-- Settles O40: the three commands are one append; with no frame open or no room it only records its error, else it is
one store of all its bytes. -/
theorem txAppendsAreAllOrNothing : Obligations.TxAppendsAreAllOrNothing := by
  intro s i l hs hi
  have hexec : exec i s = .next (txAppend l s) := by
    obtain ⟨b, rfl, rfl⟩ | ⟨rfl, rfl⟩ | ⟨rfl, rfl⟩ := hi <;> rfl
  refine ⟨_, hexec, txAppend_sameButTx l s, fun hopen => ?_, fun hopen hfull => ?_, fun hopen hfit => ?_⟩
  · rw [txAppend_of_not_open l hopen]; rfl
  · rw [txAppend_of_full hopen hfull]; rfl
  · have hread := read_writeList_payload hs.tx.wf hfit
    rw [txAppend_open hopen hfit]
    refine ⟨rfl, fun j hj => ?_, fun a ha => ?_⟩
    · exact (hread _).trans (by rw [if_pos (by omega), Nat.add_sub_cancel_left])
    · exact (hread a).trans (if_neg (by omega))

/-- Settles O41: the closed buffer holds the frame of the payload; what TXBUF shows turns on TXRDY alone, which the
invariant excludes while a frame is open. -/
theorem txEndCompletesTheFrame : Obligations.TxEndCompletesTheFrame := by
  refine ⟨fun s hs => ?_, fun s hrdy => ⟨txFrame_of_not_rdy hrdy, txbuf_of_not_rdy hrdy⟩, fun s hrdy => ?_, fun s hs => ?_⟩
  · have hwf := hs.tx.wf
    have hplen := hs.tx.plen
    obtain ⟨t, ht⟩ := exec_next .txEnd s
    refine ⟨t, ht, execTxEnd_sameButTx ht, fun hopen => ?_, fun hopen => ?_⟩
    · cases ht.symm.trans (execTxEnd_of_not_open hopen); rfl
    · cases ht.symm.trans (execTxEnd_of_open hopen)
      exact ⟨rfl, txFlen_of_rdy rfl, txClose_read_frame hwf hplen (by omega), txClose_read_frame hwf hplen (by omega),
        txClose_lengthField hwf hplen, txClose_headerChecksum hwf hplen, txClose_frameChecksum hwf hplen,
        fun a => txClose_read_kept hwf hplen⟩
  · exact ⟨by rw [txFrame_of_rdy hrdy, Memory.slice_length], fun k j => txbuf_of_rdy hrdy k⟩
  · exact ⟨fun hopen => txbuf_of_not_rdy (hs.tx.not_rdy_of_open hopen),
      fun hrdy => (txFrame_of_rdy hrdy).trans (hs.tx.built hrdy)⟩

/-- Settles O42: the commands leave the encoding of the payload in the buffer, and the windows show it. -/
theorem builtFrameIsTheEncodingOfItsPayload : Obligations.BuiltFrameIsTheEncodingOfItsPayload := by
  intro s op p hs hp
  obtain ⟨m, -, hframe, hbuild⟩ := execAll_build op p s hs.tx.wf hp
  set t := s.setTx { s.tx with op := op, plen := p.length, buf := m, isOpen := false, rdy := true }
  have hbuilt : txFrame t = mkFrame op p := hframe
  have hshown := txbuf_of_rdy (s := t) rfl
  rw [hbuilt] at hshown
  exact ⟨t, hbuild, rfl, rfl, rfl, hbuilt, txFlen_of_rdy (s := t) rfl, fun k j => hshown k⟩

/-- Settles O39: with TXRDY cleared TX_FLEN and TXBUF read 0. -/
theorem txBeginOpensANewFrame : Obligations.TxBeginOpensANewFrame := fun _ _ =>
  ⟨_, rfl, rfl, txFlen_of_not_rdy rfl, statusWord_bit _ 3, statusWord_bit _ 8, txbuf_of_not_rdy rfl⟩

end Sys2Proof.Machine
end

section
/-! SUPPORT. The CRC unit (44_crc32.md section 2): a sequence of CRC_BYTE as one feed, the count as a number, and which
instructions reach the result of the comparison. -/

namespace Sys2Proof.Machine

/-! ### Feeding the unit -/

theorem crcFeed_nil (s : State) : crcFeed [] s = s := by
  rw [crcFeed, crcBytes_nil, List.length_nil, BitVec.add_zero, State.setCrc_self]

theorem crcFeed_cons (b : Byte) (l : List Byte) (s : State) : crcFeed (b :: l) s = crcFeed l (crcFeed [b] s) := by
  have hcnt : BitVec.ofNat 32 (b :: l).length = BitVec.ofNat 32 [b].length + BitVec.ofNat 32 l.length := by
    rw [← BitVec.ofNat_add, List.length_cons, List.length_singleton, Nat.add_comm]
  rw [crcFeed, hcnt, ← BitVec.add_assoc]
  rfl

/-- Every byte is counted, modulo 2^32 (44_crc32.md R223, R224). -/
theorem crcFeed_cnt_toNat (l : List Byte) (s : State) :
    (crcFeed l s).crc.cnt.toNat = (s.crc.cnt.toNat + l.length) % 2 ^ 32 := by
  rw [crcFeed, State.setCrc_crc, BitVec.toNat_add, BitVec.toNat_ofNat, Nat.add_mod_mod]

/-- CRC_BYTE of bytes in turn is one feed of them (44_crc32.md R224, R226). -/
theorem execAll_crcByte (l : List Byte) (s : State) : execAll (l.map .crcByte) s = .next (crcFeed l s) := by
  induction l generalizing s with
  | nil => rw [crcFeed_nil]; rfl
  | cons b l ih => rw [crcFeed_cons]; exact ih _

/-! ### Who reaches the result of the comparison -/

/-- No instruction but CRC_CMP and SOFT_RST writes the result of the comparison (44_crc32.md R225). -/
theorem exec_crc_ok {i : Instr} {s t : State} (h : exec i s = .next t) (hreset : i ≠ .softRst) (hcmp : i ≠ .crcCmp) :
    t.crc.ok = s.crc.ok := by
  have hrx : ∀ {n : Nat}, OnlyReceived n s t → t.crc.ok = s.crc.ok := fun ht => congrArg Crc.ok ht.crc
  have htx : SameButTx s t → t.crc.ok = s.crc.ok := fun ht => by rw [ht]; rfl
  cases henc : encode i with
  | frame d =>
    rw [exec_message henc] at h
    cases h
    exact hrx (rxDatagram_onlyReceived d s)
  | command w =>
    cases i <;> simp only [encode, reduceCtorEq] at henc
    case softRst => exact absurd rfl hreset
    case crcCmp => exact absurd rfl hcmp
    case rxByte b => cases h; exact hrx (rxFeedByte_sameButRx b s).onlyReceived
    case rxEod => cases h; exact hrx (rxEndDatagram_sameButRx s).onlyReceived
    case rxAck => cases h; exact hrx (rxRelease_sameButRx s).onlyReceived
    case txPut | txPutw | txPutcrc => cases h; exact htx (txAppend_sameButTx _ s)
    case txEnd => exact htx (execTxEnd_sameButTx h)
    all_goals cases h; rfl

/-! ### The comparison of signed with unsigned -/

/-- Two words are one pattern when the unsigned value of the one is the signed value of the other modulo `2 ^ w`
(44_crc32.md R227). -/
theorem eq_iff_toNat_eq_toInt_emod {w : Nat} (x y : BitVec w) : x = y ↔ (x.toNat : Int) = y.toInt % 2 ^ w := by
  have hy : y.toInt % 2 ^ w = (y.toNat : Int) := by
    have hmod : (y.toNat : Int).bmod (2 ^ w) % ((2 ^ w : Nat) : Int) = ((y.toNat % 2 ^ w : Nat) : Int) := Int.bmod_emod
    rwa [Nat.mod_eq_of_lt y.isLt, Nat.cast_pow, ← BitVec.toInt_eq_toNat_bmod] at hmod
  rw [hy, Int.natCast_inj, BitVec.toNat_inj]

/-! ### The obligations about the CRC commands -/

/-- Settles O26: CRC_INIT, then one feed of the bytes; the check values are evaluated. -/
theorem crcResultIsTheFoldOfTheBytesFed : Obligations.CrcResultIsTheFoldOfTheBytesFed := by
  refine ⟨fun s l => ?_, ?_, rfl, ?_, ?_, ?_, ?_⟩
  · refine ⟨_, execAll_crcByte l (s.setCrc { s.crc with c := Config.crcInit, cnt := 0#32 }), rfl, ?_, rfl⟩
    exact (crcFeed_cnt_toNat l _).trans (congrArg (· % 2 ^ 32) (Nat.zero_add _))
  all_goals decide +kernel

/-- Settles O27: the comparison writes `crc.ok` alone, and of the other instructions only SOFT_RST reaches it. -/
theorem crcCmpComparesPatterns : Obligations.CrcCmpComparesPatterns := by
  intro s
  have hok : crcMatches s = true ↔ readReg .crcResult s = s.wdata := beq_iff_eq
  exact ⟨_, rfl, rfl, hok, hok.trans (eq_iff_toNat_eq_toInt_emod _ _), fun i u => exec_crc_ok⟩

/-- Settles O24: the register and the count are written and nothing else; the final XOR of 0xFFFFFFFF is 0. -/
theorem crcInitStartsANewCrc : Obligations.CrcInitStartsANewCrc := fun _ =>
  ⟨_, rfl, rfl, rfl, BitVec.xor_self, rfl⟩

/-- Settles O25: each command is one feed, of B or of the four bytes of WDATA. -/
theorem crcCommandsFeedBytesInOrder : Obligations.CrcCommandsFeedBytesInOrder := by
  refine ⟨fun s b => ⟨_, rfl, rfl, ?_⟩, fun s => ⟨_, rfl, rfl, rfl, ?_⟩, fun s => ?_⟩
  · exact crcFeed_cnt_toNat [b] s
  · exact crcFeed_cnt_toNat (bytesLe32 s.wdata) s
  · exact execAll_crcByte (bytesLe32 s.wdata) s

end Sys2Proof.Machine
end

section
/-! SUPPORT. The control family (45_control.md): no register shows the events pending or the observations
recorded, the two fields that SOFT_RST and the hardware reset leave (log 3). -/

namespace Sys2Proof.Machine

/-! ### The registers after a reset -/

theorem readReg_setObserved (r : Reg) (s : State) (o : List Observation) :
    readReg r (s.setObserved o) = readReg r s := by
  cases r <;> rfl

/-- Every register reads its reset value after the reset, whatever state it found (45_control.md R241). -/
theorem readReg_resetAll (r : Reg) (s : State) : readReg r (resetAll s) = readReg r State.reset := by
  rw [resetAll, readReg_setObserved, readReg_setPending]

/-! ### The obligations about the control commands -/

/-- Settles O3: SOFT_RST and the hardware reset are both `resetAll`, the reset state with the two fields that are no FCU
state put back. -/
theorem softResetAndHardwareResetRestoreEveryVariable :
    Obligations.SoftResetAndHardwareResetRestoreEveryVariable := fun s =>
  ⟨resetAll s, rfl, rfl, rfl, rfl, rfl, rfl, ⟨_, rfl⟩, ⟨_, rfl⟩, rfl, rfl, rfl, fun r => readReg_resetAll r s, rfl,
    readReg_resetAll .ctrl s⟩

/-- Settles O20: NOP answers the state it is given, and OPC 0x00 is NOP. -/
theorem nopChangesNothing : Obligations.NopChangesNothing := ⟨fun _ => rfl, decodeCommand_of_encode (i := .nop) rfl⟩

end Sys2Proof.Machine
end

section
/-! SUPPORT. Errors recorded in state (60_exceptions.md): a run over admitted events goes on after each of them, and what
one instruction does to the error bits and the two event counts. -/

namespace Sys2Proof.Machine

/-! ### Runs over admitted events -/

/-- A step over admitted events answers a state, and only admitted events are pending in it. -/
theorem step_of_admitted {s : State} (hadmitted : ∀ e ∈ s.pending, e.admitted = true) :
    ∃ t, step s = .next t ∧ ∀ e ∈ t.pending, e.admitted = true := by
  cases hpending : s.pending with
  | nil => exact ⟨s, step_nil hpending, hadmitted⟩
  | cons e rest =>
    rw [hpending] at hadmitted
    obtain ⟨he, hrest⟩ := List.forall_mem_cons.1 hadmitted
    rcases runEvent_cases e (s.setPending rest) with ⟨-, t, ht⟩ | ⟨hrefused, -⟩
    · refine ⟨t, (step_of_pending hpending).trans ht, ?_⟩
      rw [runEvent_pending ht]
      exact hrest
    · exact absurd he (by rw [hrefused]; decide)

/-! ### The deframer's error record -/

/-- From `r` to `r'` no error bit of the deframer is cleared and neither of its counts goes back
(60_exceptions.md R262). -/
structure RxErrorsKept (r r' : Rx) : Prop where
  err : r.err = true → r'.err = true
  ovr : r.ovr = true → r'.ovr = true
  errcnt : r.errcnt.toNat ≤ r'.errcnt.toNat
  disc : r.disc.toNat ≤ r'.disc.toNat

/-- A saturating count never goes back (42_deframer.md R164, R166). -/
theorem toNat_le_satInc {w : Nat} (v : BitVec w) : v.toNat ≤ (satInc v).toNat := by
  rw [satInc_toNat]
  have := v.isLt
  omega

theorem RxErrorsKept.refl (r : Rx) : RxErrorsKept r r := ⟨id, id, le_refl _, le_refl _⟩

theorem RxErrorsKept.trans {r r' r'' : Rx} (h : RxErrorsKept r r') (h' : RxErrorsKept r' r'') : RxErrorsKept r r'' :=
  ⟨h'.err ∘ h.err, h'.ovr ∘ h.ovr, h.errcnt.trans h'.errcnt, h.disc.trans h'.disc⟩

theorem reject_errorsKept (code : RejectCode) (s : State) : RxErrorsKept s.rx (reject code s).rx :=
  ⟨fun _ => rfl, id, toNat_le_satInc _, le_refl _⟩

theorem accept_errorsKept (s : State) : RxErrorsKept s.rx (accept s).rx := ⟨id, id, le_refl _, le_refl _⟩

theorem conclude_errorsKept (e : RejectCode) (s : State) : RxErrorsKept s.rx (conclude e s).rx := by
  unfold conclude
  split
  · exact accept_errorsKept s
  · exact reject_errorsKept e s

theorem rxOverrun_errorsKept (s : State) : RxErrorsKept s.rx (rxOverrun s).rx :=
  ⟨id, fun _ => rfl, le_refl _, toNat_le_satInc _⟩

theorem rxStore_errorsKept (b : Byte) (s : State) : RxErrorsKept s.rx (rxStore b s).rx :=
  ⟨id, id, le_refl _, le_refl _⟩

theorem rxHeaderVerdict_errorsKept (s : State) : RxErrorsKept s.rx (rxHeaderVerdict s).rx := by
  unfold rxHeaderVerdict
  split_ifs
  · exact reject_errorsKept .hcs s
  · exact reject_errorsKept .len s
  · exact ⟨id, id, le_refl _, le_refl _⟩

/-- The sync byte leaves the record, any other byte is counted as discarded (42_deframer.md R164). -/
theorem rxByteHunt_errorsKept (b : Byte) (s : State) : RxErrorsKept s.rx (rxByteHunt b s).rx := by
  unfold rxByteHunt
  split
  · exact ⟨id, id, le_refl _, le_refl _⟩
  · exact ⟨id, id, le_refl _, toNat_le_satInc _⟩

theorem rxByteHdr_errorsKept (b : Byte) (s : State) : RxErrorsKept s.rx (rxByteHdr b s).rx := by
  unfold rxByteHdr
  simp only
  split
  · exact (rxStore_errorsKept b s).trans (rxHeaderVerdict_errorsKept _)
  · exact rxStore_errorsKept b s

theorem rxByteBody_errorsKept (b : Byte) (s : State) : RxErrorsKept s.rx (rxByteBody b s).rx := by
  unfold rxByteBody
  simp only
  split
  · exact (rxStore_errorsKept b s).trans (conclude_errorsKept _ _)
  · exact rxStore_errorsKept b s

theorem rxByteAccum_errorsKept (b : Byte) (s : State) : RxErrorsKept s.rx (rxByteAccum b s).rx :=
  ⟨id, id, le_refl _, le_refl _⟩

theorem rxFeedByte_errorsKept (b : Byte) (s : State) : RxErrorsKept s.rx (rxFeedByte b s).rx := by
  unfold rxFeedByte
  split
  · exact rxByteHunt_errorsKept b s
  · exact rxByteHdr_errorsKept b s
  · exact rxByteBody_errorsKept b s
  · exact rxByteAccum_errorsKept b s
  · exact rxOverrun_errorsKept s

theorem rxEndDatagram_errorsKept (s : State) : RxErrorsKept s.rx (rxEndDatagram s).rx := by
  unfold rxEndDatagram
  split
  · exact conclude_errorsKept _ s
  · exact .refl _

theorem rxFeedPlain_errorsKept (d : List Byte) (s : State) : RxErrorsKept s.rx (rxFeedPlain d s).rx := by
  induction d generalizing s with
  | nil => exact .refl _
  | cons b d ih => exact (rxFeedByte_errorsKept b s).trans (ih _)

theorem rxDatagram_errorsKept (d : List Byte) (s : State) : RxErrorsKept s.rx (rxDatagram d s).rx := by
  rw [rxDatagram_rx]
  exact (rxFeedPlain_errorsKept d s).trans (rxEndDatagram_errorsKept _)

/-- RX_ACK empties the deframer and leaves its error record (42_deframer.md R176). -/
theorem rxRelease_errorsKept (s : State) : RxErrorsKept s.rx (rxRelease s).rx := by
  unfold rxRelease
  split
  · exact ⟨id, id, le_refl _, le_refl _⟩
  · exact .refl _

/-! ### The framer's error bit -/

theorem txAppend_keeps_err (l : List Byte) {s : State} (herr : s.tx.err = true) : (txAppend l s).tx.err = true := by
  unfold txAppend
  split_ifs
  · rfl
  · rfl
  · exact herr

theorem execTxEnd_keeps_err {s t : State} (h : execTxEnd s = .next t) (herr : s.tx.err = true) : t.tx.err = true := by
  unfold execTxEnd at h
  split at h
  · cases h; rfl
  · cases h; exact herr

/-! ### What one instruction does to the record -/

/-- Instruction `i` keeps the errors recorded in `s`; RX_RST may drop the deframer's (60_exceptions.md R262). -/
structure ErrorsKept (i : Instr) (s t : State) : Prop where
  tx : s.tx.err = true → t.tx.err = true
  cmderr : s.cmderr = true → t.cmderr = true
  rx : i ≠ .rxRst → RxErrorsKept s.rx t.rx

theorem ErrorsKept.ofDeframer {i : Instr} {s t : State} {n : Nat} (ht : OnlyReceived n s t)
    (hrx : i ≠ .rxRst → RxErrorsKept s.rx t.rx) : ErrorsKept i s t :=
  ⟨by rw [ht.tx]; exact id, by rw [ht.cmderr]; exact id, hrx⟩

theorem ErrorsKept.ofFramer {i : Instr} {s t : State} (ht : SameButTx s t) (htx : s.tx.err = true → t.tx.err = true) :
    ErrorsKept i s t := by
  rw [ht]
  exact ⟨htx, id, fun _ => .refl _⟩

/-- Every instruction but SOFT_RST keeps the errors recorded. -/
theorem exec_errorsKept {i : Instr} {s t : State} (h : exec i s = .next t) (hreset : i ≠ .softRst) :
    ErrorsKept i s t := by
  cases henc : encode i with
  | frame d =>
    rw [exec_message henc] at h
    cases h
    exact .ofDeframer (rxDatagram_onlyReceived d s) fun _ => rxDatagram_errorsKept d s
  | command w =>
    cases i <;> simp only [encode, reduceCtorEq] at henc
    case softRst => exact absurd rfl hreset
    case nop | csClr | csAdd | csAddw | csCmp | crcInit | crcByte | crcWord | crcCmp =>
      cases h; exact ⟨id, id, fun _ => .refl _⟩
    case rxRst => cases h; exact .ofDeframer (rxReset_sameButRx s).onlyReceived fun hne => absurd rfl hne
    case rxByte b => cases h; exact .ofDeframer (rxFeedByte_sameButRx b s).onlyReceived fun _ => rxFeedByte_errorsKept b s
    case rxEod => cases h; exact .ofDeframer (rxEndDatagram_sameButRx s).onlyReceived fun _ => rxEndDatagram_errorsKept s
    case rxAck => cases h; exact .ofDeframer (rxRelease_sameButRx s).onlyReceived fun _ => rxRelease_errorsKept s
    case rxExpect b =>
      cases h; exact .ofDeframer (SameButRx.setRx s _).onlyReceived fun _ => ⟨id, id, le_refl _, le_refl _⟩
    case txBegin b => cases h; exact .ofFramer rfl id
    case txPut | txPutw | txPutcrc => cases h; exact .ofFramer (txAppend_sameButTx _ s) (txAppend_keeps_err _)
    case txEnd => exact .ofFramer (execTxEnd_sameButTx h) (execTxEnd_keeps_err h)

/-! ### The obligations about recorded errors -/

/-- Settles O59, by induction on the number of steps: each step over admitted events answers a state in which only
admitted events are pending. -/
theorem admittedRunsNeverStop : Obligations.AdmittedRunsNeverStop := by
  intro n
  induction n with
  | zero => exact fun s _ => ⟨s, rfl⟩
  | succ n ih =>
    intro s hadmitted
    obtain ⟨t, hstep, hpending⟩ := step_of_admitted hadmitted
    obtain ⟨u, hrun⟩ := ih t hpending
    exact ⟨u, (run_succ (M := Sys2Proof.core) hstep).trans hrun⟩

/-- Settles O60: one case per instruction; but for RX_RST and SOFT_RST, each leaves an error bit or sets it, and leaves a
count or increments it, saturating. -/
theorem recordedErrorsAreSticky : Obligations.RecordedErrorsAreSticky := by
  intro i s t h hreset
  obtain ⟨htx, hcmderr, hrx⟩ := exec_errorsKept h hreset
  refine ⟨htx, hcmderr, fun hne => ?_⟩
  obtain ⟨herr, hovr, herrcnt, hdisc⟩ := hrx hne
  exact ⟨herr, hovr, herrcnt, hdisc⟩

end Sys2Proof.Machine
end

section
/-! SUPPORT. The reset state (70_reset_and_hazards.md R281). -/

namespace Sys2Proof.Machine

/-- Settles O1: the state variables stand at the values of 10_state.md R49. No frame is held and none is built, so the
views and both windows read 0 whatever the buffers contain; every other register is evaluated. -/
theorem resetStateIsEmptyDatagramReceiver : Obligations.ResetStateIsEmptyDatagramReceiver := by
  refine ⟨rfl, rfl, rfl, rfl, rfl, rfl, rfl, rfl, rfl, rfl, rfl, rfl, rfl, rfl, rfl, rfl, rfl, rfl, rfl, fun r => ?_⟩
  have hnotReady : State.reset.rx.st ≠ .ready := by decide
  have hnotRdy : State.reset.tx.rdy = false := rfl
  obtain ⟨hhdr, hw0, hw1, hwt, hrxbuf⟩ := viewsReadZeroUnlessAFrameIsHeld State.reset hnotReady
  cases r with
  | rxHdr => exact hhdr
  | rxW0 => exact hw0
  | rxW1 => exact hw1
  | rxWt => exact hwt
  | rxbuf k => exact hrxbuf k
  | txbuf k => exact txbuf_of_not_rdy hnotRdy k
  | txFlen => exact txFlen_of_not_rdy hnotRdy
  | id | ctrl | status | cmd | wdata | csSum | crcState | crcResult | crcCnt | rxExpect | rxCnt | rxErr | rxDisc
  | txInfo => rfl

end Sys2Proof.Machine
end
